-- ==== Sys2Proof/Word.lean ====
section
/-! DEFINITION. The block's word types (spec/00_scope.md R8, spec/20_memory.md R61, R62) and the two rounding
functions of R8. Every field is an unsigned integer of fixed width; counts, lengths and offsets are natural numbers. -/

namespace Sys2Proof

/-- An unsigned 8-bit value (R8). -/
abbrev Byte := BitVec 8
/-- A 2-byte field's value (R62). -/
abbrev U16 := BitVec 16
/-- A 4-byte field's value (R62). -/
abbrev U32 := BitVec 32
/-- An 8-byte field's value (R62). -/
abbrev U64 := BitVec 64

/-- `even_floor(x)` of R8. -/
def evenFloor (x : Nat) : Nat := x - x % 2

/-- `round_up_even(x)` of R8. -/
def roundUpEven (x : Nat) : Nat := x + x % 2

end Sys2Proof
end

