-- ==== Sys2Proof/Syntax.lean ====
section
/-! DEFINITION. The syntax of the block: operations (spec/10_state.md R24), wire formats (spec/30_encoding.md R89 to
R112) and the one inductive `Instr`, one constructor per row of spec/opcode_table.json. -/

namespace Sys2Proof

/-- The two streaming kinds `K` of spec/00_scope.md R7. -/
inductive Kind where
  | mod
  | foci
deriving DecidableEq, Repr

/-- A segment of spec/00_scope.md R12. -/
inductive Segment where
  | s0
  | s1
deriving DecidableEq, Repr

/-- An operation slot of a device: primary or secondary (spec/10_state.md R24). -/
inductive SlotIx where
  | pri
  | sec
deriving DecidableEq, Repr

/-- A transition mode (spec/10_state.md R24). The pin of `gpio` is a number, since LOAD itself rejects a pin that is
out of range (spec/40_fragment_codec.md R140). -/
inductive TransitionMode where
  | syncIdx
  | sysTime (t : U64)
  | gpio (pin : Nat)
  | ext
  | immediate
  | later
deriving DecidableEq, Repr

/-- A repeat count (spec/10_state.md R24). -/
inductive LoopBehavior where
  | infinite
  | finite (n : Nat)
deriving DecidableEq, Repr

/-- The fields MOD and FOCI operations share (spec/10_state.md R24). `data` is a sequence of units, each a byte string:
one byte for a modulation sample, `FOCI_REC_BYTES` bytes for a focus record. -/
structure StreamOp where
  seg     : Segment
  mode    : TransitionMode
  freqDiv : U16
  rep     : LoopBehavior
  data    : List (List Byte)
deriving DecidableEq, Repr

/-- An operation as LOAD takes it (spec/40_fragment_codec.md R140, spec/30_encoding.md R118). -/
inductive Operation where
  | null
  | mod (o : StreamOp)
  | foci (o : StreamOp) (soundSpeed : U32)
  | atomic (tag : Byte) (body : List Byte)
deriving DecidableEq, Repr

/-- The flags byte of a fragment less its `BEGIN` bit, which the fragment's form carries (spec/30_encoding.md R98, R99).
`resv` is bits 7..4. -/
structure FragFlags where
  last  : Bool
  trans : Bool
  seg   : Segment
  resv  : BitVec 4
deriving DecidableEq, Repr

/-- The header of a MOD_FIRST fragment after its tag (spec/30_encoding.md R100). -/
structure ModFirst where
  flags    : FragFlags
  size     : Byte
  modeCode : Byte
  freqDiv  : U16
  rep      : U16
  value    : U64
deriving DecidableEq, Repr

/-- The header of a FOCI_FIRST fragment after its tag (spec/30_encoding.md R104); `resv` is bytes 6..7. -/
structure FociFirst where
  flags      : FragFlags
  size       : Byte
  modeCode   : Byte
  freqDiv    : U16
  resv       : U16
  soundSpeed : U32
  rep        : U32
  value      : U64
deriving DecidableEq, Repr

/-- The header of a CONT fragment after its tag (spec/30_encoding.md R106). -/
structure Cont where
  flags : FragFlags
  size  : U16
deriving DecidableEq, Repr

/-- A slot of a frame as the wire carries it (spec/30_encoding.md R96 to R110). `tail` and `rest` are all the bytes of
the slot after the header (or the tag): payload, pad byte and whatever follows in the slot. -/
inductive Slot where
  | empty (rest : List Byte)
  | modFirst (h : ModFirst) (tail : List Byte)
  | modCont (h : Cont) (tail : List Byte)
  | fociFirst (h : FociFirst) (tail : List Byte)
  | fociCont (h : Cont) (tail : List Byte)
  | atomic (tag : Byte) (body : List Byte)
deriving DecidableEq, Repr

/-- A frame (spec/30_encoding.md R90): message id, reserved byte, slot-two offset, payload. -/
structure Frame where
  msgId   : Byte
  resv    : Byte
  offset  : U16
  payload : List Byte
deriving DecidableEq, Repr

/-- An acknowledgement record (spec/30_encoding.md R112), also `DEV_ACK[d]` (spec/10_state.md R29). -/
structure AckRec where
  id  : Byte
  err : Byte
deriving DecidableEq, Repr

/-- One device's draw in a RECEIVE (spec/20_memory.md R67, spec/30_encoding.md R118). The two bytes of `none` are the
"any value" that `RXBUF[d]` is left with. -/
inductive RxDraw where
  | ok
  | none (b0 b1 : Byte)
deriving DecidableEq, Repr

/-- One device's share of a SEND_DATAGRAM: `en[d]` and `ops[d] = (pri, sec)` (spec/44_host_session.md R262). -/
structure DeviceCall where
  enabled : Bool
  pri     : Operation
  sec     : Operation
deriving DecidableEq, Repr

/-- The block's instructions: every row of spec/opcode_table.json. The wire formats (`empty` to `ack`) carry the device
`d` whose decoder (or, for `ack`, whose record) they are. `send` and `receive` carry the link's draws
(spec/20_memory.md R65, R67): `io` says that the link's I/O fails. The pack commands carry the frame payload `buf` they
write into, as spec/40_fragment_codec.md R150 passes it. -/
inductive Instr where
  | empty (d : Nat) (rest : List Byte)
  | modFirst (d : Nat) (h : ModFirst) (tail : List Byte)
  | modCont (d : Nat) (h : Cont) (tail : List Byte)
  | fociFirst (d : Nat) (h : FociFirst) (tail : List Byte)
  | fociCont (d : Nat) (h : Cont) (tail : List Byte)
  | atomic11 (d : Nat) (body : List Byte)
  | atomic30 (d : Nat) (body : List Byte)
  | atomic31 (d : Nat) (body : List Byte)
  | atomic42 (d : Nat) (body : List Byte)
  | atomic60 (d : Nat) (body : List Byte)
  | frame (d : Nat) (f : Frame)
  | ack (d : Nat) (a : AckRec)
  | reset
  | load (d : Nat) (k : SlotIx) (op : Operation)
  | enable (d : Nat) (b : Bool)
  | requiredSize (d : Nat) (k : SlotIx)
  | packMod (d : Nat) (k : SlotIx) (buf : List Byte) (base budget : Nat)
  | packFoci (d : Nat) (k : SlotIx) (buf : List Byte) (base budget : Nat)
  | packAtomic (d : Nat) (k : SlotIx) (buf : List Byte) (base budget : Nat)
  | issue
  | send (io : Bool)
  | deliver (d : Nat)
  | devRx (d : Nat) (bytes : List Byte)
  | receive (io : Bool) (draws : List RxDraw)
  | matchAcks
  | sendDatagram (calls : List DeviceCall) (timeout : Nat)
deriving DecidableEq, Repr

end Sys2Proof
end

