-- ==== Sys2Proof/Config.lean ====
section
/-! DEFINITION. What a deployment fixes: the OPEN parameters of spec/00_scope.md R6. They are plain data that `State`
carries and no step writes (log entry 1), so a statement about every state holds for every deployment. The number of
devices `D` is the length of `State.lanes`; the parameter `ATOMIC_CONSUME[d]` is `Device.consumer` (log entry 10). The
model has no free value without a place in the state, so no constant here is opaque. -/

namespace Sys2Proof

/-- What a send with `timeout == 0` does after its first batch (spec/44_host_session.md R269). -/
inductive TzPolicy where
  | oneSend
  | allFragments
deriving DecidableEq, Repr

/-- The OPEN parameters of spec/00_scope.md R6. `TRANSITION_OK(mode, seg)` is false exactly of the listed pairs
`notOk` (log entry 16). -/
structure Params where
  n            : Nat
  modMin       : Nat
  modMax       : Nat
  fociMin      : Nat
  fociMax      : Nat
  fociRecBytes : Nat
  atomicTags   : List Byte
  notOk        : List (TransitionMode × Segment)
  tzPolicy     : TzPolicy
deriving DecidableEq, Repr

/-- The deployment of `State.reset` (log entry 2, DESIGN CHOICE): the default tags and timeout policy of R6, every
transition allowed, and the conventions of spec/95_test_vectors.md for the rest, with `N = 64`. -/
def Params.default : Params where
  n := 64
  modMin := 1
  modMax := 65536
  fociMin := 1
  fociMax := 65536
  fociRecBytes := 8
  atomicTags := [0x11, 0x30, 0x31, 0x42, 0x60]
  notOk := []
  tzPolicy := .oneSend

end Sys2Proof
end

