-- ==== Sys2Proof/WellFormed.lean ====
section
/-! DEFINITION. When an instruction is well formed: its operands lie in the domains the spec gives them
(spec/60_exceptions.md R293, spec/40_fragment_codec.md R140), and a wire format is one the encoder may write
(spec/30_encoding.md R98, R101, R102, R107, R113). A wire format that is not one of these is still executed, with the
device error its rule gives (spec/30_encoding.md R114); a command outside its operands' domains is refused by its meaning. -/

namespace Sys2Proof

/-- `Finite(n)` is in the domain of spec/10_state.md R24 for a kind. -/
def LoopBehavior.inDomain (k : Kind) : LoopBehavior → Bool
  | .infinite => true
  | .finite n => decide (1 ≤ n) && decide (n ≤ match k with | .mod => 0xFFFF | .foci => 0xFFFFFFFF)

/-- The operation's fields lie in their domains (R293): its repeat count, and one byte a unit for MOD. The width of a
focus record is not judged here: LOAD itself rejects it with an error (R140). -/
def Operation.inDomain : Operation → Bool
  | .null => true
  | .mod o => o.rep.inDomain .mod && o.data.all (fun u => u.length == 1)
  | .foci o _ => o.rep.inDomain .foci
  | .atomic _ _ => true

/-- `TRANSITION` is set only with `END`, and the reserved bits are 0 (spec/30_encoding.md R98). -/
def FragFlags.legal (f : FragFlags) : Bool := (f.resv == 0) && (!f.trans || f.last)

/-- The transition fields are those of some mode (spec/30_encoding.md R102). -/
def modeLegal (code : Byte) (value : U64) : Bool :=
  (code == 0x00 && value == 0) || code == 0x01 || (code == 0x02 && decide (value.toNat < 4))
    || (code == 0xF0 && value == 0) || (code == 0xFF && value == 0)

/-- The slot is one the encoder may write: legal flags, a unit count within its cap (R101), legal transition fields, a
payload of the length the count gives with a zero pad byte (R107) and zeros after it (R94), zero reserved bytes (R113),
a known tag (R96). -/
def Slot.legal (p : Params) : Slot → Bool
  | .empty rest => rest.all (· == 0)
  | .modFirst h t => h.flags.legal && decide (1 ≤ h.size.toNat) && decide (h.size.toNat ≤ 254) && modeLegal h.modeCode h.value
      && decide (roundUpEven h.size.toNat ≤ t.length) && (t.drop h.size.toNat).all (· == 0)
  | .modCont h t => h.flags.legal && decide (1 ≤ h.size.toNat) && decide (h.size.toNat ≤ 0xFFFE)
      && decide (roundUpEven h.size.toNat ≤ t.length) && (t.drop h.size.toNat).all (· == 0)
  | .fociFirst h t => h.flags.legal && decide (1 ≤ h.size.toNat) && modeLegal h.modeCode h.value && (h.resv == 0)
      && decide (h.size.toNat * p.fociRecBytes ≤ t.length) && (t.drop (h.size.toNat * p.fociRecBytes)).all (· == 0)
  | .fociCont h t => h.flags.legal && decide (1 ≤ h.size.toNat)
      && decide (h.size.toNat * p.fociRecBytes ≤ t.length) && (t.drop (h.size.toNat * p.fociRecBytes)).all (· == 0)
  | .atomic tag _ => p.atomicTags.contains tag

/-- The pack commands' buffer is a frame payload and their window lies in it (spec/40_fragment_codec.md R150). -/
def packWindowOk (p : Params) (buf : List Byte) (base budget : Nat) : Bool :=
  (buf.length == p.n) && decide (base + budget ≤ p.n)

/-- Well-formedness under parameters `p` with `D` devices. -/
def Instr.wf (p : Params) (D : Nat) (i : Instr) : Bool :=
  match i with
  | .empty d r => decide (d < D) && (Slot.empty r).legal p
  | .modFirst d h t => decide (d < D) && (Slot.modFirst h t).legal p
  | .modCont d h t => decide (d < D) && (Slot.modCont h t).legal p
  | .fociFirst d h t => decide (d < D) && (Slot.fociFirst h t).legal p
  | .fociCont d h t => decide (d < D) && (Slot.fociCont h t).legal p
  | .atomic11 d b => decide (d < D) && (Slot.atomic 0x11 b).legal p
  | .atomic30 d b => decide (d < D) && (Slot.atomic 0x30 b).legal p
  | .atomic31 d b => decide (d < D) && (Slot.atomic 0x31 b).legal p
  | .atomic42 d b => decide (d < D) && (Slot.atomic 0x42 b).legal p
  | .atomic60 d b => decide (d < D) && (Slot.atomic 0x60 b).legal p
  | .frame d f => decide (d < D) && (f.payload.length == p.n) && (f.resv == 0) && decide (f.offset.toNat < p.n)
  | .ack d _ => decide (d < D)
  | .reset => true
  | .load d _ op => decide (d < D) && op.inDomain
  | .enable d _ => decide (d < D)
  | .requiredSize d _ => decide (d < D)
  | .packMod d _ buf base budget => decide (d < D) && packWindowOk p buf base budget
  | .packFoci d _ buf base budget => decide (d < D) && packWindowOk p buf base budget
  | .packAtomic d _ buf base budget => decide (d < D) && packWindowOk p buf base budget
  | .issue => true
  | .send _ => true
  | .deliver d => decide (d < D)
  | .devRx d bytes => decide (d < D) && (bytes.length == 4 + p.n)
  | .receive _ draws => draws.length == D
  | .matchAcks => true
  | .sendDatagram calls _ => (calls.length == D) && calls.all (fun c => c.pri.inDomain && c.sec.inDomain)

end Sys2Proof
end

