-- ==== Sys2Proof/Decode.lean ====
section
/-! DEFINITION. Reading and writing the wire formats: little-endian fields (spec/00_scope.md R9, spec/20_memory.md R61), the
slot decoder and its encoder (spec/30_encoding.md R96 to R110), frames (R90) and acknowledgement records (R112). Both
directions are written from the same tables of spec/30_encoding.md. Decoding is total: a slot that is no format is rejected
by name. The commands have no wire encoding (R117; log entry 15). -/

namespace Sys2Proof

/-- `TAG_NONE` (spec/00_scope.md R6). -/
def tagNone : Byte := 0x00
/-- `TAG_MOD` (spec/00_scope.md R6). -/
def tagMod : Byte := 0x10
/-- `TAG_FOCI` (spec/00_scope.md R6). -/
def tagFoci : Byte := 0x40

/-- The tag of a streaming kind. -/
def Kind.tag : Kind → Byte
  | .mod => tagMod
  | .foci => tagFoci

/-! ## Little-endian fields -/

/-- The `n` bytes `MemWrite` writes for the value `v` (spec/00_scope.md R9). -/
def leBytes : Nat → Nat → List Byte
  | 0, _ => []
  | n + 1, v => BitVec.ofNat 8 v :: leBytes n (v / 256)

/-- The unsigned little-endian value of a byte string (spec/00_scope.md R9). -/
def leNat : List Byte → Nat
  | [] => 0
  | b :: bs => b.toNat + 256 * leNat bs

/-- `MemRead(B@a, n)` (spec/00_scope.md R9), used only with `a + n ≤ len(B)`. -/
def memRead (B : List Byte) (a n : Nat) : Nat := leNat ((B.drop a).take n)

/-- `Copy(B@a, S)` (spec/00_scope.md R9), used only with `a + len(S) ≤ len(B)`. -/
def copyAt (B : List Byte) (a : Nat) (S : List Byte) : List Byte := B.take a ++ S ++ B.drop (a + S.length)

/-! ## The flags byte -/

/-- The flags byte of spec/30_encoding.md R98: `BEGIN` bit 0, `END` bit 1, `TRANSITION` bit 2, `SEGMENT` bit 3 (set for
S1), reserved bits 7..4. -/
def FragFlags.toByte (begin : Bool) (f : FragFlags) : Byte :=
  f.resv ++ (BitVec.ofBool (f.seg == .s1) ++ BitVec.ofBool f.trans ++ BitVec.ofBool f.last ++ BitVec.ofBool begin)

/-- The `BEGIN` bit of a flags byte. -/
def beginOf (b : Byte) : Bool := b.getLsbD 0

/-- The other fields of a flags byte. -/
def flagsOf (b : Byte) : FragFlags where
  last := b.getLsbD 1
  trans := b.getLsbD 2
  seg := if b.getLsbD 3 then .s1 else .s0
  resv := b.extractLsb' 4 4

/-! ## Slots -/

/-- Header bytes of a kind's first fragment, `HF` of spec/00_scope.md R7. -/
def Kind.firstHeader : Kind → Nat
  | .mod => 16
  | .foci => 24

/-- Header bytes of a continuation, `HC` of spec/00_scope.md R7. -/
def contHeader : Nat := 4

/-- `H`: the header size a fragment's form gives (spec/30_encoding.md R99). -/
def Kind.header (k : Kind) (first : Bool) : Nat := if first then k.firstHeader else contHeader

/-- Why a byte string is no slot format, by name. A short header keeps what the flags byte said, since the device's
error and the stream it aborts depend on it (spec/42_frame_deserializer.md R215). -/
inductive SlotReject where
  /-- no byte at all -/
  | noTag
  /-- a tag in no class (spec/42_frame_deserializer.md R206) -/
  | unknownTag (t : Byte)
  /-- a streaming tag and no flags byte -/
  | noFlags (k : Kind)
  /-- shorter than the header its flags byte asks for (spec/42_frame_deserializer.md R212) -/
  | shortHeader (k : Kind) (first : Bool) (f : FragFlags)
deriving DecidableEq, Repr

/-- The header fields and tail of a MOD_FIRST slot of at least 16 bytes, offsets of spec/30_encoding.md R100. -/
def readModFirst (B : List Byte) (f : FragFlags) : Slot :=
  .modFirst
    { flags := f
      size := BitVec.ofNat 8 (memRead B 2 1)
      modeCode := BitVec.ofNat 8 (memRead B 3 1)
      freqDiv := BitVec.ofNat 16 (memRead B 4 2)
      rep := BitVec.ofNat 16 (memRead B 6 2)
      value := BitVec.ofNat 64 (memRead B 8 8) }
    (B.drop 16)

/-- The header fields and tail of a FOCI_FIRST slot of at least 24 bytes, offsets of spec/30_encoding.md R104. -/
def readFociFirst (B : List Byte) (f : FragFlags) : Slot :=
  .fociFirst
    { flags := f
      size := BitVec.ofNat 8 (memRead B 2 1)
      modeCode := BitVec.ofNat 8 (memRead B 3 1)
      freqDiv := BitVec.ofNat 16 (memRead B 4 2)
      resv := BitVec.ofNat 16 (memRead B 6 2)
      soundSpeed := BitVec.ofNat 32 (memRead B 8 4)
      rep := BitVec.ofNat 32 (memRead B 12 4)
      value := BitVec.ofNat 64 (memRead B 16 8) }
    (B.drop 24)

/-- The header of a CONT slot of at least 4 bytes, offsets of spec/30_encoding.md R106. -/
def readCont (B : List Byte) (f : FragFlags) : Cont where
  flags := f
  size := BitVec.ofNat 16 (memRead B 2 2)

/-- The slot that a fragment of kind `k` is, once its header is known to fit. -/
def readFragment (k : Kind) (first : Bool) (B : List Byte) (f : FragFlags) : Slot :=
  match k, first with
  | .mod, true => readModFirst B f
  | .mod, false => .modCont (readCont B f) (B.drop 4)
  | .foci, true => readFociFirst B f
  | .foci, false => .fociCont (readCont B f) (B.drop 4)

/-- Decode a streaming slot `B` of kind `k` (tag byte included): the form is chosen by `BEGIN` (spec/30_encoding.md R99). -/
def decodeFragment (k : Kind) (B : List Byte) : Except SlotReject Slot :=
  if B.length < 2 then .error (.noFlags k)
  else
    let fl : Byte := BitVec.ofNat 8 (memRead B 1 1)
    if B.length < k.header (beginOf fl) then .error (.shortHeader k (beginOf fl) (flagsOf fl))
    else .ok (readFragment k (beginOf fl) B (flagsOf fl))

/-- Decode a slot from all of its bytes, given `ATOMIC_TAGS` (spec/42_frame_deserializer.md R206). -/
def decodeSlot (tags : List Byte) (B : List Byte) : Except SlotReject Slot :=
  match B with
  | [] => .error .noTag
  | tag :: rest =>
    if tag = tagNone then .ok (.empty rest)
    else if tag ∈ tags then .ok (.atomic tag rest)
    else if tag = tagMod then decodeFragment .mod B
    else if tag = tagFoci then decodeFragment .foci B
    else .error (.unknownTag tag)

/-- The bytes of a slot, from the tables of spec/30_encoding.md R100, R104, R106, R109, R110. -/
def encodeSlot : Slot → List Byte
  | .empty rest => tagNone :: rest
  | .modFirst h tail =>
      [tagMod, h.flags.toByte true, h.size, h.modeCode] ++ leBytes 2 h.freqDiv.toNat ++ leBytes 2 h.rep.toNat
        ++ leBytes 8 h.value.toNat ++ tail
  | .modCont h tail => [tagMod, h.flags.toByte false] ++ leBytes 2 h.size.toNat ++ tail
  | .fociFirst h tail =>
      [tagFoci, h.flags.toByte true, h.size, h.modeCode] ++ leBytes 2 h.freqDiv.toNat ++ leBytes 2 h.resv.toNat
        ++ leBytes 4 h.soundSpeed.toNat ++ leBytes 4 h.rep.toNat ++ leBytes 8 h.value.toNat ++ tail
  | .fociCont h tail => [tagFoci, h.flags.toByte false] ++ leBytes 2 h.size.toNat ++ tail
  | .atomic tag body => tag :: body

/-! ## Frames and acknowledgement records -/

/-- Decode a frame of at least its 4 header bytes, offsets of spec/30_encoding.md R90; none when it is shorter. -/
def decodeFrame (B : List Byte) : Option Frame :=
  if B.length < 4 then none
  else some
    { msgId := BitVec.ofNat 8 (memRead B 0 1)
      resv := BitVec.ofNat 8 (memRead B 1 1)
      offset := BitVec.ofNat 16 (memRead B 2 2)
      payload := B.drop 4 }

/-- The bytes of a frame (spec/30_encoding.md R90). -/
def encodeFrame (f : Frame) : List Byte := [f.msgId, f.resv] ++ leBytes 2 f.offset.toNat ++ f.payload

/-- `ACKBYTES(a)`: byte 0 is the id, byte 1 the error (spec/30_encoding.md R112). -/
def ackBytes (a : AckRec) : Byte × Byte := (a.id, a.err)

/-- The record two bytes hold (spec/43_ack_matcher.md R240). -/
def ackOfBytes (b : Byte × Byte) : AckRec where
  id := b.1
  err := b.2

/-- Decode an acknowledgement record: exactly `RX_LEN = 2` bytes (spec/30_encoding.md R112). -/
def decodeAck : List Byte → Option AckRec
  | [b0, b1] => some (ackOfBytes (b0, b1))
  | _ => none

/-! ## Instructions -/

/-- The instruction that a slot of device `d` is; none for an ATOMIC tag that has no row in spec/opcode_table.json (an
extension of `ATOMIC_TAGS`, spec/30_encoding.md R115; log entry 23). -/
def Slot.toInstr (d : Nat) : Slot → Option Instr
  | .empty r => some (.empty d r)
  | .modFirst h t => some (.modFirst d h t)
  | .modCont h t => some (.modCont d h t)
  | .fociFirst h t => some (.fociFirst d h t)
  | .fociCont h t => some (.fociCont d h t)
  | .atomic tag b =>
      if tag = 0x11 then some (.atomic11 d b)
      else if tag = 0x30 then some (.atomic30 d b)
      else if tag = 0x31 then some (.atomic31 d b)
      else if tag = 0x42 then some (.atomic42 d b)
      else if tag = 0x60 then some (.atomic60 d b)
      else none

/-- Decode a slot of device `d` to its instruction. -/
def decodeInstr (tags : List Byte) (d : Nat) (B : List Byte) : Option Instr :=
  match decodeSlot tags B with
  | .ok s => s.toInstr d
  | .error _ => none

/-- The bytes of an instruction that has a wire format; none for a command (spec/30_encoding.md R117). -/
def encode : Instr → Option (List Byte)
  | .empty _ r => some (encodeSlot (.empty r))
  | .modFirst _ h t => some (encodeSlot (.modFirst h t))
  | .modCont _ h t => some (encodeSlot (.modCont h t))
  | .fociFirst _ h t => some (encodeSlot (.fociFirst h t))
  | .fociCont _ h t => some (encodeSlot (.fociCont h t))
  | .atomic11 _ b => some (encodeSlot (.atomic 0x11 b))
  | .atomic30 _ b => some (encodeSlot (.atomic 0x30 b))
  | .atomic31 _ b => some (encodeSlot (.atomic 0x31 b))
  | .atomic42 _ b => some (encodeSlot (.atomic 0x42 b))
  | .atomic60 _ b => some (encodeSlot (.atomic 0x60 b))
  | .frame _ f => some (encodeFrame f)
  | .ack _ a => some [(ackBytes a).1, (ackBytes a).2]
  | .reset => none
  | .load _ _ _ => none
  | .enable _ _ => none
  | .requiredSize _ _ => none
  | .packMod _ _ _ _ _ => none
  | .packFoci _ _ _ _ _ => none
  | .packAtomic _ _ _ _ _ => none
  | .issue => none
  | .send _ => none
  | .deliver _ => none
  | .devRx _ _ => none
  | .receive _ _ => none
  | .matchAcks => none
  | .sendDatagram _ _ => none

/-- The slot bytes of a row of spec/opcode_table.json: `nbits` bits of `w`, the first byte the least significant, then
zeros up to 64 bytes (the payload of `Params.default`, longer than every header). -/
def tableSlotBytes (nbits w : Nat) : List Byte :=
  let bs := leBytes (min 64 ((nbits + 7) / 8)) (w % 2 ^ nbits)
  bs ++ List.replicate (64 - bs.length) 0

/-- The instruction the decoder reads from a row's word, as a slot of device 0 under the default `ATOMIC_TAGS`. -/
def decodeTableWord (nbits w : Nat) : Option Instr :=
  decodeInstr Params.default.atomicTags 0 (tableSlotBytes nbits w)

end Sys2Proof
end

