-- ==== Sys2Proof/Machine/State.lean ====
section
/-! DEFINITION. The state of the block as plain data (spec/10_state.md), the values after reset
(spec/70_reset_and_hazards.md R311), and the reasons a step can stop (spec/60_exceptions.md R292, R293). -/

namespace Sys2Proof.Machine

open Sys2Proof

/-- A segment buffer's cells: (byte address, byte), addresses strictly rising. A byte no cell lists has no value
(log entry 5). -/
abbrev Memory := List Host.Cell

/-- The canonical form of a memory. -/
abbrev Memory.wf (m : Memory) : Prop := m.Pairwise (fun x y => x.1 < y.1)

/-- Why `InvalidOperation` was raised (spec/60_exceptions.md R280). -/
inductive OpReason where
  | packedAfterDone
  | recordWidth
  | tag
deriving DecidableEq, Repr

/-- The closed host error type (spec/60_exceptions.md R280). -/
inductive HostError where
  | sizeOutOfRange (size : Nat)
  | insufficientBuffer (need budget : Nat)
  | invalidOperation (reason : OpReason)
  | invalidTransition (mode : TransitionMode)
  | linkNotOpen
  | linkIo
  | confirmResponseFailed
  | firmware (code : Byte) (device : Nat)
deriving DecidableEq, Repr

/-- An operation slot `OPS[d][k]` (spec/10_state.md R24, R25). `L` is the length of `data`; a NULL slot is done by
its form (log entry 7). -/
inductive OpSlot where
  | null
  | mod (o : StreamOp) (sent : Nat) (done : Bool)
  | foci (o : StreamOp) (soundSpeed : U32) (sent : Nat) (done : Bool)
  | atomic (tag : Byte) (body : List Byte) (done : Bool)
deriving DecidableEq, Repr

/-- The latched header fields of a reassembly stream (spec/10_state.md R30). For MOD `repWire` is the 16-bit wire value
and `soundSpeed` is 0 (log entry 17). -/
structure Latch where
  freqDiv    : U16
  repWire    : U32
  modeCode   : Byte
  value      : U64
  soundSpeed : U32
deriving DecidableEq, Repr

/-- The reassembly state of one stream (spec/10_state.md R30). -/
structure Reasm where
  active : Bool
  count  : Nat
  latch  : Latch
deriving DecidableEq, Repr

/-- One value for each stream `(K, s)` of a device. -/
structure Streams (α : Type) where
  modS0  : α
  modS1  : α
  fociS0 : α
  fociS1 : α
deriving DecidableEq, Repr

/-- An event a device emits (spec/42_frame_deserializer.md R225, R226). `soundSpeed` is present for FOCI only. -/
inductive Event where
  | set (k : Kind) (seg : Segment) (freqDiv : U16) (cycleLen : Nat) (rep : LoopBehavior) (mode : TransitionMode)
      (soundSpeed : Option U32)
  | atomic (tag : Byte) (bytes : List Byte)
deriving DecidableEq, Repr

/-- What an ATOMIC consumer answers: accepted (0x00), or the code `0x10 + c`, so never one of the block's own codes
0x01 to 0x0F (spec/42_frame_deserializer.md R225). -/
inductive ConsumerAnswer where
  | accepted
  | code (c : Fin 240)
deriving DecidableEq, Repr

/-- One line of a consumer's table: it applies to a slot when each of the state, the tag and the bytes it names is the given
one (a field that is none names any), answers `answer`, and leads to the state `next` (none: the state stays). -/
structure ConsumerRule where
  state  : Option Nat
  tag    : Option Byte
  body   : Option (List Byte)
  answer : ConsumerAnswer
  next   : Option Nat
deriving DecidableEq, Repr

/-- The parameter `ATOMIC_CONSUME[d]` (spec/00_scope.md R6, spec/42_frame_deserializer.md R225): a function of the tag, the bytes
and the consumer's own state, as a table whose first applying line answers, with `dflt` where none applies (log entry 10). -/
structure Consumer where
  rules : List ConsumerRule
  dflt  : ConsumerAnswer
  state : Nat
deriving DecidableEq, Repr

/-- The device side of device `d`: `DEV_ACK`, `REASM`, `SEGBUF` (spec/10_state.md R29 to R31), the consumer with its state
and the events emitted so far, oldest first (log entry 13). -/
structure Device where
  ack      : AckRec
  reasm    : Streams Reasm
  segbuf   : Streams Memory
  consumer : Consumer
  events   : List Event
deriving DecidableEq, Repr

/-- Everything indexed by one device: `ENABLED`, `OPS`, `TXBUF`, `WIRE`, `RXVALID`, `RXBUF` (spec/10_state.md R23 to R27,
R37) and the device itself. -/
structure Lane where
  enabled : Bool
  pri     : OpSlot
  sec     : OpSlot
  txbuf   : List Byte
  wire    : List Byte
  rxValid : Bool
  rxBuf   : Byte × Byte
  rx      : Device
deriving DecidableEq, Repr

/-- `SESSION` (spec/44_host_session.md R260). -/
inductive Session where
  | idle
  | sending
  | awaitingAck
  | done
  | failed
deriving DecidableEq, Repr

/-- A command a send call gives before its first batch (spec/44_host_session.md R262). -/
inductive SetupCmd where
  | enable (d : Nat) (b : Bool)
  | load (d : Nat) (k : SlotIx) (op : Operation)
deriving DecidableEq, Repr

/-- Where the send loop of spec/44_host_session.md R262 stands: before which of its commands (log entry 11). `setup` holds the
ENABLE and LOAD commands still to be given, the next one first. -/
inductive HostPc where
  | idle
  | setup (todo : List SetupCmd)
  | issue
  | send
  | receive
  | matching
deriving DecidableEq, Repr

/-- `result` of spec/44_host_session.md R260. -/
inductive CallResult where
  | ok
  | error (e : HostError)
deriving DecidableEq, Repr

/-- The matcher's verdict (spec/43_ack_matcher.md R246). -/
inductive Verdict where
  | allAcked
  | pending
  | fwError (code : Byte) (device : Nat)
deriving DecidableEq, Repr

/-- What the last command returned or raised (spec/00_scope.md R10; log entry 12). -/
inductive Ret where
  | none
  | ok
  | error (e : HostError)
  | size (n : Nat)
  | packed (buf : List Byte) (n : Nat)
  | slotErr (e : Byte)
  | parsed (r : Option AckRec)
  | verdict (v : Verdict)
deriving DecidableEq, Repr

/-- The draws of one host-loop step (spec/93_implementation_defined.md U21, U22, U24): whether the link's I/O fails,
each device's RECEIVE draw, whether a timeout event is taken on PENDING. Each is read only by the commands it names. -/
structure HostDraw where
  io      : Bool
  rx      : List RxDraw
  timeout : Bool
deriving DecidableEq, Repr

/-- What one step plays (log entry 8): a command; the host's read of device `d`'s acknowledgement record
(spec/43_ack_matcher.md R240); the send loop's next command with its draws (spec/44_host_session.md R271); the link
collaborator's open and close (spec/10_state.md R32); a reset of the host or of one device alone
(spec/70_reset_and_hazards.md R310, R323). -/
inductive Turn where
  | cmd (i : Instr)
  | parse (d : Nat)
  | host (w : HostDraw)
  | linkOpen
  | linkClose
  | resetHost
  | resetDev (d : Nat)
deriving DecidableEq, Repr

/-- The whole state. `lanes[d]` is device `d`'s; `ret`, `hostPc` and `queue` are the model's own. -/
structure State where
  params     : Params
  msgId      : Byte
  lanes      : List Lane
  linkOpen   : Bool
  session    : Session
  tz         : Bool
  callResult : CallResult
  hostPc     : HostPc
  ret        : Ret
  queue      : List Turn
deriving DecidableEq, Repr

/-- Why the machine faults (spec/60_exceptions.md R292; log entries 18 and 19). Both are unreachable from the block's own commands
and safe: the spec gives such windows, buffers and frames no meaning. -/
inductive Fault where
  /-- A buffer too short to be a frame or a frame's payload, where R292.1, a read or copy outside its buffer, could arise. Raised
  by FRAME and DEV_RX on a frame shorter than `4 + N` bytes and by the pack commands on a payload buffer shorter than `N`, at once
  and whether or not an access would fall outside (DESIGN CHOICE, log entries 18 and 19); by DELIVER on a wire frame shorter than 4
  bytes, which no command makes (log entry 26). Safe. -/
  | memOutside
  /-- R292.3: a pack command called with `base + budget > N`. Safe. -/
  | packBudget
deriving DecidableEq, Repr

/-- Why an instruction has no meaning (spec/60_exceptions.md R293, spec/70_reset_and_hazards.md R320, R321). -/
inductive Refusal where
  /-- An instruction that has no meaning in this model; raised by an arm of `exec` only. Safe. -/
  | notModelled (mnemonic : String)
  /-- A device index that is not below `D`: raised by every command and turn that names a device. Safe. -/
  | noSuchDevice (d : Nat)
  /-- R293: an operand outside its domain: raised by LOAD and SEND_DATAGRAM (an operation's fields), by RECEIVE and
  SEND_DATAGRAM (one entry a device) and, by the model's choice, by FRAME, DEV_RX and the pack commands (a buffer longer than a
  frame or its payload; log entries 18 and 19). Safe. -/
  | operandDomain
  /-- R293: PACK_MOD, PACK_FOCI or PACK_ATOMIC on an undone slot of another kind. Safe. -/
  | kindMismatch
  /-- SEND_DATAGRAM while a call is running: by R320 while `SESSION` is `Sending` or `AwaitingAck`, and by the model's choice
  while the call's ENABLEs and LOADs are given (log entry 11). Safe. -/
  | callInFlight
  /-- LOAD while `SESSION` is `Sending` or `AwaitingAck`: by R321 between two batches of a call, and elsewhere in it by the
  model's choice (log entry 29). Safe. -/
  | loadInCall
deriving DecidableEq, Repr

/-! ## Reset (spec/70_reset_and_hazards.md R310, R311) -/

/-- `zeros(n)` (spec/00_scope.md R11). -/
def zeros (n : Nat) : List Byte := List.replicate n 0

/-- A stream's latched fields at reset: the spec leaves them unspecified (log entry 4, DESIGN CHOICE). -/
def Latch.reset : Latch := ⟨0, 0, 0, 0, 0⟩

/-- A stream at reset: inactive, count 0 (R311). -/
def Reasm.reset : Reasm := ⟨false, 0, Latch.reset⟩

/-- The same value for every stream. -/
def Streams.all {α : Type} (x : α) : Streams α := ⟨x, x, x, x⟩

/-- A device at power-on; its consumer accepts everything (log entry 10, DESIGN CHOICE). -/
def Device.reset : Device where
  ack := ⟨0, 0⟩
  reasm := Streams.all Reasm.reset
  segbuf := Streams.all []
  consumer := ⟨[], .accepted, 0⟩
  events := []

/-- A lane at power-on for frames of `n` payload bytes; `rxBuf` is unspecified (log entry 3, DESIGN CHOICE). -/
def Lane.reset (n : Nat) : Lane where
  enabled := false
  pri := .null
  sec := .null
  txbuf := zeros (4 + n)
  wire := zeros (4 + n)
  rxValid := false
  rxBuf := (0, 0)
  rx := Device.reset

/-- The state right after reset of a deployment with parameters `p` and `D` devices (R311). `tz`, `callResult` and
`linkOpen` have no reset value in the spec (log entry 6, DESIGN CHOICE). -/
def State.resetWith (p : Params) (D : Nat) : State where
  params := p
  msgId := 0
  lanes := List.replicate D (Lane.reset p.n)
  linkOpen := false
  session := .idle
  tz := false
  callResult := .ok
  hostPc := .idle
  ret := .none
  queue := []

/-- The state right after reset of the deployment log entry 2 names: one device, `Params.default`. -/
def State.reset : State := State.resetWith Params.default 1

end Sys2Proof.Machine
end

