-- ==== Sys2Proof/Machine/Ops.lean ====
section
/-! DEFINITION. The named operations over memory and registers: segment-buffer cells, the stream tables, the lanes, and what
the spec has in place of exceptions: `raise E` (spec/00_scope.md R10, spec/60_exceptions.md R284), the failure of a send
call (spec/60_exceptions.md R297) and, on the device, the abort of a stream (spec/42_frame_deserializer.md R228). There is no
return from an error (spec/60_exceptions.md R298): a call ends and the next one starts. -/

namespace Sys2Proof.Machine

open Sys2Proof

/-! ## Segment-buffer cells -/

/-- The byte at an address; none where no byte has been written (log entry 5). -/
def Memory.read : Memory → Nat → Option Byte
  | [], _ => none
  | (x, c) :: m, a => if x = a then some c else Memory.read m a

/-- Write one byte, keeping the canonical form. -/
def Memory.write : Memory → Nat → Byte → Memory
  | [], a, b => [(a, b)]
  | (x, c) :: m, a, b =>
    if a < x then (a, b) :: (x, c) :: m
    else if a = x then (a, b) :: m
    else (x, c) :: Memory.write m a b

/-- Write a byte string from an address up. -/
def Memory.writeBytes : Memory → Nat → List Byte → Memory
  | m, _, [] => m
  | m, a, b :: bs => Memory.writeBytes (m.write a b) (a + 1) bs

/-! ## Stream tables -/

/-- The entry of stream `(k, s)`. -/
def Streams.get {α : Type} (t : Streams α) (k : Kind) (s : Segment) : α :=
  match k, s with
  | .mod, .s0 => t.modS0
  | .mod, .s1 => t.modS1
  | .foci, .s0 => t.fociS0
  | .foci, .s1 => t.fociS1

/-- The table with the entry of stream `(k, s)` replaced. -/
def Streams.set {α : Type} (t : Streams α) (k : Kind) (s : Segment) (x : α) : Streams α :=
  match k, s with
  | .mod, .s0 => { t with modS0 := x }
  | .mod, .s1 => { t with modS1 := x }
  | .foci, .s0 => { t with fociS0 := x }
  | .foci, .s1 => { t with fociS1 := x }

/-- Byte `a` of segment buffer `SEGBUF[d][k][s]`. -/
def Device.segByte (dev : Device) (k : Kind) (s : Segment) (a : Nat) : Option Byte := (dev.segbuf.get k s).read a

/-! ## Lanes -/

/-- Operation slot `k` of a lane. -/
def Lane.op (l : Lane) : SlotIx → OpSlot
  | .pri => l.pri
  | .sec => l.sec

/-- The lane with operation slot `k` replaced. -/
def Lane.setOp (l : Lane) (k : SlotIx) (o : OpSlot) : Lane :=
  match k with
  | .pri => { l with pri := o }
  | .sec => { l with sec := o }

/-- The state with device `d`'s lane replaced. -/
def State.setLane (s : State) (d : Nat) (l : Lane) : State := { s with lanes := s.lanes.set d l }

/-- Run `f` on device `d`'s lane; a device that does not exist is refused (spec/60_exceptions.md R293, log entry 19). -/
def State.onLane (s : State) (d : Nat) (f : Lane → Host.Outcome State Fault Refusal) :
    Host.Outcome State Fault Refusal :=
  match s.lanes[d]? with
  | some l => f l
  | none => .refused (.noSuchDevice d)

/-! ## Returning and raising -/

/-- `return v`: the command ends with the value `v` (spec/00_scope.md R10). -/
def State.returns (s : State) (v : Ret) : Host.Outcome State Fault Refusal := .next { s with ret := v }

/-- `raise E`: the command ends with the error `e`, and what it would have written is unchanged (spec/00_scope.md R10,
spec/60_exceptions.md R284). `s` is the state the command leaves: the state before it, but for ISSUE's `MSG_ID`. -/
def State.raise (s : State) (e : HostError) : Host.Outcome State Fault Refusal := .next { s with ret := .error e }

/-- `fail(e)` of the send loop: `SESSION` and `result` record the failure and the call ends (spec/44_host_session.md R262,
spec/60_exceptions.md R297). -/
def State.failCall (s : State) (e : HostError) : State :=
  { s with session := .failed, callResult := .error e, hostPc := .idle, ret := .error e }

/-- `done()` of the send loop (spec/44_host_session.md R262). -/
def State.endCall (s : State) : State :=
  { s with session := .done, callResult := .ok, hostPc := .idle, ret := .ok }

/-- A call is in flight: `SESSION` is `Sending` or `AwaitingAck` (spec/70_reset_and_hazards.md R320). LOAD is refused on the
same condition (log entry 29). -/
def State.inFlight (s : State) : Bool := s.session == .sending || s.session == .awaitingAck

/-- The send loop is at its ENABLEs and LOADs, where `SESSION` is not `Sending` yet (spec/44_host_session.md R262). -/
def HostPc.inSetup : HostPc → Bool
  | .setup _ => true
  | .idle => false
  | .issue => false
  | .send => false
  | .receive => false
  | .matching => false

/-- A call is running, from its acceptance to its end: no command of a second call may run between two of its commands
(spec/70_reset_and_hazards.md R320, whose condition on `SESSION` is `State.inFlight`; that a call is running during its ENABLEs
and LOADs too is the model's choice, log entry 11). -/
def State.callRunning (s : State) : Bool := s.inFlight || s.hostPc.inSetup

/-- `ABORT(st, e)`'s writes: the stream is made inactive with count 0 (spec/42_frame_deserializer.md R228). The latched
fields stay; none is read while the stream is inactive. -/
def Device.abort (dev : Device) (k : Kind) (s : Segment) : Device :=
  { dev with reasm := dev.reasm.set k s { dev.reasm.get k s with active := false, count := 0 } }

end Sys2Proof.Machine
end

