-- ==== Sys2Proof/Machine/Operands.lean ====
section
/-! DEFINITION. Operand forms: stream profiles (spec/00_scope.md R7), the encoding and decoding of transition modes and
repeat counts (spec/30_encoding.md R102, R103, spec/42_frame_deserializer.md R208, R227), the check of an operation at LOAD
(spec/40_fragment_codec.md R140), and the error codes of spec/60_exceptions.md R280 and R289. -/

namespace Sys2Proof.Machine

open Sys2Proof

/-! ## Stream profiles (R7) -/

/-- `UNIT`: bytes per payload unit. -/
def unitBytes (p : Params) : Kind → Nat
  | .mod => 1
  | .foci => p.fociRecBytes

/-- `PAD_EVEN`. -/
def padEven : Kind → Bool
  | .mod => true
  | .foci => false

/-- `CAP_FIRST` and `CAP_CONT`. -/
def unitCap (k : Kind) (first : Bool) : Nat :=
  match k, first with
  | .mod, true => 254
  | .mod, false => 0xFFFE
  | .foci, true => 255
  | .foci, false => 0xFFFF

/-- `MIN`. -/
def unitsMin (p : Params) : Kind → Nat
  | .mod => p.modMin
  | .foci => p.fociMin

/-- `MAX`. -/
def unitsMax (p : Params) : Kind → Nat
  | .mod => p.modMax
  | .foci => p.fociMax

/-- `PB(n)`: the payload bytes of a fragment of `n` units (spec/30_encoding.md R108). -/
def payloadBytes (p : Params) (k : Kind) (n : Nat) : Nat :=
  if padEven k then roundUpEven (n * unitBytes p k) else n * unitBytes p k

/-- `GPIO_PINS` (spec/00_scope.md R6). -/
def gpioPins : Nat := 4

/-! ## Transition modes -/

/-- `TMC(mode)` (spec/30_encoding.md R102). -/
def modeCode : TransitionMode → Byte
  | .syncIdx => 0x00
  | .sysTime _ => 0x01
  | .gpio _ => 0x02
  | .ext => 0xF0
  | .immediate => 0xFF
  | .later => 0x00

/-- `TV(mode)` (spec/30_encoding.md R102). -/
def modeValue : TransitionMode → U64
  | .syncIdx => 0
  | .sysTime t => t
  | .gpio pin => BitVec.ofNat 64 pin
  | .ext => 0
  | .immediate => 0
  | .later => 0

/-- `TM_VALID(c, v)` (spec/42_frame_deserializer.md R208). -/
def tmValid (c : Byte) (v : U64) : Bool :=
  c == 0x00 || c == 0x01 || (c == 0x02 && decide (v.toNat < gpioPins)) || c == 0xF0 || c == 0xFF

/-- `MODE_DEC(c, v)` (spec/42_frame_deserializer.md R227). It is applied only where `TM_VALID` holds, so the last case,
which the rule does not define, is never reached (log entry 26). -/
def modeDec (c : Byte) (v : U64) : TransitionMode :=
  if c = 0x00 then .syncIdx
  else if c = 0x01 then .sysTime v
  else if c = 0x02 then .gpio v.toNat
  else if c = 0xF0 then .ext
  else if c = 0xFF then .immediate
  else .later

/-! ## Repeat counts -/

/-- The wire value of `Infinite`: all ones, in 16 bits for MOD and 32 bits for FOCI (spec/30_encoding.md R103). -/
def repInfinite : Kind → Nat
  | .mod => 0xFFFF
  | .foci => 0xFFFFFFFF

/-- `REP16` and `REP32` (spec/30_encoding.md R103). -/
def repWire (k : Kind) : LoopBehavior → Nat
  | .infinite => repInfinite k
  | .finite n => n - 1

/-- `REP_DEC(K, w)` (spec/42_frame_deserializer.md R227). -/
def repDec (k : Kind) (w : Nat) : LoopBehavior := if w = repInfinite k then .infinite else .finite (w + 1)

/-! ## Operations -/

/-- `TRANSITION_OK(mode, seg)` (spec/00_scope.md R6, spec/40_fragment_codec.md R141; log entry 16). -/
def transitionOk (p : Params) (m : TransitionMode) (s : Segment) : Bool := !p.notOk.contains (m, s)

/-- LOAD's checks of a streaming operation's transition, in order (spec/40_fragment_codec.md R140, spec/60_exceptions.md
R296): the pin range, then `TRANSITION_OK`. -/
def transitionRejected (p : Params) (o : StreamOp) : Bool :=
  (match o.mode with
    | .gpio pin => decide (gpioPins ≤ pin)
    | _ => false) || !transitionOk p o.mode o.seg

/-- What LOAD puts in the slot, or the error it raises (spec/40_fragment_codec.md R140). -/
def loadedSlot (p : Params) : Operation → Except HostError OpSlot
  | .null => .ok .null
  | .mod o => if transitionRejected p o then .error (.invalidTransition o.mode) else .ok (.mod o 0 false)
  | .foci o ss =>
      if transitionRejected p o then .error (.invalidTransition o.mode)
      else if o.data.any (fun r => r.length != p.fociRecBytes) then .error (.invalidOperation .recordWidth)
      else .ok (.foci o ss 0 false)
  | .atomic tag body => if tag ∈ p.atomicTags then .ok (.atomic tag body false) else .error (.invalidOperation .tag)

/-- The operation's fields lie in their domains (spec/60_exceptions.md R293). -/
def operandOk (op : Operation) : Bool := op.inDomain

/-! ## Error codes -/

/-- The ordinal of a host error (spec/60_exceptions.md R280). -/
def HostError.ordinal : HostError → Nat
  | .sizeOutOfRange _ => 1
  | .insufficientBuffer _ _ => 2
  | .invalidOperation _ => 3
  | .invalidTransition _ => 4
  | .linkNotOpen => 5
  | .linkIo => 6
  | .confirmResponseFailed => 7
  | .firmware _ _ => 8

/-- `E_NONE` (spec/60_exceptions.md R289). -/
def eNone : Byte := 0x00
/-- `E_INVALID_TAG` (R289). -/
def eInvalidTag : Byte := 0x01
/-- `E_INVALID_SEQUENCE` (R289). -/
def eInvalidSequence : Byte := 0x02
/-- `E_INVALID_FLAGS` (R289). -/
def eInvalidFlags : Byte := 0x03
/-- `E_INVALID_SLOT` (R289). -/
def eInvalidSlot : Byte := 0x04
/-- `E_SIZE_OUT_OF_RANGE` (R289). -/
def eSizeOutOfRange : Byte := 0x05
/-- `E_INVALID_TRANSITION` (R289). -/
def eInvalidTransition : Byte := 0x06

/-- The status byte of a consumer's answer: 0x00, or a code outside 0x01 to 0x0F (spec/42_frame_deserializer.md R225). -/
def ConsumerAnswer.toByte : ConsumerAnswer → Byte
  | .accepted => 0x00
  | .code c => BitVec.ofNat 8 (16 + c.val)

end Sys2Proof.Machine
end

