-- ==== Sys2Proof/Machine/Flags.lean ====
section
/-! DEFINITION. Flags and flag-like state (spec/10_state.md R34): the fragment flags a pack writes (spec/40_fragment_codec.md
R155), the flag check of the deserializer (spec/42_frame_deserializer.md R207), the `done` latches and `ALL_DONE`
(spec/40_fragment_codec.md R144), and the matcher's `ACKED` and `FWERR` (spec/43_ack_matcher.md R240 to R243). -/

namespace Sys2Proof.Machine

open Sys2Proof

/-- The flags of a fragment but `BEGIN` (spec/40_fragment_codec.md R155): `END` on the final fragment, `TRANSITION` on it
when the mode is not `Later`, `SEGMENT` always, reserved bits 0. -/
def packFlags (final : Bool) (o : StreamOp) : FragFlags where
  last := final
  trans := final && o.mode != .later
  seg := o.seg
  resv := 0

/-- The flags are `E_INVALID_FLAGS`: a reserved bit, or `TRANSITION` without `END` (spec/42_frame_deserializer.md R207). -/
def flagsBad (f : FragFlags) : Bool := f.resv != 0 || (f.trans && !f.last)

/-- The `done` latch of a slot; a NULL slot is done (spec/10_state.md R25). -/
def OpSlot.done : OpSlot → Bool
  | .null => true
  | .mod _ _ dn => dn
  | .foci _ _ _ dn => dn
  | .atomic _ _ dn => dn

/-- `DONE(d)` (spec/40_fragment_codec.md R144). -/
def Lane.isDone (l : Lane) : Bool := !l.enabled || (l.pri.done && l.sec.done)

/-- `ALL_DONE` (spec/40_fragment_codec.md R144). -/
def State.allDone (s : State) : Bool := s.lanes.all Lane.isDone

/-- `ACK_PARSE(d)` (spec/43_ack_matcher.md R240): the record is not read while `RXVALID[d] = 0`. -/
def Lane.ackParse (l : Lane) : Option AckRec := if l.rxValid then some (ackOfBytes l.rxBuf) else none

/-- `ACKED[d]` (spec/43_ack_matcher.md R242). -/
def Lane.acked (id : Byte) (l : Lane) : Bool :=
  match l.ackParse with
  | some a => a.id == id
  | none => false

/-- `FWERR[d]` with its code (spec/43_ack_matcher.md R243). -/
def Lane.fwErr (id : Byte) (l : Lane) : Option Byte :=
  match l.ackParse with
  | some a => if l.enabled && a.id == id && a.err != 0x00 then some a.err else none
  | none => none

end Sys2Proof.Machine
end

