-- ==== Sys2Proof/Machine/Slots.lean ====
section
/-! DEFINITION. The slot formats' meanings on a device: EMPTY, MOD_FIRST, MOD_CONT, FOCI_FIRST, FOCI_CONT and the ATOMIC
tags (spec/42_frame_deserializer.md R205 to R228). Each `slot…` function is what the format does to the device and the error
byte it gives; `runSlot` chooses among them for the frame deserializer, and each `exec…` runs one on its own
(log entry 14). -/

namespace Sys2Proof.Machine

open Sys2Proof

/-! ## Fragments -/

/-- The bounds of R214 and R224: no more than `MAX` units, and at `END` no fewer than `MIN`. -/
def boundsError (p : Params) (k : Kind) (f : FragFlags) (total : Nat) : Option Byte :=
  if unitsMax p k < total then some eSizeOutOfRange
  else if f.last && decide (total < unitsMin p k) then some eSizeOutOfRange
  else none

/-- `DECODE_FRAGMENT`'s checks once the header is known to fit (spec/42_frame_deserializer.md R215), in the order of
spec/60_exceptions.md R296: flags, `size = 0`, payload length, then transition (first fragment) or sequence and transition
(continuation), then the bounds. `new` is the header of a first fragment and none for a continuation; `room` is the number of
slot bytes after the header. Answers the first error, or the header in force and the unit offset. -/
def checkFragment (p : Params) (k : Kind) (f : FragFlags) (n : Nat) (new : Option Latch) (room : Nat) (st : Reasm) :
    Except Byte (Latch × Nat) :=
  if flagsBad f then .error eInvalidFlags
  else if n = 0 then .error eInvalidSlot
  else if room < payloadBytes p k n then .error eInvalidSlot
  else if new.isNone && !st.active then .error eInvalidSequence
  else
    let hdr := new.getD st.latch
    let base := if new.isSome then 0 else st.count
    if f.trans && !tmValid hdr.modeCode hdr.value then .error eInvalidTransition
    else match boundsError p k f (base + n) with
      | some e => .error e
      | none => .ok (hdr, base)

/-- The `SET` event of a completed payload (spec/42_frame_deserializer.md R226, R227). -/
def setEvent (k : Kind) (f : FragFlags) (hdr : Latch) (count : Nat) : Event :=
  .set k f.seg hdr.freqDiv count (repDec k hdr.repWire.toNat)
    (if f.trans then modeDec hdr.modeCode hdr.value else .later)
    (match k with
      | .mod => none
      | .foci => some hdr.soundSpeed)

/-- An accepted fragment's writes (spec/42_frame_deserializer.md R215): its units go to the segment buffer at unit offset
`base` (R222), the stream holds `hdr` and the new count, and at `END` the `SET` event is emitted and the stream made
inactive (R226). -/
def acceptFragment (p : Params) (k : Kind) (f : FragFlags) (n : Nat) (hdr : Latch) (base : Nat) (tail : List Byte)
    (dev : Device) : Device :=
  { dev with
    segbuf := dev.segbuf.set k f.seg
      ((dev.segbuf.get k f.seg).writeBytes (base * unitBytes p k) (tail.take (n * unitBytes p k)))
    reasm := dev.reasm.set k f.seg ⟨!f.last, base + n, hdr⟩
    events := dev.events ++ (if f.last then [setEvent k f hdr (base + n)] else []) }

/-- `DECODE_FRAGMENT` on a fragment whose header fits (spec/42_frame_deserializer.md R215): accepted, or aborted with its
error (R228). -/
def runFragment (p : Params) (k : Kind) (f : FragFlags) (n : Nat) (new : Option Latch) (tail : List Byte) (dev : Device) :
    Device × Byte :=
  match checkFragment p k f n new tail.length (dev.reasm.get k f.seg) with
  | .error e => (dev.abort k f.seg, e)
  | .ok (hdr, base) => (acceptFragment p k f n hdr base tail dev, eNone)

/-! ## One function per slot format -/

/-- EMPTY: decodes to nothing; the bytes after the tag are not read (R205). -/
def slotEmpty (_rest : List Byte) (dev : Device) : Device × Byte := (dev, eNone)

/-- MOD_FIRST: a modulation payload starts (R209, R211, R216). -/
def slotModFirst (p : Params) (h : ModFirst) (tail : List Byte) (dev : Device) : Device × Byte :=
  runFragment p .mod h.flags h.size.toNat (some ⟨h.freqDiv, h.rep.zeroExtend 32, h.modeCode, h.value, 0⟩) tail dev

/-- MOD_CONT: a modulation payload goes on (R210, R217). -/
def slotModCont (p : Params) (h : Cont) (tail : List Byte) (dev : Device) : Device × Byte :=
  runFragment p .mod h.flags h.size.toNat none tail dev

/-- FOCI_FIRST: a focus-STM payload starts (R209, R211, R216); header bytes 6..7 are not read. -/
def slotFociFirst (p : Params) (h : FociFirst) (tail : List Byte) (dev : Device) : Device × Byte :=
  runFragment p .foci h.flags h.size.toNat (some ⟨h.freqDiv, h.rep, h.modeCode, h.value, h.soundSpeed⟩) tail dev

/-- FOCI_CONT: a focus-STM payload goes on (R210, R217). -/
def slotFociCont (p : Params) (h : Cont) (tail : List Byte) (dev : Device) : Device × Byte :=
  runFragment p .foci h.flags h.size.toNat none tail dev

/-- A line of the consumer's table applies (log entry 10). -/
def ConsumerRule.applies (r : ConsumerRule) (state : Nat) (tag : Byte) (body : List Byte) : Bool :=
  r.state.all (· == state) && r.tag.all (· == tag) && r.body.all (· == body)

/-- `ATOMIC_CONSUME[d](tag, body)`: the answer, and the consumer in its new state (R225). -/
def Consumer.consume (c : Consumer) (tag : Byte) (body : List Byte) : ConsumerAnswer × Consumer :=
  match c.rules.find? (fun r => r.applies c.state tag body) with
  | some r => (r.answer, { c with state := r.next.getD c.state })
  | none => (c.dflt, c)

/-- ATOMIC: a tag of `ATOMIC_TAGS` is handed to the consumer whole, and its status byte is the slot's error; a tag the
deployment does not have is `E_INVALID_TAG` (R206, R225). -/
def slotAtomic (p : Params) (tag : Byte) (body : List Byte) (dev : Device) : Device × Byte :=
  if tag ∈ p.atomicTags then
    ({ dev with
        consumer := (dev.consumer.consume tag body).2
        events := dev.events ++ [.atomic tag body] },
      (dev.consumer.consume tag body).1.toByte)
  else (dev, eInvalidTag)

/-- A decoded slot's meaning (spec/42_frame_deserializer.md R206). -/
def runSlot (p : Params) (s : Slot) (dev : Device) : Device × Byte :=
  match s with
  | .empty rest => slotEmpty rest dev
  | .modFirst h tail => slotModFirst p h tail dev
  | .modCont h tail => slotModCont p h tail dev
  | .fociFirst h tail => slotFociFirst p h tail dev
  | .fociCont h tail => slotFociCont p h tail dev
  | .atomic tag body => slotAtomic p tag body dev

/-- The error of bytes that are no slot format (spec/42_frame_deserializer.md R206, R215): an unknown tag touches no stream;
neither does a missing flags byte; a short header aborts its stream, with the flag check first. -/
def rejectSlot (r : SlotReject) (dev : Device) : Device × Byte :=
  match r with
  | .noTag => (dev, eInvalidSlot)
  | .unknownTag _ => (dev, eInvalidTag)
  | .noFlags _ => (dev, eInvalidSlot)
  | .shortHeader k _ f => (dev.abort k f.seg, if flagsBad f then eInvalidFlags else eInvalidSlot)

/-- `DECODE_SLOT` on the slot's bytes (spec/42_frame_deserializer.md R206). -/
def rxSlot (p : Params) (B : List Byte) (dev : Device) : Device × Byte :=
  match decodeSlot p.atomicTags B with
  | .ok s => runSlot p s dev
  | .error r => rejectSlot r dev

/-! ## The instructions -/

/-- Run a slot function on device `d` alone, returning the slot's error byte (log entry 14). -/
def State.onDevice (s : State) (d : Nat) (f : Device → Device × Byte) : Host.Outcome State Fault Refusal :=
  s.onLane d fun l => (s.setLane d { l with rx := (f l.rx).1 }).returns (.slotErr (f l.rx).2)

/-- EMPTY (spec/42_frame_deserializer.md R205). -/
def execEmpty (d : Nat) (rest : List Byte) (s : State) : Host.Outcome State Fault Refusal :=
  s.onDevice d (slotEmpty rest)

/-- MOD_FIRST (spec/42_frame_deserializer.md R215, R216). -/
def execModFirst (d : Nat) (h : ModFirst) (tail : List Byte) (s : State) : Host.Outcome State Fault Refusal :=
  s.onDevice d (slotModFirst s.params h tail)

/-- MOD_CONT (spec/42_frame_deserializer.md R215, R217). -/
def execModCont (d : Nat) (h : Cont) (tail : List Byte) (s : State) : Host.Outcome State Fault Refusal :=
  s.onDevice d (slotModCont s.params h tail)

/-- FOCI_FIRST (spec/42_frame_deserializer.md R215, R216). -/
def execFociFirst (d : Nat) (h : FociFirst) (tail : List Byte) (s : State) : Host.Outcome State Fault Refusal :=
  s.onDevice d (slotFociFirst s.params h tail)

/-- FOCI_CONT (spec/42_frame_deserializer.md R215, R217). -/
def execFociCont (d : Nat) (h : Cont) (tail : List Byte) (s : State) : Host.Outcome State Fault Refusal :=
  s.onDevice d (slotFociCont s.params h tail)

/-- ATOMIC_11, modulation segment swap (spec/42_frame_deserializer.md R225). -/
def execAtomic11 (d : Nat) (body : List Byte) (s : State) : Host.Outcome State Fault Refusal :=
  s.onDevice d (slotAtomic s.params 0x11 body)

/-- ATOMIC_30, gain (spec/42_frame_deserializer.md R225). -/
def execAtomic30 (d : Nat) (body : List Byte) (s : State) : Host.Outcome State Fault Refusal :=
  s.onDevice d (slotAtomic s.params 0x30 body)

/-- ATOMIC_31, gain segment swap (spec/42_frame_deserializer.md R225). -/
def execAtomic31 (d : Nat) (body : List Byte) (s : State) : Host.Outcome State Fault Refusal :=
  s.onDevice d (slotAtomic s.params 0x31 body)

/-- ATOMIC_42, focus-STM segment swap (spec/42_frame_deserializer.md R225). -/
def execAtomic42 (d : Nat) (body : List Byte) (s : State) : Host.Outcome State Fault Refusal :=
  s.onDevice d (slotAtomic s.params 0x42 body)

/-- ATOMIC_60, force fan (spec/42_frame_deserializer.md R225). -/
def execAtomic60 (d : Nat) (body : List Byte) (s : State) : Host.Outcome State Fault Refusal :=
  s.onDevice d (slotAtomic s.params 0x60 body)

end Sys2Proof.Machine
end

