-- ==== Sys2Proof/Machine/Frames.lean ====
section
/-! DEFINITION. Frames on the device and records on the host: FRAME, DEV_RX, DELIVER (spec/42_frame_deserializer.md R200 to
R204, R229, R230, spec/20_memory.md R66) and ACK (spec/43_ack_matcher.md R240). -/

namespace Sys2Proof.Machine

open Sys2Proof

/-- The slots of a new frame: slot one, then slot two when there is one and slot one gave no error
(spec/42_frame_deserializer.md R200, R229, R230; extents of spec/30_encoding.md R95). -/
def rxSlots (p : Params) (f : Frame) (dev : Device) : Device × Byte :=
  if f.offset = 0 then rxSlot p f.payload dev
  else
    let r1 := rxSlot p (f.payload.take f.offset.toNat) dev
    if r1.2 = eNone then rxSlot p (f.payload.drop f.offset.toNat) r1.1 else r1

/-- `DEV_RX` of one whole frame (spec/42_frame_deserializer.md R200): a repeated id is ignored (R201), an offset not below
`N` decodes nothing (R204), and the acknowledgement records the id and the error (R229). -/
def rxFrame (p : Params) (f : Frame) (dev : Device) : Device :=
  if f.msgId = dev.ack.id then dev
  else if f.offset ≠ 0 ∧ p.n ≤ f.offset.toNat then { dev with ack := ⟨f.msgId, eInvalidSlot⟩ }
  else { (rxSlots p f dev).1 with ack := ⟨f.msgId, (rxSlots p f dev).2⟩ }

/-- Device `d` processes the frame `f`. -/
def State.rxOn (s : State) (d : Nat) (l : Lane) (f : Frame) : Host.Outcome State Fault Refusal :=
  (s.setLane d { l with rx := rxFrame s.params f l.rx }).returns .ok

/-- FRAME: device `d` processes a frame given by its fields (spec/42_frame_deserializer.md R200). A payload of
fewer than `N` bytes faults and a longer one is refused, by the model's choice (log entry 19). -/
def execFrame (d : Nat) (f : Frame) (s : State) : Host.Outcome State Fault Refusal :=
  s.onLane d fun l =>
    if f.payload.length < s.params.n then .fault .memOutside
    else if s.params.n < f.payload.length then .refused .operandDomain
    else s.rxOn d l f

/-- DEV_RX d, F: device `d` processes a frame given by its `4 + N` bytes (spec/42_frame_deserializer.md R200); fewer fault and more are
refused, by the model's choice (log entry 19). -/
def execDevRx (d : Nat) (bytes : List Byte) (s : State) : Host.Outcome State Fault Refusal :=
  s.onLane d fun l =>
    if bytes.length < 4 + s.params.n then .fault .memOutside
    else if 4 + s.params.n < bytes.length then .refused .operandDomain
    else match decodeFrame bytes with
      | some f => s.rxOn d l f
      | none => .fault .memOutside

/-- DELIVER d: the link hands device `d` a snapshot of `WIRE[d]`, which runs DEV_RX on it (spec/20_memory.md R66). -/
def execDeliver (d : Nat) (s : State) : Host.Outcome State Fault Refusal :=
  s.onLane d fun l =>
    match decodeFrame l.wire with
    | some f => s.rxOn d l f
    | none => .fault .memOutside

/-- ACK: the host parses the record `a` of device `d` (spec/43_ack_matcher.md R240, R241; log entry 27): none while
`RXVALID[d] = 0`. The turn `parse d` fetches the record from `RXBUF[d]`. -/
def execAck (d : Nat) (a : AckRec) (s : State) : Host.Outcome State Fault Refusal :=
  s.onLane d fun l => s.returns (.parsed (if l.rxValid then some a else none))

end Sys2Proof.Machine
end

