-- ==== Sys2Proof/Machine/Codec.lean ====
section
/-! DEFINITION. The fragment codec (spec/40_fragment_codec.md): LOAD, ENABLE, REQUIRED_SIZE, PACK_MOD, PACK_FOCI,
PACK_ATOMIC. -/

namespace Sys2Proof.Machine

open Sys2Proof

/-! ## Binding and sizing -/

/-- LOAD d, k, op (spec/40_fragment_codec.md R140). It is refused while `SESSION` is `Sending` or `AwaitingAck`: between two
batches of a running call by spec/70_reset_and_hazards.md R321; before the call's first ISSUE, among the commands of one batch
and after the last batch by the model's choice (DESIGN CHOICE, log entry 29). An operation with a field outside its domain is
refused too (spec/60_exceptions.md R293; log entry 19). -/
def execLoad (d : Nat) (k : SlotIx) (op : Operation) (s : State) : Host.Outcome State Fault Refusal :=
  s.onLane d fun l =>
    if s.inFlight then .refused .loadInCall
    else if !operandOk op then .refused .operandDomain
    else match loadedSlot s.params op with
      | .error e => s.raise e
      | .ok o => (s.setLane d (l.setOp k o)).returns .ok

/-- ENABLE d, b (spec/40_fragment_codec.md R143). -/
def execEnable (d : Nat) (b : Bool) (s : State) : Host.Outcome State Fault Refusal :=
  s.onLane d fun l => (s.setLane d { l with enabled := b }).returns .ok

/-- The fewest bytes after the header that a fragment of kind `k` can carry: `PAD_EVEN ? 2 : UNIT`
(spec/40_fragment_codec.md R145). -/
def minPayload (p : Params) (k : Kind) : Nat := if padEven k then 2 else unitBytes p k

/-- The bytes a streaming operation with cursor `sent` needs to make progress (spec/40_fragment_codec.md R145, R150). -/
def streamNeed (p : Params) (k : Kind) (sent : Nat) : Nat := k.header (sent == 0) + minPayload p k

/-- `REQUIRED_SIZE(op)` (spec/40_fragment_codec.md R145). -/
def requiredSize (p : Params) (o : OpSlot) : Nat :=
  if o.done then 0
  else match o with
    | .null => 0
    | .mod _ sent _ => streamNeed p .mod sent
    | .foci _ _ sent _ => streamNeed p .foci sent
    | .atomic _ body _ => 1 + body.length

/-- REQUIRED_SIZE d, k (spec/40_fragment_codec.md R145). -/
def execRequiredSize (d : Nat) (k : SlotIx) (s : State) : Host.Outcome State Fault Refusal :=
  s.onLane d fun l => s.returns (.size (requiredSize s.params (l.op k)))

/-! ## Packing -/

/-- The unit count of the next fragment (spec/40_fragment_codec.md R150, R152): what remains, what fits after the header
(an even count for `PAD_EVEN`), and the form's cap, whichever is least. -/
def unitCount (p : Params) (k : Kind) (o : StreamOp) (sent budget : Nat) : Nat :=
  let fit := (budget - k.header (sent == 0)) / unitBytes p k
  let avail := if padEven k then evenFloor fit else fit
  min (o.data.length - sent) (min avail (unitCap k (sent == 0)))

/-- The payload bytes of a fragment: units `sent .. sent+n-1` in order, and one zero byte when their number of bytes is odd
and the kind pads (spec/40_fragment_codec.md R153, spec/30_encoding.md R107). -/
def fragmentPayload (k : Kind) (o : StreamOp) (sent n : Nat) : List Byte :=
  let bytes := ((o.data.drop sent).take n).flatten
  bytes ++ (if padEven k && bytes.length % 2 == 1 then [0x00] else [])

/-- The fragment of kind `k` that carries units `sent .. sent+n-1` (spec/40_fragment_codec.md R150): its header fields, then
its payload. -/
def fragmentSlot (k : Kind) (ss : U32) (o : StreamOp) (sent n : Nat) : Slot :=
  let flags := packFlags (sent + n == o.data.length) o
  let payload := fragmentPayload k o sent n
  match k, (sent == 0) with
  | .mod, true =>
      .modFirst ⟨flags, BitVec.ofNat 8 n, modeCode o.mode, o.freqDiv, BitVec.ofNat 16 (repWire .mod o.rep), modeValue o.mode⟩
        payload
  | .foci, true =>
      .fociFirst ⟨flags, BitVec.ofNat 8 n, modeCode o.mode, o.freqDiv, 0, ss, BitVec.ofNat 32 (repWire .foci o.rep),
        modeValue o.mode⟩ payload
  | .mod, false => .modCont ⟨flags, BitVec.ofNat 16 n⟩ payload
  | .foci, false => .fociCont ⟨flags, BitVec.ofNat 16 n⟩ payload

/-- `PACK_STREAM` (spec/40_fragment_codec.md R150): the error it raises, in the order of spec/60_exceptions.md R296, or the
fragment's bytes with the new cursor and `done` latch. -/
def packStream (p : Params) (k : Kind) (ss : U32) (o : StreamOp) (sent : Nat) (done : Bool) (budget : Nat) :
    Except HostError (List Byte × Nat × Bool) :=
  if done then .error (.invalidOperation .packedAfterDone)
  else if sent = 0 ∧ unitsMax p k < o.data.length then .error (.sizeOutOfRange o.data.length)
  else if budget < streamNeed p k sent then .error (.insufficientBuffer (streamNeed p k sent) budget)
  else
    let n := unitCount p k o sent budget
    let final := sent + n == o.data.length
    if final && decide (o.data.length < unitsMin p k) then .error (.sizeOutOfRange o.data.length)
    else .ok (encodeSlot (fragmentSlot k ss o sent n), sent + n, final)

/-- `PACK_MOD` on a MOD slot's fields (spec/40_fragment_codec.md R158). -/
def packMod (p : Params) (o : StreamOp) (sent : Nat) (done : Bool) (budget : Nat) : Except HostError (List Byte × OpSlot) :=
  match packStream p .mod 0 o sent done budget with
  | .error e => .error e
  | .ok (bs, sent', done') => .ok (bs, .mod o sent' done')

/-- `PACK_FOCI` on a FOCI slot's fields (spec/40_fragment_codec.md R159). -/
def packFoci (p : Params) (o : StreamOp) (ss : U32) (sent : Nat) (done : Bool) (budget : Nat) :
    Except HostError (List Byte × OpSlot) :=
  match packStream p .foci ss o sent done budget with
  | .error e => .error e
  | .ok (bs, sent', done') => .ok (bs, .foci o ss sent' done')

/-- `PACK_ATOMIC` on an ATOMIC slot's fields (spec/40_fragment_codec.md R160). -/
def packAtomic (tag : Byte) (body : List Byte) (done : Bool) (budget : Nat) : Except HostError (List Byte × OpSlot) :=
  if done then .error (.invalidOperation .packedAfterDone)
  else if budget < 1 + body.length then .error (.insufficientBuffer (1 + body.length) budget)
  else .ok (encodeSlot (.atomic tag body), .atomic tag body true)

/-- `PACK`: the dispatch ISSUE uses (spec/40_fragment_codec.md R161). A NULL slot is done and refused as such (R156). -/
def packSlot (p : Params) (o : OpSlot) (budget : Nat) : Except HostError (List Byte × OpSlot) :=
  match o with
  | .null => .error (.invalidOperation .packedAfterDone)
  | .mod op sent done => packMod p op sent done budget
  | .foci op ss sent done => packFoci p op ss sent done budget
  | .atomic tag body done => packAtomic tag body done budget

/-- A pack command on its own (log entry 18): pack slot `(d, k)` into the payload `buf` at `base` with `pack`, returning the
buffer and the bytes written. A window beyond `N` faults (spec/60_exceptions.md R292). A buffer that is no frame payload stops by the
model's choice: a shorter one faults, a longer one is refused (log entry 18). -/
def State.packInto (s : State) (d : Nat) (k : SlotIx) (buf : List Byte) (base budget : Nat)
    (pack : OpSlot → Host.Outcome (Except HostError (List Byte × OpSlot)) Fault Refusal) :
    Host.Outcome State Fault Refusal :=
  s.onLane d fun l =>
    if s.params.n < base + budget then .fault .packBudget
    else if buf.length < s.params.n then .fault .memOutside
    else if s.params.n < buf.length then .refused .operandDomain
    else match pack (l.op k) with
      | .next (.error e) => s.raise e
      | .next (.ok (bs, o)) => (s.setLane d (l.setOp k o)).returns (.packed (copyAt buf base bs) bs.length)
      | .fault r => .fault r
      | .refused r => .refused r

/-- A slot whose `done` latch is set is refused with `InvalidOperation`, whatever its kind (spec/40_fragment_codec.md R156);
an undone slot of another kind is no operand of this pack (log entry 18). -/
def wrongKind (o : OpSlot) : Host.Outcome (Except HostError (List Byte × OpSlot)) Fault Refusal :=
  if o.done then .next (.error (.invalidOperation .packedAfterDone)) else .refused .kindMismatch

/-- PACK_MOD (spec/40_fragment_codec.md R158). -/
def execPackMod (d : Nat) (k : SlotIx) (buf : List Byte) (base budget : Nat) (s : State) :
    Host.Outcome State Fault Refusal :=
  s.packInto d k buf base budget fun
    | .mod o sent done => .next (packMod s.params o sent done budget)
    | other => wrongKind other

/-- PACK_FOCI (spec/40_fragment_codec.md R159). -/
def execPackFoci (d : Nat) (k : SlotIx) (buf : List Byte) (base budget : Nat) (s : State) :
    Host.Outcome State Fault Refusal :=
  s.packInto d k buf base budget fun
    | .foci o ss sent done => .next (packFoci s.params o ss sent done budget)
    | other => wrongKind other

/-- PACK_ATOMIC (spec/40_fragment_codec.md R160). -/
def execPackAtomic (d : Nat) (k : SlotIx) (buf : List Byte) (base budget : Nat) (s : State) :
    Host.Outcome State Fault Refusal :=
  s.packInto d k buf base budget fun
    | .atomic tag body done => .next (packAtomic tag body done budget)
    | other => wrongKind other

end Sys2Proof.Machine
end

