-- ==== Sys2Proof/Machine/Batch.lean ====
section
/-! DEFINITION. The dual-slot multiplexer and ISSUE (spec/41_dual_slot_packer.md R180 to R187). -/

namespace Sys2Proof.Machine

open Sys2Proof

/-- The payload of `N` bytes that starts with the given slots, zero-filled after them (spec/30_encoding.md R94). -/
def fillPayload (p : Params) (slots : List Byte) : List Byte := slots ++ zeros (p.n - slots.length)

/-- The frame of a batch: id, reserved byte 0x00, slot-two offset, payload (spec/30_encoding.md R90 to R94). -/
def batchFrame (p : Params) (id : Byte) (o : Nat) (slots : List Byte) : List Byte :=
  encodeFrame ⟨id, 0x00, BitVec.ofNat 16 o, fillPayload p slots⟩

/-- `PACK_DEVICE(d)` (spec/41_dual_slot_packer.md R180): the lane with its frame in `txbuf` and its slots advanced, or the
error. A device that is not enabled, or with both slots done, gets an empty frame (R181); the primary goes first and its
error ends the device (R185); the secondary goes after it if it fits (R182) and waits if it does not (R183); alone it goes
into slot one (R184). -/
def packDevice (p : Params) (id : Byte) (l : Lane) : Except HostError Lane :=
  if !l.enabled then .ok { l with txbuf := batchFrame p id 0 [] }
  else if !l.pri.done then
    match packSlot p l.pri p.n with
    | .error e => .error e
    | .ok (bs, pri') =>
      if !l.sec.done && decide (requiredSize p l.sec ≤ p.n - bs.length) then
        match packSlot p l.sec (p.n - bs.length) with
        | .error e => .error e
        | .ok (bs2, sec') => .ok { l with txbuf := batchFrame p id bs.length (bs ++ bs2), pri := pri', sec := sec' }
      else .ok { l with txbuf := batchFrame p id 0 bs, pri := pri' }
  else if !l.sec.done then
    match packSlot p l.sec p.n with
    | .error e => .error e
    | .ok (bs, sec') => .ok { l with txbuf := batchFrame p id 0 bs, sec := sec' }
  else .ok { l with txbuf := batchFrame p id 0 [] }

/-- Every device's lane packed, or the error of the least-indexed device that fails (spec/41_dual_slot_packer.md R186). -/
def packAll (p : Params) (id : Byte) : List Lane → Except HostError (List Lane)
  | [] => .ok []
  | l :: ls =>
    match packDevice p id l with
    | .error e => .error e
    | .ok l' =>
      match packAll p id ls with
      | .error e => .error e
      | .ok ls' => .ok (l' :: ls')

/-- ISSUE (spec/41_dual_slot_packer.md R186): the id is incremented first and keeps its increment; on an error nothing else
changes. -/
def execIssue (s : State) : Host.Outcome State Fault Refusal :=
  match packAll s.params (s.msgId + 1) s.lanes with
  | .error e => State.raise { s with msgId := s.msgId + 1 } e
  | .ok ls => State.returns { s with msgId := s.msgId + 1, lanes := ls } .ok

end Sys2Proof.Machine
end

