-- ==== Sys2Proof/Machine/Link.lean ====
section
/-! DEFINITION. The link's host side and the matcher: SEND and RECEIVE (spec/20_memory.md R65, R67), MATCH
(spec/43_ack_matcher.md R246). -/

namespace Sys2Proof.Machine

open Sys2Proof

/-- The error of a link step, if it fails: a closed link, then the I/O draw (spec/20_memory.md R65, R67). -/
def State.linkError (s : State) (io : Bool) : Option HostError :=
  if !s.linkOpen then some .linkNotOpen else if io then some .linkIo else none

/-- SEND (spec/20_memory.md R65): every `TXBUF[d]` is copied to `WIRE[d]`, or the error leaves all as it was. -/
def execSend (io : Bool) (s : State) : Host.Outcome State Fault Refusal :=
  match s.linkError io with
  | some e => s.raise e
  | none => State.returns { s with lanes := s.lanes.map fun l => { l with wire := l.txbuf } } .ok

/-- One device's share of a RECEIVE (spec/20_memory.md R67). -/
def receiveLane (draw : RxDraw) (l : Lane) : Lane :=
  match draw with
  | .ok => { l with rxValid := true, rxBuf := ackBytes l.rx.ack }
  | .none b0 b1 => { l with rxValid := false, rxBuf := (b0, b1) }

/-- RECEIVE (spec/20_memory.md R67), with one draw a device; a list of another length is no operand (log entry 19). -/
def execReceive (io : Bool) (draws : List RxDraw) (s : State) : Host.Outcome State Fault Refusal :=
  if draws.length ≠ s.lanes.length then .refused .operandDomain
  else match s.linkError io with
    | some e => s.raise e
    | none => State.returns { s with lanes := List.zipWith receiveLane draws s.lanes } .ok

/-- The least-indexed device with `FWERR`, from index `d` on, with its code (spec/43_ack_matcher.md R249). -/
def firstFwErr (id : Byte) : Nat → List Lane → Option (Byte × Nat)
  | _, [] => none
  | d, l :: ls =>
    match l.fwErr id with
    | some c => some (c, d)
    | none => firstFwErr id (d + 1) ls

/-- `VERDICT` (spec/43_ack_matcher.md R246 to R249). -/
def State.verdict (s : State) : Verdict :=
  match firstFwErr s.msgId 0 s.lanes with
  | some (c, d) => .fwError c d
  | none => if s.lanes.all (fun l => !l.enabled || l.acked s.msgId) then .allAcked else .pending

/-- MATCH (spec/43_ack_matcher.md R246). -/
def execMatch (s : State) : Host.Outcome State Fault Refusal := s.returns (.verdict s.verdict)

end Sys2Proof.Machine
end

