-- ==== Sys2Proof/Machine/Session.lean ====
section
/-! DEFINITION. The host send loop (spec/44_host_session.md) and the resets (spec/70_reset_and_hazards.md R310): SEND_DATAGRAM
starts a call, `hostTurn` plays the call's next command, RESET, RESET_HOST and RESET_DEV set the reset values. -/

namespace Sys2Proof.Machine

open Sys2Proof

/-! ## Starting a call -/

/-- The operation a call loads: the given one, or NULL for a device that is not enabled (spec/44_host_session.md R262). -/
def effectiveOp (c : DeviceCall) (op : Operation) : Operation := if c.enabled then op else .null

/-- One device's ENABLE and two LOADs (spec/44_host_session.md R262). -/
def deviceSetup (d : Nat) (c : DeviceCall) : List SetupCmd :=
  [.enable d c.enabled, .load d .pri (effectiveOp c c.pri), .load d .sec (effectiveOp c c.sec)]

/-- The ENABLEs and LOADs of the devices from index `d` on, in index order (spec/44_host_session.md R262). -/
def setupCmds : Nat → List DeviceCall → List SetupCmd
  | _, [] => []
  | d, c :: cs => deviceSetup d c ++ setupCmds (d + 1) cs

/-- The loop with the commands `todo` still to be given before the first batch; after the last one `SESSION <- Sending`
(spec/44_host_session.md R262). -/
def afterSetup (todo : List SetupCmd) (s : State) : State :=
  match todo with
  | [] => { s with session := .sending, hostPc := .issue }
  | c :: cs => { s with hostPc := .setup (c :: cs) }

/-- SEND_DATAGRAM(ops, en, timeout): the call starts (spec/44_host_session.md R261, R262; log entry 11). It is refused while a call
is running (by spec/70_reset_and_hazards.md R320 while `SESSION` is `Sending` or `AwaitingAck`, and by the model's choice while
the first call's ENABLEs and LOADs are given, log entry 11) and on operands outside their domain (spec/60_exceptions.md R293); a closed link
fails it before any LOAD. Its ENABLEs, its LOADs and its loop are then played by `hostTurn`, a command at a time. -/
def execSendDatagram (calls : List DeviceCall) (timeout : Nat) (s : State) : Host.Outcome State Fault Refusal :=
  if s.callRunning then .refused .callInFlight
  else if calls.length ≠ s.lanes.length then .refused .operandDomain
  else if !calls.all (fun c => operandOk (effectiveOp c c.pri) && operandOk (effectiveOp c c.sec)) then .refused .operandDomain
  else if !s.linkOpen then .next (s.failCall .linkNotOpen)
  else State.returns (afterSetup (setupCmds 0 calls) { s with tz := timeout == 0 }) .ok

/-! ## The loop -/

/-- A command of the loop: an error it raises fails the call (spec/44_host_session.md R262 to R264); otherwise the loop goes on
with `k`. -/
def thenLoop (o : Host.Outcome State Fault Refusal) (k : State → State) : Host.Outcome State Fault Refusal :=
  match o with
  | .next t =>
    match t.ret with
    | .error e => .next (t.failCall e)
    | _ => .next (k t)
  | .fault r => .fault r
  | .refused r => .refused r

/-- After a successful SEND (spec/44_host_session.md R262, R269): with a non-zero timeout the host awaits acknowledgements;
with `tz = 1` the call ends under `ONE_SEND` or when all is done, and otherwise the next batch is issued. -/
def afterSend (s : State) : State :=
  if s.tz then
    if s.params.tzPolicy == .oneSend || s.allDone then s.endCall else { s with hostPc := .issue }
  else { s with session := .awaitingAck, hostPc := .receive }

/-- MATCH in the loop (spec/44_host_session.md R266 to R268): a firmware error fails the call; all acknowledged ends it when
all is done and else leads to the next batch; on PENDING the timeout event may be taken, or the host polls again. -/
def afterMatch (timeout : Bool) (s : State) : State :=
  match s.verdict with
  | .fwError c d => s.failCall (.firmware c d)
  | .allAcked => if s.allDone then s.endCall else { s with session := .sending, hostPc := .issue }
  | .pending => if timeout then s.failCall .confirmResponseFailed else { s with hostPc := .receive }

/-- An ENABLE or LOAD of the loop is the command itself (spec/44_host_session.md R262). -/
def SetupCmd.run (c : SetupCmd) (s : State) : Host.Outcome State Fault Refusal :=
  match c with
  | .enable d b => execEnable d b s
  | .load d k op => execLoad d k op s

/-- The send loop's next command, with this step's draws (spec/44_host_session.md R262, R271). A host with no call in flight
does nothing. -/
def hostTurn (w : HostDraw) (s : State) : Host.Outcome State Fault Refusal :=
  match s.hostPc with
  | .idle => .next s
  | .setup [] => .next (afterSetup [] s)
  | .setup (c :: todo) => thenLoop (c.run s) (afterSetup todo)
  | .issue => thenLoop (execIssue s) (fun t => { t with hostPc := .send })
  | .send => thenLoop (execSend w.io s) afterSend
  | .receive => thenLoop (execReceive w.io w.rx s) (fun t => { t with hostPc := .matching })
  | .matching => thenLoop (execMatch s) (afterMatch w.timeout)

/-! ## Resets (spec/70_reset_and_hazards.md R310; log entry 21) -/

/-- `RESET_HOST`'s share of a lane. -/
def resetHostLane (p : Params) (l : Lane) : Lane :=
  { l with enabled := false, pri := .null, sec := .null, txbuf := zeros (4 + p.n) }

/-- `RESET_DEV(d)`. The consumer is outside the block and the events are its sinks': both stay. -/
def resetDevice (dev : Device) : Device :=
  { dev with ack := ⟨0, 0⟩, reasm := Streams.all Reasm.reset, segbuf := Streams.all [] }

/-- The link's share of RESET. -/
def resetLinkLane (p : Params) (l : Lane) : Lane :=
  { l with wire := zeros (4 + p.n), rxValid := false, rxBuf := (0, 0) }

/-- `RESET_HOST()`. -/
def resetHost (s : State) : State :=
  { s with
    msgId := 0
    lanes := s.lanes.map (resetHostLane s.params)
    session := .idle
    tz := false
    callResult := .ok
    hostPc := .idle }

/-- RESET (spec/70_reset_and_hazards.md R310): host, link and every device together; `LINK_OPEN` is not changed. -/
def execReset (s : State) : Host.Outcome State Fault Refusal :=
  let h := resetHost s
  State.returns
    { h with lanes := h.lanes.map fun l => { resetLinkLane s.params l with rx := resetDevice l.rx } } .ok

/-- `RESET_DEV(d)` on its own. -/
def resetDev (d : Nat) (s : State) : Host.Outcome State Fault Refusal :=
  s.onLane d fun l => .next (s.setLane d { l with rx := resetDevice l.rx })

end Sys2Proof.Machine
end

