-- ==== Sys2Proof/Machine/Dispatch.lean ====
section
/-! DEFINITION. One arm per instruction: a direct call of its meaning. -/

namespace Sys2Proof.Machine

open Sys2Proof

def exec (i : Instr) (s : State) : Host.Outcome State Fault Refusal :=
  match i with
  | .empty d rest => Sys2Proof.Machine.execEmpty d rest s
  | .modFirst d h tail => Sys2Proof.Machine.execModFirst d h tail s
  | .modCont d h tail => Sys2Proof.Machine.execModCont d h tail s
  | .fociFirst d h tail => Sys2Proof.Machine.execFociFirst d h tail s
  | .fociCont d h tail => Sys2Proof.Machine.execFociCont d h tail s
  | .atomic11 d body => Sys2Proof.Machine.execAtomic11 d body s
  | .atomic30 d body => Sys2Proof.Machine.execAtomic30 d body s
  | .atomic31 d body => Sys2Proof.Machine.execAtomic31 d body s
  | .atomic42 d body => Sys2Proof.Machine.execAtomic42 d body s
  | .atomic60 d body => Sys2Proof.Machine.execAtomic60 d body s
  | .frame d f => Sys2Proof.Machine.execFrame d f s
  | .ack d a => Sys2Proof.Machine.execAck d a s
  | .reset => Sys2Proof.Machine.execReset s
  | .load d k op => Sys2Proof.Machine.execLoad d k op s
  | .enable d b => Sys2Proof.Machine.execEnable d b s
  | .requiredSize d k => Sys2Proof.Machine.execRequiredSize d k s
  | .packMod d k buf base budget => Sys2Proof.Machine.execPackMod d k buf base budget s
  | .packFoci d k buf base budget => Sys2Proof.Machine.execPackFoci d k buf base budget s
  | .packAtomic d k buf base budget => Sys2Proof.Machine.execPackAtomic d k buf base budget s
  | .issue => Sys2Proof.Machine.execIssue s
  | .send io => Sys2Proof.Machine.execSend io s
  | .deliver d => Sys2Proof.Machine.execDeliver d s
  | .devRx d bytes => Sys2Proof.Machine.execDevRx d bytes s
  | .receive io draws => Sys2Proof.Machine.execReceive io draws s
  | .matchAcks => Sys2Proof.Machine.execMatch s
  | .sendDatagram calls timeout => Sys2Proof.Machine.execSendDatagram calls timeout s

end Sys2Proof.Machine
end

