-- ==== Sys2Proof/Machine/Turn.lean ====
section
/-! DEFINITION. Playing one turn, and where the bytes of a step's instruction come from: a command stands in the queue as it
is; the slots of a frame are fetched from `WIRE[d]` when DELIVER d is played; a record is fetched from `RXBUF[d]` by the turn
`parse d`. -/

namespace Sys2Proof.Machine

open Sys2Proof

/-- Fetch device `d`'s acknowledgement record and parse it: `ACK_PARSE(d)` (spec/43_ack_matcher.md R240). -/
def parseTurn (d : Nat) (s : State) : Host.Outcome State Fault Refusal :=
  s.onLane d fun l => exec (.ack d (ackOfBytes l.rxBuf)) s

/-- One turn (log entry 8). -/
def runTurn (t : Turn) (s : State) : Host.Outcome State Fault Refusal :=
  match t with
  | .cmd i => exec i s
  | .parse d => parseTurn d s
  | .host w => hostTurn w s
  | .linkOpen => .next { s with linkOpen := true }
  | .linkClose => .next { s with linkOpen := false }
  | .resetHost => .next (resetHost s)
  | .resetDev d => resetDev d s

/-- The next turn of the queue; a block with none waits (spec/70_reset_and_hazards.md R312; log entry 8). -/
def nextTurn (s : State) : Host.Outcome State Fault Refusal :=
  match s.queue with
  | [] => .next s
  | t :: rest => runTurn t { s with queue := rest }

/-- A frame of `4 + N` bytes that carries the slot bytes `B` as its slot one, with an id the device takes as new. -/
def slotFrame (p : Params) (dev : Device) (B : List Byte) : List Byte :=
  encodeFrame ⟨dev.ack.id + 1, 0x00, 0, (B ++ zeros (p.n - B.length)).take p.n⟩

/-- Put slot bytes where device 0 fetches its next slot: `WIRE[0]`, with the delivery of it as the next turn. -/
def placeSlot (B : List Byte) (s : State) : State :=
  match s.lanes with
  | [] => s
  | l :: ls => { s with
      lanes := { l with wire := slotFrame s.params l.rx B } :: ls
      queue := .cmd (.deliver 0) :: s.queue }

end Sys2Proof.Machine
end

