-- ==== Sys2Proof/Machine/Step.lean ====
section
/-! DEFINITION. The step function, and where a program's next instruction stands (log entry 15). -/

namespace Sys2Proof.Machine

open Sys2Proof

/-- One step: the queue's next turn. -/
def step (s : State) : Host.Outcome State Fault Refusal := nextTurn s

/-- `s` with a table row's word stored where the next step fetches it: as slot one of the frame on `WIRE[0]`, whose
delivery is the next turn. -/
def State.withFetchWord (s : State) (nbits w : Nat) : State := placeSlot (tableSlotBytes nbits w) s

end Sys2Proof.Machine
end

