-- ==== Sys2Proof/Safety.lean ====
section
/-! DEFINITION. What counts as a sound state and a safe run, in the terms the claims use: the invariant `Inv` that every step
keeps, and the views of an instruction and of a device that the statements are written with. -/

namespace Sys2Proof.Machine

open Sys2Proof

/-! ## The invariant -/

/-- A streaming operation in a slot: its fields lie in their domains, its units have the kind's width, its GPIO pin is in
range, the cursor is within the payload, a done operation is at its end and an undone one with
its first fragment packed is not (spec/10_state.md R24, R25), and a payload whose first
fragment was packed is not over `MAX` (spec/40_fragment_codec.md R151). -/
structure StreamOk (p : Params) (k : Kind) (o : StreamOp) (sent : Nat) (done : Bool) : Prop where
  rep_ok   : o.rep.inDomain k = true
  units_ok : ∀ u ∈ o.data, u.length = unitBytes p k
  pin_ok   : ∀ pin, o.mode = .gpio pin → pin < gpioPins
  sent_le  : sent ≤ o.data.length
  done_eq  : done = true → sent = o.data.length
  undone   : done = false → sent = o.data.length → sent = 0
  max_ok   : sent ≠ 0 → o.data.length ≤ unitsMax p k

/-- An operation slot (spec/10_state.md R24, R25). -/
def SlotOk (p : Params) : OpSlot → Prop
  | .null => True
  | .mod o sent done => StreamOk p .mod o sent done
  | .foci o _ sent done => StreamOk p .foci o sent done
  | .atomic tag _ _ => tag ∈ p.atomicTags

/-- A reassembly stream with its segment buffer (spec/10_state.md R30, R31): the count is at most `MAX` and positive while
active, the buffer is canonical and within its size, every unit below the count has been written (so what a SET event
announces can be read), and a MOD stream's fields have their widths. -/
structure StreamStateOk (p : Params) (k : Kind) (st : Reasm) (m : Memory) : Prop where
  count_le   : st.count ≤ unitsMax p k
  count_pos  : st.active = true → 1 ≤ st.count
  mem_wf     : m.wf
  mem_bound  : ∀ c ∈ m, c.1 < unitsMax p k * unitBytes p k
  written    : ∀ a, a < st.count * unitBytes p k → (m.read a).isSome = true
  rep_width  : k = .mod → st.latch.repWire.toNat < 65536
  no_speed   : k = .mod → st.latch.soundSpeed = 0

/-- A frame buffer: `4 + N` bytes, reserved byte 0x00, slot-two offset below `N` (spec/41_dual_slot_packer.md R188). -/
structure FrameOk (p : Params) (B : List Byte) : Prop where
  length_eq : B.length = 4 + p.n
  resv_eq   : B[1]? = some 0x00
  offset_lt : memRead B 2 2 < p.n

/-- A lane. -/
structure LaneOk (p : Params) (l : Lane) : Prop where
  pri_ok   : SlotOk p l.pri
  sec_ok   : SlotOk p l.sec
  txbuf_ok : FrameOk p l.txbuf
  wire_ok  : FrameOk p l.wire
  rx_ok    : ∀ k s, StreamStateOk p k (l.rx.reasm.get k s) (l.rx.segbuf.get k s)

/-- The send loop's place agrees with `SESSION`, and acknowledgements are awaited only with `tz = 0`
(spec/44_host_session.md R260). -/
structure SessionOk (s : State) : Prop where
  sending  : s.session = .sending ↔ (s.hostPc = .issue ∨ s.hostPc = .send)
  awaiting : s.session = .awaitingAck ↔ (s.hostPc = .receive ∨ s.hostPc = .matching)
  no_tz    : s.session = .awaitingAck → s.tz = false

/-- The bounds of spec/00_scope.md R6 on the OPEN parameters, with the tag classes disjoint (spec/30_encoding.md R97). -/
structure ParamsOk (p : Params) : Prop where
  n_pos      : 1 ≤ p.n
  n_le       : p.n ≤ 0xFFFF
  modMin_pos : 1 ≤ p.modMin
  mod_le     : p.modMin ≤ p.modMax
  fociMin_pos : 1 ≤ p.fociMin
  foci_le    : p.fociMin ≤ p.fociMax
  rec_pos    : 1 ≤ p.fociRecBytes
  no_none    : tagNone ∉ p.atomicTags
  no_mod     : tagMod ∉ p.atomicTags
  no_foci    : tagFoci ∉ p.atomicTags

/-- The invariant of the model. -/
structure Inv (s : State) : Prop where
  params_ok  : ParamsOk s.params
  devices    : 1 ≤ s.lanes.length
  lanes_ok   : ∀ l ∈ s.lanes, LaneOk s.params l
  session_ok : SessionOk s

/-! ## Views the statements are written with -/

/-- The state `s` with device `d`'s lane `l` and the returned value `r`, and everything else as it was. -/
def withLane (s : State) (d : Nat) (l : Lane) (r : Ret) : State := { s with lanes := s.lanes.set d l, ret := r }

/-- A stream's fragment as an instruction carries it: device, kind, flags, unit count, the bytes after the header. -/
structure FragView where
  d     : Nat
  k     : Kind
  flags : FragFlags
  n     : Nat
  hdr   : Option Latch
  tail  : List Byte

/-- The fragment an instruction is, for the four streaming slot formats; `hdr` is the header's fields for a first fragment
and none for a continuation. -/
def fragView : Instr → Option FragView
  | .modFirst d h t => some ⟨d, .mod, h.flags, h.size.toNat, some ⟨h.freqDiv, h.rep.setWidth 32, h.modeCode, h.value, 0⟩, t⟩
  | .modCont d h t => some ⟨d, .mod, h.flags, h.size.toNat, none, t⟩
  | .fociFirst d h t => some ⟨d, .foci, h.flags, h.size.toNat, some ⟨h.freqDiv, h.rep, h.modeCode, h.value, h.soundSpeed⟩, t⟩
  | .fociCont d h t => some ⟨d, .foci, h.flags, h.size.toNat, none, t⟩
  | _ => none

/-- The slot that holds a streaming operation of kind `k`; the sound speed is FOCI's. -/
def streamSlot (k : Kind) (o : StreamOp) (ss : U32) (sent : Nat) (done : Bool) : OpSlot :=
  match k with
  | .mod => .mod o sent done
  | .foci => .foci o ss sent done

/-- The pack command of a streaming kind. -/
def packInstr (k : Kind) (d : Nat) (ix : SlotIx) (buf : List Byte) (base budget : Nat) : Instr :=
  match k with
  | .mod => .packMod d ix buf base budget
  | .foci => .packFoci d ix buf base budget

/-- The header a stream has latched from a payload of kind `k`: the operation's divisor, wire repeat count, transition fields and,
for FOCI, sound speed (spec/30_encoding.md R100, R104). -/
def latchOf (k : Kind) (o : StreamOp) (ss : U32) : Latch where
  freqDiv := o.freqDiv
  repWire := BitVec.ofNat 32 (repWire k o.rep)
  modeCode := modeCode o.mode
  value := modeValue o.mode
  soundSpeed := match k with
    | .mod => 0
    | .foci => ss

/-- `j` steps, one after another; none when one of them stops. -/
def runSteps : Nat → State → Option State
  | 0, s => some s
  | j + 1, s =>
    match step s with
    | .next t => runSteps j t
    | _ => none

/-- Lane `l` after the ENABLE and the two LOADs of a call `c` whose LOADs succeed (spec/44_host_session.md R262). -/
def CallLoaded (p : Params) (c : DeviceCall) (l l' : Lane) : Prop :=
  ∃ o1 o2, l' = { l with enabled := c.enabled, pri := o1, sec := o2 } ∧
    (c.enabled = false → o1 = .null ∧ o2 = .null) ∧
    (c.enabled = true → loadedSlot p c.pri = .ok o1 ∧ loadedSlot p c.sec = .ok o2)

/-- One batch carried to device `d` with nothing failing: ISSUE, SEND, DELIVER d; none when ISSUE or SEND raises an error. -/
def batchRound (d : Nat) (s : State) : Option State :=
  match exec .issue s with
  | .next s1 =>
    if s1.ret = .ok then
      match exec (.send false) s1 with
      | .next s2 =>
        if s2.ret = .ok then
          match exec (.deliver d) s2 with
          | .next s3 => some s3
          | _ => none
        else none
      | _ => none
    else none
  | _ => none

/-- `j` batches carried to device `d`, one after another. -/
def batchRounds (d : Nat) : Nat → State → Option State
  | 0, s => some s
  | j + 1, s => (batchRound d s).bind (batchRounds d j)

/-- The units a stream's segment buffer holds from unit `lo` up to `hi` are those of `data`, byte for byte. -/
def UnitsStored (p : Params) (k : Kind) (dev : Device) (seg : Segment) (data : List (List Byte)) (lo hi : Nat) : Prop :=
  ∀ (j : Nat) (u : List Byte), lo ≤ j → j < hi → data[j]? = some u →
    ∀ b, b < unitBytes p k → dev.segByte k seg (j * unitBytes p k + b) = u[b]?

/-- The `SET` event of a whole payload (spec/42_frame_deserializer.md R226, R231). -/
def payloadEvent (k : Kind) (o : StreamOp) (ss : U32) : Event :=
  .set k o.seg o.freqDiv o.data.length o.rep o.mode (match k with
    | .mod => none
    | .foci => some ss)

/-- The other slot of a device. -/
def otherSlot : SlotIx → SlotIx
  | .pri => .sec
  | .sec => .pri

/-- A slot with no fragment left for the stream `(k, seg)` (the premise of spec/42_frame_deserializer.md R231). -/
def OffStream (k : Kind) (seg : Segment) : OpSlot → Prop
  | .null => True
  | .mod o _ done => done = true ∨ (Kind.mod, o.seg) ≠ (k, seg)
  | .foci o _ _ done => done = true ∨ (Kind.foci, o.seg) ≠ (k, seg)
  | .atomic _ _ _ => True

/-- The `SET` events of stream `(k, seg)` among `es`. -/
def setEvents (k : Kind) (seg : Segment) (es : List Event) : List Event :=
  es.filter fun
    | .set k' seg' _ _ _ _ _ => k' == k && seg' == seg
    | .atomic _ _ => false

/-- The device after its consumer took an ATOMIC slot (spec/42_frame_deserializer.md R225). -/
def consumedDevice (dev : Device) (tag : Byte) (body : List Byte) : Device :=
  { dev with consumer := (dev.consumer.consume tag body).2, events := dev.events ++ [.atomic tag body] }

/-- Between `dev` and `dev'` only the stream `(k, seg)` and the events may differ. -/
structure OnlyStream (dev dev' : Device) (k : Kind) (seg : Segment) : Prop where
  ack_eq      : dev'.ack = dev.ack
  consumer_eq : dev'.consumer = dev.consumer
  reasm_eq    : ∀ k' s', (k', s') ≠ (k, seg) → dev'.reasm.get k' s' = dev.reasm.get k' s'
  bytes_eq    : ∀ k' s' a, (k', s') ≠ (k, seg) → dev'.segByte k' s' a = dev.segByte k' s' a

/-- The stream `(k, seg)` aborted: inactive, count 0, all else as it was (spec/42_frame_deserializer.md R228). -/
def abortedDevice (dev : Device) (k : Kind) (seg : Segment) : Device :=
  { dev with reasm := dev.reasm.set k seg ⟨false, 0, (dev.reasm.get k seg).latch⟩ }

/-- `SlotRun s d B t e`: running the slot bytes `B` on device `d` from `s` leads to `t` with the error byte `e`
(spec/42_frame_deserializer.md R206, R212, R215, R225, R228). Exactly one of the cases applies to a slot of at least one byte. -/
inductive SlotRun (s : State) (d : Nat) (B : List Byte) : State → Byte → Prop where
  /-- The bytes decode to an instruction, which runs. -/
  | instr (i : Instr) (t : State) (e : Byte) : decodeInstr s.params.atomicTags d B = some i → exec i s = .next t →
      t.ret = .slotErr e → SlotRun s d B t e
  /-- An ATOMIC tag that the deployment adds to the rows of the opcode table (spec/30_encoding.md R115). -/
  | addedTag (tag : Byte) (body : List Byte) (l : Lane) : B = tag :: body → tag ∈ s.params.atomicTags →
      tag ∉ [0x00, 0x11, 0x30, 0x31, 0x42, 0x60] → s.lanes[d]? = some l →
      SlotRun s d B
        (withLane s d { l with rx := consumedDevice l.rx tag body } (.slotErr (l.rx.consumer.consume tag body).1.toByte))
        (l.rx.consumer.consume tag body).1.toByte
  /-- A tag in no class: 0x01, and nothing else changes. -/
  | unknownTag (tag : Byte) (rest : List Byte) : B = tag :: rest → tag ∉ s.params.atomicTags →
      tag ∉ [0x00, 0x10, 0x40] → SlotRun s d B { s with ret := .slotErr 0x01 } 0x01
  /-- A streaming tag and no flags byte: 0x04, and no stream is touched. -/
  | noFlags (tag : Byte) : B = [tag] → tag ∉ s.params.atomicTags → tag ∈ [0x10, 0x40] →
      SlotRun s d B { s with ret := .slotErr 0x04 } 0x04
  /-- A streaming fragment shorter than its header: its stream is aborted, with 0x03 if its flags byte is bad, else 0x04. -/
  | shortHeader (k : Kind) (fl : Byte) (rest : List Byte) (l : Lane) (e : Byte) :
      B = (if k = .mod then 0x10 else 0x40) :: fl :: rest → (if k = Kind.mod then (0x10 : Byte) else 0x40) ∉ s.params.atomicTags →
      B.length < (if fl.getLsbD 0 then (if k = .mod then 16 else 24) else 4) → s.lanes[d]? = some l →
      e = (if 16 ≤ fl.toNat ∨ (fl.getLsbD 2 = true ∧ fl.getLsbD 1 = false) then 0x03 else 0x04) →
      SlotRun s d B
        (withLane s d { l with rx := abortedDevice l.rx k (if fl.getLsbD 3 then .s1 else .s0) } (.slotErr e)) e

end Sys2Proof.Machine
end

