-- ==== Sys2Proof/Certificates/Slice0/Obligations.lean ====
section
/-! DEFINITION. The statements about the model. Each docstring names the rule of spec/ it formalises. A statement about an
instruction gives the whole next state as an update of the state before, so that what the update does not name is unchanged:
that is its frame. Bytes, widths and codes are written out from the spec here, not taken from the model's encoder. -/

open Sys2Proof Sys2Proof.Machine

/-! ## Encodings -/

/-- Decoding what the encoder writes gives the slot back, for every slot format at every field value, provided the tag classes
are disjoint and an ATOMIC tag is one of `ATOMIC_TAGS` (spec/30_encoding.md R96 to R110). -/
def Obligations.SlotDecodeOfEncode : Prop :=
  ∀ (tags : List Byte) (s : Slot), 0x00 ∉ tags → 0x10 ∉ tags → 0x40 ∉ tags →
    (∀ tag body, s = .atomic tag body → tag ∈ tags) → decodeSlot tags (encodeSlot s) = .ok s

/-- Encoding what the decoder read gives the bytes back: no byte string has two readings and no bit of one is dropped. -/
def Obligations.SlotEncodeOfDecode : Prop :=
  ∀ (tags : List Byte) (B : List Byte) (s : Slot), decodeSlot tags B = .ok s → encodeSlot s = B

/-- The decoder refuses exactly the byte strings that are no slot format, each by its own name (spec/42_frame_deserializer.md
R206, R212, R215): no byte, a tag in no class, no flags byte, or a header cut short. -/
def Obligations.SlotDecodeRefusesByName : Prop :=
  ∀ (tags : List Byte) (B : List Byte) (r : SlotReject), 0x00 ∉ tags → 0x10 ∉ tags → 0x40 ∉ tags →
    (decodeSlot tags B = .error r ↔
      (r = .noTag ∧ B = []) ∨
      (∃ t rest, B = t :: rest ∧ r = .unknownTag t ∧ t ≠ 0x00 ∧ t ∉ tags ∧ t ≠ 0x10 ∧ t ≠ 0x40) ∨
      (∃ k, B = [if k = Kind.mod then 0x10 else 0x40] ∧ r = .noFlags k) ∨
      (∃ k fl rest, B = (if k = Kind.mod then 0x10 else 0x40) :: fl :: rest ∧
        r = .shortHeader k (fl.getLsbD 0) (flagsOf fl) ∧
        B.length < (if fl.getLsbD 0 then (if k = Kind.mod then 16 else 24) else 4)))

/-- An instruction of a slot format, decoded from its own bytes on its own device, is itself, under any `ATOMIC_TAGS` that
holds the default tags and is disjoint from the other classes. -/
def Obligations.InstrDecodeOfEncode : Prop :=
  ∀ (tags : List Byte) (i : Instr) (d : Nat) (s : Slot) (B : List Byte),
    0x00 ∉ tags → 0x10 ∉ tags → 0x40 ∉ tags → (∀ t ∈ [0x11, 0x30, 0x31, 0x42, 0x60], t ∈ tags) →
    s.toInstr d = some i → encode i = some B → decodeInstr tags d B = some i

/-- Frames and acknowledgement records: decode of encode and encode of decode, for each of the two formats (spec/30_encoding.md
R90, R112). -/
def Obligations.FrameAndAckRoundTrip : Prop :=
  (∀ f : Frame, decodeFrame (encodeFrame f) = some f) ∧
  (∀ (B : List Byte) (f : Frame), decodeFrame B = some f → encodeFrame f = B) ∧
  (∀ (d : Nat) (a : AckRec) (B : List Byte), encode (.ack d a) = some B → B = [a.id, a.err] ∧ decodeAck B = some a) ∧
  (∀ (B : List Byte) (a : AckRec), decodeAck B = some a → B = [a.id, a.err])

/-- Words written out from the tables of spec/30_encoding.md R100, R104, R106, R109, R110 decode to the instructions they
stand for. -/
def Obligations.WordsOfTheTablesDecode : Prop :=
  decodeInstr [0x11, 0x30, 0x31, 0x42, 0x60] 0
      [0x10, 0x07, 0x02, 0x01, 0x0A, 0x00, 0x01, 0x00, 0xEF, 0xCD, 0xAB, 0x89, 0x67, 0x45, 0x23, 0x01, 0x55, 0x66]
    = some (.modFirst 0 ⟨⟨true, true, .s0, 0⟩, 2, 1, 10, 1, 0x0123456789ABCDEF⟩ [0x55, 0x66]) ∧
  decodeInstr [0x11, 0x30, 0x31, 0x42, 0x60] 3 [0x10, 0x0A, 0x01, 0x00, 0x0E, 0x00]
    = some (.modCont 3 ⟨⟨true, false, .s1, 0⟩, 1⟩ [0x0E, 0x00]) ∧
  decodeInstr [0x11, 0x30, 0x31, 0x42, 0x60] 0
      [0x40, 0x09, 0x02, 0x00, 0x02, 0x00, 0x00, 0x00, 0x00, 0x10, 0x00, 0x00, 0x02, 0x00, 0x00, 0x00,
       0x00, 0x00, 0x00, 0x00, 0x00, 0x00, 0x00, 0x80, 0x77]
    = some (.fociFirst 0 ⟨⟨false, false, .s1, 0⟩, 2, 0, 2, 0, 0x1000, 2, 0x8000000000000000⟩ [0x77]) ∧
  decodeInstr [0x11, 0x30, 0x31, 0x42, 0x60] 0 [0x40, 0xF6, 0x34, 0x12]
    = some (.fociCont 0 ⟨⟨true, true, .s0, 15⟩, 0x1234⟩ []) ∧
  decodeInstr [0x11, 0x30, 0x31, 0x42, 0x60] 0 [0x60, 0x01] = some (.atomic60 0 [0x01]) ∧
  decodeInstr [0x11, 0x30, 0x31, 0x42, 0x60] 0 [0x00, 0x99] = some (.empty 0 [0x99])

/-- Repeat counts (spec/30_encoding.md R103): `Finite(n)` is written `n - 1` and `Infinite` as all ones, in 16 bits for MOD and
32 bits for FOCI, and the decoder's inverse gives the count back. -/
def Obligations.RepeatCountRoundTrip : Prop :=
  repWire .mod .infinite = 0xFFFF ∧ repWire .foci .infinite = 0xFFFFFFFF ∧
  (∀ k n, repWire k (.finite n) = n - 1) ∧
  (∀ w, repDec .mod w = if w = 0xFFFF then .infinite else .finite (w + 1)) ∧
  (∀ w, repDec .foci w = if w = 0xFFFFFFFF then .infinite else .finite (w + 1)) ∧
  (∀ k r, r.inDomain k = true → repDec k (repWire k r) = r)

/-- Transition fields (spec/30_encoding.md R102, spec/42_frame_deserializer.md R208, R227): the code and the value of every mode and
the mode of every code, as the tables of R102 and R227 give them; a mode with a pin in range and other than `Later` is written
as fields that pass `TM_VALID` and decode to itself; and `TM_VALID` holds of nothing but the five codes with, for GPIO, a pin
below 4. -/
def Obligations.TransitionModeRoundTrip : Prop :=
  (∀ (t : U64) (pin : Nat),
    (modeCode .syncIdx = 0x00 ∧ modeValue .syncIdx = 0) ∧ (modeCode (.sysTime t) = 0x01 ∧ modeValue (.sysTime t) = t) ∧
    (modeCode (.gpio pin) = 0x02 ∧ modeValue (.gpio pin) = BitVec.ofNat 64 pin) ∧ (modeCode .ext = 0xF0 ∧ modeValue .ext = 0) ∧
    (modeCode .immediate = 0xFF ∧ modeValue .immediate = 0) ∧ (modeCode .later = 0x00 ∧ modeValue .later = 0)) ∧
  (∀ v : U64, modeDec 0x00 v = .syncIdx ∧ modeDec 0x01 v = .sysTime v ∧ modeDec 0x02 v = .gpio v.toNat ∧
    modeDec 0xF0 v = .ext ∧ modeDec 0xFF v = .immediate) ∧
  (∀ m, m ≠ TransitionMode.later → (∀ pin, m = .gpio pin → pin < 4) →
    tmValid (modeCode m) (modeValue m) = true ∧ modeDec (modeCode m) (modeValue m) = m) ∧
  (∀ (c : Byte) (v : U64), tmValid c v = true ↔
    ((c = 0x00 ∨ c = 0x01 ∨ c = 0x02 ∨ c = 0xF0 ∨ c = 0xFF) ∧ (c = 0x02 → v.toNat < 4)))

/-! ## The step -/

/-- The model's own choice (log entry 8): commands stand in a queue. With a command at its head, the step is the command's meaning on
the state whose queue has moved past it. -/
def Obligations.StepRunsTheNextCommand : Prop :=
  ∀ (s : State) (i : Instr) (rest : List Turn), s.queue = .cmd i :: rest → step s = exec i { s with queue := rest }

/-- The device's fetch: when DELIVER d is next, `WIRE[d]` holds a frame that is new to device `d` with no slot two, and its
payload decodes to the instruction `i`, the step is `exec i` followed by the acknowledgement of the frame with the error `i`
gave (spec/42_frame_deserializer.md R200, R206, R229). A payload whose tag the deployment added to `ATOMIC_TAGS` is no instruction
of the opcode table (log entry 23): the step hands it to the consumer and acknowledges the consumer's byte (R225). -/
def Obligations.StepRunsTheDecodedSlot : Prop :=
  ∀ (s : State) (d : Nat) (rest : List Turn) (l : Lane) (f : Frame),
    s.queue = .cmd (.deliver d) :: rest → s.lanes[d]? = some l → decodeFrame l.wire = some f →
    f.msgId ≠ l.rx.ack.id → f.offset = 0 →
    (∀ i : Instr, decodeInstr s.params.atomicTags d f.payload = some i →
      ∃ t l' e, exec i { s with queue := rest } = .next t ∧ t.lanes[d]? = some l' ∧ t.ret = .slotErr e ∧
        step s = .next (withLane t d { l' with rx := { l'.rx with ack := ⟨f.msgId, e⟩ } } .ok)) ∧
    (∀ (tag : Byte) (body : List Byte), f.payload = tag :: body → tag ∈ s.params.atomicTags → tag ≠ 0x00 →
      step s = .next (withLane { s with queue := rest } d { l with rx := { consumedDevice l.rx tag body with
        ack := ⟨f.msgId, (l.rx.consumer.consume tag body).1.toByte⟩ } } .ok))

/-- Every new frame, whatever its slots hold (spec/42_frame_deserializer.md R200, R206, R215, R229, R230): when DELIVER d is next and
`WIRE[d]` holds a frame of `N` payload bytes that is new to device `d`, the step runs slot one, which is the whole payload when
the offset is 0 and the bytes below it otherwise; then, with an offset and no error from slot one, slot two on the state slot
one left; and acknowledges the id with the last error. `SlotRun` says what running a slot's bytes is: the decoded instruction's
`exec`, an ATOMIC tag that the deployment added handed to the consumer, or the error of bytes that are no format. -/
def Obligations.StepRunsEverySlotOfANewFrame : Prop :=
  ∀ (s : State) (d : Nat) (rest : List Turn) (l : Lane) (f : Frame),
    s.queue = .cmd (.deliver d) :: rest → s.lanes[d]? = some l → decodeFrame l.wire = some f →
    f.payload.length = s.params.n → 1 ≤ s.params.n → f.msgId ≠ l.rx.ack.id →
    (f.offset = 0 → ∃ t l' e, SlotRun { s with queue := rest } d f.payload t e ∧ t.lanes[d]? = some l' ∧
      step s = .next (withLane t d { l' with rx := { l'.rx with ack := ⟨f.msgId, e⟩ } } .ok)) ∧
    (f.offset ≠ 0 → f.offset.toNat < s.params.n →
      ∃ t1 l1 e1, SlotRun { s with queue := rest } d (f.payload.take f.offset.toNat) t1 e1 ∧ t1.lanes[d]? = some l1 ∧
        (e1 ≠ 0x00 → step s = .next (withLane t1 d { l1 with rx := { l1.rx with ack := ⟨f.msgId, e1⟩ } } .ok)) ∧
        (e1 = 0x00 → ∃ t2 l2 e2, SlotRun t1 d (f.payload.drop f.offset.toNat) t2 e2 ∧ t2.lanes[d]? = some l2 ∧
          step s = .next (withLane t2 d { l2 with rx := { l2.rx with ack := ⟨f.msgId, e2⟩ } } .ok)))

/-- The turns that are no instruction. The link's open and close change `LINK_OPEN` alone (spec/10_state.md R32). The model's own
choices: with an empty queue the step waits, leaving every field as it is (log entry 8), and the turn `parse d`, the host's read
of a record, is `ACK` of the bytes of `RXBUF[d]` (log entry 27). -/
def Obligations.StepPlaysTheOtherTurns : Prop :=
  ∀ (s : State) (rest : List Turn),
    (s.queue = [] → step s = .next s) ∧
    (s.queue = .linkOpen :: rest → step s = .next { s with linkOpen := true, queue := rest }) ∧
    (s.queue = .linkClose :: rest → step s = .next { s with linkOpen := false, queue := rest }) ∧
    (∀ (d : Nat) (l : Lane), s.queue = .parse d :: rest → s.lanes[d]? = some l →
      step s = .next { s with queue := rest,
                              ret := .parsed (if l.rxValid then some ⟨l.rxBuf.1, l.rxBuf.2⟩ else none) })

/-! ## Reset -/

/-- After `RESET` (spec/10_state.md R36): `MSG_ID` 0x00, `SESSION` idle, every device disabled with NULL slots that are done, zero
`TXBUF` and `WIRE`, no valid record, acknowledgement `(0x00, 0x00)`, every stream inactive with count 0. `LINK_OPEN` is not reset
by the block. `RESET` completes in every state. -/
def Obligations.ResetSetsTheResetValues : Prop :=
  ∀ s : State, ∃ t, exec .reset s = .next t ∧
    t.msgId = 0x00 ∧ t.session = .idle ∧ t.linkOpen = s.linkOpen ∧ t.lanes.length = s.lanes.length ∧
    ∀ (d : Nat) (l : Lane), t.lanes[d]? = some l →
      l.enabled = false ∧ l.pri = .null ∧ l.sec = .null ∧ l.pri.done = true ∧ l.sec.done = true ∧
      l.txbuf = List.replicate (4 + s.params.n) 0x00 ∧ l.wire = List.replicate (4 + s.params.n) 0x00 ∧
      l.rxValid = false ∧ l.rx.ack = ⟨0x00, 0x00⟩ ∧
      ∀ k seg, (l.rx.reasm.get k seg).active = false ∧ (l.rx.reasm.get k seg).count = 0

/-- The machine right after reset is in the state `RESET` leaves, for every deployment (spec/70_reset_and_hazards.md R310, R311):
`RESET` run on it changes nothing but the command's return value, and the message id of the first ISSUE after it, 0x01, is
new to every device. For the state that R311 leaves unspecified (`RXBUF`, the latched fields, `SEGBUF`, `tz`, `result`) this is
the model's choice of values: log entries 3, 4, 5, 6 and 21. -/
def Obligations.ResetStateIsFixedByReset : Prop :=
  ∀ (p : Params) (D : Nat),
    exec .reset (State.resetWith p D) = .next { State.resetWith p D with ret := .ok } ∧
    exec .issue (State.resetWith p D) = .next { State.resetWith p D with
      msgId := 0x01, ret := .ok,
      lanes := List.replicate D { Lane.reset p.n with txbuf := [0x01, 0x00, 0x00, 0x00] ++ List.replicate p.n 0x00 } } ∧
    (∀ l ∈ (State.resetWith p D).lanes, l.rx.ack.id ≠ 0x01)

/-- What each reset leaves alone (spec/70_reset_and_hazards.md R310, R323). `RESET` keeps the link's state, the parameters, the queue,
and each device's consumer and events. A lone host reset leaves the devices and the link as they are. A lone device reset touches
that device's acknowledgement, streams and segment buffers only. The model's own choices: that the parameters, the queue, the
consumers and the events stay (log entry 21); that no byte of a segment buffer has a value after a reset (log entry 5) and the
latched fields are 0 (log entry 4), both of which R311 leaves unspecified. -/
def Obligations.ResetsTouchTheirOwnSide : Prop :=
  ∀ (s : State) (rest : List Turn),
    (∀ t, exec .reset s = .next t → t.linkOpen = s.linkOpen ∧ t.params = s.params ∧ t.queue = s.queue ∧ t.hostPc = .idle ∧
      ∀ (d : Nat) (l l0 : Lane), t.lanes[d]? = some l → s.lanes[d]? = some l0 →
        l.rx.consumer = l0.rx.consumer ∧ l.rx.events = l0.rx.events ∧ ∀ k seg a, l.rx.segByte k seg a = none) ∧
    (s.queue = .resetHost :: rest → ∃ t, step s = .next t ∧ t.msgId = 0x00 ∧ t.session = .idle ∧ t.hostPc = .idle ∧
      t.queue = rest ∧ t.linkOpen = s.linkOpen ∧ t.params = s.params ∧ t.lanes.length = s.lanes.length ∧
      ∀ (d : Nat) (l0 : Lane), s.lanes[d]? = some l0 → t.lanes[d]? = some { l0 with
        enabled := false, pri := .null, sec := .null, txbuf := List.replicate (4 + s.params.n) 0x00 }) ∧
    (∀ (d : Nat) (l : Lane), s.queue = .resetDev d :: rest → s.lanes[d]? = some l →
      step s = .next { s with queue := rest,
                              lanes := s.lanes.set d { l with rx := { l.rx with
                                ack := ⟨0, 0⟩, reasm := ⟨Reasm.reset, Reasm.reset, Reasm.reset, Reasm.reset⟩,
                                segbuf := ⟨[], [], [], []⟩ } } })

/-! ## Slot formats on the device -/

/-- EMPTY decodes to nothing (spec/42_frame_deserializer.md R205): error 0x00 and no other change, whatever follows the tag. -/
def Obligations.EmptySlotDoesNothing : Prop :=
  ∀ (s : State) (d : Nat) (rest : List Byte), d < s.lanes.length → exec (.empty d rest) s = .next { s with ret := .slotErr 0x00 }

/-- MOD_FIRST, accepted (spec/42_frame_deserializer.md R209, R211, R215, R216, R222, R226): whatever the stream held, it starts
afresh: its samples are in the segment buffer from 0, it is active unless `END` is set, it holds the count and the header's
fields, and at `END` one `SET` event with them is emitted. Nothing else changes. -/
def Obligations.ModFirstStartsAStream : Prop :=
  ∀ (s : State) (d : Nat) (l : Lane) (h : ModFirst) (tail : List Byte), s.lanes[d]? = some l →
    h.flags.resv = 0 → (h.flags.trans = true → h.flags.last = true ∧ tmValid h.modeCode h.value = true) →
    1 ≤ h.size.toNat → h.size.toNat + h.size.toNat % 2 ≤ tail.length → h.size.toNat ≤ s.params.modMax →
    (h.flags.last = true → s.params.modMin ≤ h.size.toNat) →
    ∃ dev, exec (.modFirst d h tail) s = .next (withLane s d { l with rx := dev } (.slotErr 0x00)) ∧
      dev.reasm.get .mod h.flags.seg
        = ⟨!h.flags.last, h.size.toNat, ⟨h.freqDiv, h.rep.setWidth 32, h.modeCode, h.value, 0⟩⟩ ∧
      (∀ a, dev.segByte .mod h.flags.seg a
        = if a < h.size.toNat then tail[a]? else l.rx.segByte .mod h.flags.seg a) ∧
      OnlyStream l.rx dev .mod h.flags.seg ∧
      dev.events = l.rx.events ++ (if h.flags.last then
        [.set .mod h.flags.seg h.freqDiv h.size.toNat
          (if h.rep = 0xFFFF then .infinite else .finite (h.rep.toNat + 1))
          (if h.flags.trans then modeDec h.modeCode h.value else .later) none] else [])

/-- MOD_CONT, accepted (spec/42_frame_deserializer.md R215, R217, R222, R226): its samples are appended at the stream's count,
the latched fields stay, and at `END` the `SET` event carries them. Nothing else changes. -/
def Obligations.ModContAppends : Prop :=
  ∀ (s : State) (d : Nat) (l : Lane) (h : Cont) (tail : List Byte) (n : Nat) (la : Latch), s.lanes[d]? = some l →
    l.rx.reasm.get .mod h.flags.seg = ⟨true, n, la⟩ →
    h.flags.resv = 0 → (h.flags.trans = true → h.flags.last = true ∧ tmValid la.modeCode la.value = true) →
    1 ≤ h.size.toNat → h.size.toNat + h.size.toNat % 2 ≤ tail.length → n + h.size.toNat ≤ s.params.modMax →
    (h.flags.last = true → s.params.modMin ≤ n + h.size.toNat) →
    ∃ dev, exec (.modCont d h tail) s = .next (withLane s d { l with rx := dev } (.slotErr 0x00)) ∧
      dev.reasm.get .mod h.flags.seg = ⟨!h.flags.last, n + h.size.toNat, la⟩ ∧
      (∀ a, dev.segByte .mod h.flags.seg a
        = if n ≤ a ∧ a < n + h.size.toNat then tail[a - n]? else l.rx.segByte .mod h.flags.seg a) ∧
      OnlyStream l.rx dev .mod h.flags.seg ∧
      dev.events = l.rx.events ++ (if h.flags.last then
        [.set .mod h.flags.seg la.freqDiv (n + h.size.toNat)
          (if la.repWire = 0xFFFF then .infinite else .finite (la.repWire.toNat + 1))
          (if h.flags.trans then modeDec la.modeCode la.value else .later) none] else [])

/-- FOCI_FIRST, accepted (spec/42_frame_deserializer.md R209, R211, R215, R216, R222, R226): as MOD_FIRST with records of
`FOCI_REC_BYTES` bytes, no padding, a 32-bit repeat count and the sound speed; the reserved bytes play no part. -/
def Obligations.FociFirstStartsAStream : Prop :=
  ∀ (s : State) (d : Nat) (l : Lane) (h : FociFirst) (tail : List Byte), s.lanes[d]? = some l →
    h.flags.resv = 0 → (h.flags.trans = true → h.flags.last = true ∧ tmValid h.modeCode h.value = true) →
    1 ≤ h.size.toNat → h.size.toNat * s.params.fociRecBytes ≤ tail.length → h.size.toNat ≤ s.params.fociMax →
    (h.flags.last = true → s.params.fociMin ≤ h.size.toNat) →
    ∃ dev, exec (.fociFirst d h tail) s = .next (withLane s d { l with rx := dev } (.slotErr 0x00)) ∧
      dev.reasm.get .foci h.flags.seg
        = ⟨!h.flags.last, h.size.toNat, ⟨h.freqDiv, h.rep, h.modeCode, h.value, h.soundSpeed⟩⟩ ∧
      (∀ a, dev.segByte .foci h.flags.seg a
        = if a < h.size.toNat * s.params.fociRecBytes then tail[a]? else l.rx.segByte .foci h.flags.seg a) ∧
      OnlyStream l.rx dev .foci h.flags.seg ∧
      dev.events = l.rx.events ++ (if h.flags.last then
        [.set .foci h.flags.seg h.freqDiv h.size.toNat
          (if h.rep = 0xFFFFFFFF then .infinite else .finite (h.rep.toNat + 1))
          (if h.flags.trans then modeDec h.modeCode h.value else .later) (some h.soundSpeed)] else [])

/-- FOCI_CONT, accepted (spec/42_frame_deserializer.md R215, R217, R222, R226). -/
def Obligations.FociContAppends : Prop :=
  ∀ (s : State) (d : Nat) (l : Lane) (h : Cont) (tail : List Byte) (n : Nat) (la : Latch), s.lanes[d]? = some l →
    l.rx.reasm.get .foci h.flags.seg = ⟨true, n, la⟩ →
    h.flags.resv = 0 → (h.flags.trans = true → h.flags.last = true ∧ tmValid la.modeCode la.value = true) →
    1 ≤ h.size.toNat → h.size.toNat * s.params.fociRecBytes ≤ tail.length → n + h.size.toNat ≤ s.params.fociMax →
    (h.flags.last = true → s.params.fociMin ≤ n + h.size.toNat) →
    ∃ dev, exec (.fociCont d h tail) s = .next (withLane s d { l with rx := dev } (.slotErr 0x00)) ∧
      dev.reasm.get .foci h.flags.seg = ⟨!h.flags.last, n + h.size.toNat, la⟩ ∧
      (∀ a, dev.segByte .foci h.flags.seg a
        = if n * s.params.fociRecBytes ≤ a ∧ a < (n + h.size.toNat) * s.params.fociRecBytes
          then tail[a - n * s.params.fociRecBytes]? else l.rx.segByte .foci h.flags.seg a) ∧
      OnlyStream l.rx dev .foci h.flags.seg ∧
      dev.events = l.rx.events ++ (if h.flags.last then
        [.set .foci h.flags.seg la.freqDiv (n + h.size.toNat)
          (if la.repWire = 0xFFFFFFFF then .infinite else .finite (la.repWire.toNat + 1))
          (if h.flags.trans then modeDec la.modeCode la.value else .later) (some la.soundSpeed)] else [])

/-- A fragment with a bad flags byte (spec/42_frame_deserializer.md R207, R228): a reserved bit set, or `TRANSITION` without
`END`, is `E_INVALID_FLAGS` (0x03) whatever else it holds, and its stream is aborted; nothing else changes. -/
def Obligations.BadFlagsAbort : Prop :=
  ∀ (s : State) (i : Instr) (v : FragView) (l : Lane), fragView i = some v → s.lanes[v.d]? = some l →
    (v.flags.resv ≠ 0 ∨ (v.flags.trans = true ∧ v.flags.last = false)) →
    exec i s = .next (withLane s v.d { l with rx := abortedDevice l.rx v.k v.flags.seg } (.slotErr 0x03))

/-- A fragment with good flags and a size of 0, or with fewer bytes after its header than its padded payload, is
`E_INVALID_SLOT` (0x04), whether or not its stream is active, and its stream is aborted (spec/42_frame_deserializer.md R212,
R213, R228). -/
def Obligations.ShortOrEmptyFragmentsAbort : Prop :=
  ∀ (s : State) (i : Instr) (v : FragView) (l : Lane), fragView i = some v → s.lanes[v.d]? = some l →
    v.flags.resv = 0 → (v.flags.trans = true → v.flags.last = true) →
    (v.n = 0 ∨ v.tail.length < (if v.k = .mod then v.n + v.n % 2 else v.n * s.params.fociRecBytes)) →
    exec i s = .next (withLane s v.d { l with rx := abortedDevice l.rx v.k v.flags.seg } (.slotErr 0x04))

/-- A continuation of a stream that is not active is `E_INVALID_SEQUENCE` (0x02) (spec/42_frame_deserializer.md R210, R228). -/
def Obligations.ContinuationNeedsAStart : Prop :=
  ∀ (s : State) (i : Instr) (v : FragView) (l : Lane), fragView i = some v → s.lanes[v.d]? = some l →
    v.hdr = none → (l.rx.reasm.get v.k v.flags.seg).active = false →
    v.flags.resv = 0 → (v.flags.trans = true → v.flags.last = true) → v.n ≠ 0 →
    (if v.k = .mod then v.n + v.n % 2 else v.n * s.params.fociRecBytes) ≤ v.tail.length →
    exec i s = .next (withLane s v.d { l with rx := abortedDevice l.rx v.k v.flags.seg } (.slotErr 0x02))

/-- A fragment that passes the earlier checks is judged by the header in force, its own for a first fragment and the latched one
for a continuation of an active stream: with `TRANSITION` set and fields that fail `TM_VALID` it is `E_INVALID_TRANSITION`
(0x06); otherwise, with a total above `MAX`, or at `END` below `MIN`, it is `E_SIZE_OUT_OF_RANGE` (0x05)
(spec/42_frame_deserializer.md R208, R214, R224, R228). -/
def Obligations.BadTransitionOrSizeAborts : Prop :=
  ∀ (s : State) (i : Instr) (v : FragView) (l : Lane) (hdr : Latch) (base : Nat),
    fragView i = some v → s.lanes[v.d]? = some l →
    ((v.hdr = some hdr ∧ base = 0) ∨ (v.hdr = none ∧ l.rx.reasm.get v.k v.flags.seg = ⟨true, base, hdr⟩)) →
    v.flags.resv = 0 → (v.flags.trans = true → v.flags.last = true) → v.n ≠ 0 →
    (if v.k = .mod then v.n + v.n % 2 else v.n * s.params.fociRecBytes) ≤ v.tail.length →
    ((v.flags.trans = true ∧ tmValid hdr.modeCode hdr.value = false →
      exec i s = .next (withLane s v.d { l with rx := abortedDevice l.rx v.k v.flags.seg } (.slotErr 0x06))) ∧
    ((v.flags.trans = true → tmValid hdr.modeCode hdr.value = true) →
      ((if v.k = .mod then s.params.modMax else s.params.fociMax) < base + v.n ∨
        (v.flags.last = true ∧ base + v.n < (if v.k = .mod then s.params.modMin else s.params.fociMin))) →
      exec i s = .next (withLane s v.d { l with rx := abortedDevice l.rx v.k v.flags.seg } (.slotErr 0x05))))

/-- ATOMIC slots (spec/42_frame_deserializer.md R206, R225): each of the five tags, when it is one of the deployment's
`ATOMIC_TAGS`, is handed whole, tag and bytes, to the consumer, and the consumer's answer is the slot's status byte: 0x00 for
accepted, or a code of 0x10 or more. A tag the deployment does not have is `E_INVALID_TAG` (0x01) and changes nothing. A tag the
deployment added is handed over alike when a new frame carries it. The consumer answers as a function of the tag, the bytes and
its own state: as the first line of its table that names them, and its default with its state kept when no line does (the table
is the model's form of the parameter, log entry 10). -/
def Obligations.AtomicSlotsGoToTheConsumer : Prop :=
  (∀ (s : State) (d : Nat) (l : Lane) (body : List Byte) (tag : Byte) (i : Instr), s.lanes[d]? = some l →
    (tag, i) ∈ [((0x11 : Byte), Instr.atomic11 d body), (0x30, .atomic30 d body), (0x31, .atomic31 d body),
      (0x42, .atomic42 d body), (0x60, .atomic60 d body)] →
    (tag ∉ s.params.atomicTags → exec i s = .next { s with ret := .slotErr 0x01 }) ∧
    (tag ∈ s.params.atomicTags →
      exec i s = .next (withLane s d { l with rx := { l.rx with
        events := l.rx.events ++ [.atomic tag body],
        consumer := (l.rx.consumer.consume tag body).2 } } (.slotErr (l.rx.consumer.consume tag body).1.toByte)))) ∧
  (∀ (s : State) (d : Nat) (l : Lane) (f : Frame) (tag : Byte) (body : List Byte), s.lanes[d]? = some l →
    f.payload.length = s.params.n → f.msgId ≠ l.rx.ack.id → f.offset = 0 → f.payload = tag :: body →
    tag ∈ s.params.atomicTags → tag ≠ 0x00 →
    exec (.frame d f) s = .next (withLane s d { l with rx := { l.rx with
      events := l.rx.events ++ [.atomic tag body], consumer := (l.rx.consumer.consume tag body).2,
      ack := ⟨f.msgId, (l.rx.consumer.consume tag body).1.toByte⟩ } } .ok)) ∧
  (∀ (c : Consumer) (tag : Byte) (body : List Byte),
    let named (r : ConsumerRule) : Prop := (r.state = none ∨ r.state = some c.state) ∧ (r.tag = none ∨ r.tag = some tag) ∧
      (r.body = none ∨ r.body = some body)
    (∀ before r rest, c.rules = before ++ r :: rest → (∀ q ∈ before, ¬ named q) → named r →
      c.consume tag body = (r.answer, { c with state := r.next.getD c.state })) ∧
    ((∀ q ∈ c.rules, ¬ named q) → c.consume tag body = (c.dflt, c))) ∧
  (ConsumerAnswer.accepted.toByte = 0x00 ∧ ∀ c : Fin 240, (ConsumerAnswer.code c).toByte.toNat = 16 + c.val)

/-! ## Frames -/

/-- The duplicate filter (spec/42_frame_deserializer.md R201): a frame whose id is the device's last one changes nothing, and
any other frame of the right length is taken as new: the device's acknowledgement then carries its id. The reserved header
byte is not read (R203): frames that differ only in it are processed alike. -/
def Obligations.DuplicateFramesAreIgnored : Prop :=
  ∀ (s : State) (d : Nat) (l : Lane) (b0 : Byte) (B : List Byte), s.lanes[d]? = some l → (b0 :: B).length = 4 + s.params.n →
    (b0 = l.rx.ack.id → exec (.devRx d (b0 :: B)) s = .next { s with ret := .ok }) ∧
    (b0 ≠ l.rx.ack.id → ∃ dev, exec (.devRx d (b0 :: B)) s = .next (withLane s d { l with rx := dev } .ok) ∧ dev.ack.id = b0) ∧
    (∀ x y rest, B = x :: rest → exec (.devRx d (b0 :: y :: rest)) s = exec (.devRx d (b0 :: B)) s)

/-- A non-zero slot-two offset that is not below `N` (spec/42_frame_deserializer.md R204): neither slot is decoded, and the
acknowledgement records the id with `E_INVALID_SLOT` (0x04). The offset is bytes 2 and 3, little-endian. -/
def Obligations.OffsetOutOfRangeDecodesNothing : Prop :=
  ∀ (s : State) (d : Nat) (l : Lane) (b0 b1 b2 b3 : Byte) (pay : List Byte), s.lanes[d]? = some l →
    pay.length = s.params.n → b0 ≠ l.rx.ack.id → b2.toNat + 256 * b3.toNat ≠ 0 →
    s.params.n ≤ b2.toNat + 256 * b3.toNat →
    exec (.devRx d (b0 :: b1 :: b2 :: b3 :: pay)) s
      = .next (withLane s d { l with rx := { l.rx with ack := ⟨b0, 0x04⟩ } } .ok)

/-- A new frame with a slot that is no slot format (spec/42_frame_deserializer.md R200, R206, R212, R228, R229): a tag in no class
gives 0x01 and touches no stream; a streaming tag alone, with no flags byte, gives 0x04 and aborts no stream; a streaming fragment
cut off inside its header aborts its stream and gives 0x03 if its flags byte is bad and 0x04 if not. If it is slot one, with or
without a slot two, the frame is acknowledged with that error and slot two is not decoded. If it is slot two and slot one was an
instruction that gave no error, the frame is acknowledged with slot two's error and slot one's effects stay. -/
def Obligations.UndecodableSlotsAreAcknowledged : Prop :=
  ∀ (s : State) (d : Nat) (l : Lane) (f : Frame), s.lanes[d]? = some l → f.payload.length = s.params.n →
    f.msgId ≠ l.rx.ack.id →
    let rejected (r : SlotReject) (dev : Device) : Device := match r with
      | .noTag => dev
      | .unknownTag _ => dev
      | .noFlags _ => dev
      | .shortHeader k _ fl => abortedDevice dev k fl.seg
    let error (r : SlotReject) : Byte := match r with
      | .noTag => 0x04
      | .unknownTag _ => 0x01
      | .noFlags _ => 0x04
      | .shortHeader _ _ fl => if fl.resv ≠ 0 ∨ (fl.trans = true ∧ fl.last = false) then 0x03 else 0x04
    (∀ r, f.offset = 0 → decodeSlot s.params.atomicTags f.payload = .error r →
      exec (.frame d f) s = .next (withLane s d { l with rx := { rejected r l.rx with ack := ⟨f.msgId, error r⟩ } } .ok)) ∧
    (∀ r, f.offset ≠ 0 → f.offset.toNat < s.params.n →
      decodeSlot s.params.atomicTags (f.payload.take f.offset.toNat) = .error r →
      exec (.frame d f) s = .next (withLane s d { l with rx := { rejected r l.rx with ack := ⟨f.msgId, error r⟩ } } .ok)) ∧
    (∀ (r : SlotReject) (i : Instr) (t : State) (l' : Lane), f.offset ≠ 0 → f.offset.toNat < s.params.n →
      decodeInstr s.params.atomicTags d (f.payload.take f.offset.toNat) = some i → exec i s = .next t →
      t.ret = .slotErr 0x00 → t.lanes[d]? = some l' →
      decodeSlot s.params.atomicTags (f.payload.drop f.offset.toNat) = .error r →
      exec (.frame d f) s = .next (withLane t d { l' with rx := { rejected r l'.rx with ack := ⟨f.msgId, error r⟩ } } .ok))

/-- DELIVER, DEV_RX and FRAME are the same processing of one whole frame (spec/20_memory.md R66, spec/42_frame_deserializer.md
R200): of `WIRE[d]`, of given bytes, of given fields. Each completes on every frame of `4 + N` bytes and writes device `d`'s
state and nothing else. -/
def Obligations.DeliverDevRxAndFrameAgree : Prop :=
  ∀ (s : State) (d : Nat) (l : Lane), s.lanes[d]? = some l →
    (l.wire.length = 4 + s.params.n → exec (.deliver d) s = exec (.devRx d l.wire) s ∧
      ∃ dev, exec (.deliver d) s = .next (withLane s d { l with rx := dev } .ok)) ∧
    (∀ f : Frame, f.payload.length = s.params.n →
      exec (.frame d f) s
          = exec (.devRx d ([f.msgId, f.resv, BitVec.ofNat 8 (f.offset.toNat % 256),
              BitVec.ofNat 8 (f.offset.toNat / 256)] ++ f.payload)) s ∧
      ∃ dev, exec (.frame d f) s = .next (withLane s d { l with rx := dev } .ok))

/-- Delivering the same frame twice in a row has the effect of delivering it once (spec/20_memory.md R68). -/
def Obligations.RepeatedDeliveryIsHarmless : Prop :=
  ∀ (s t : State) (d : Nat), exec (.deliver d) s = .next t → exec (.deliver d) t = .next t

/-- ACK (spec/43_ack_matcher.md R240): while `RXVALID[d] = 0` there is no record, and none is returned; while it is 1, the record
returned is the instruction's own operand, whatever `RXBUF[d]` holds, which is the model's choice (log entry 27: the turn `parse d`
is what reads `RXBUF[d]`, as R240 says). Nothing else changes. -/
def Obligations.AckParseReturnsTheRecord : Prop :=
  ∀ (s : State) (d : Nat) (l : Lane) (a : AckRec), s.lanes[d]? = some l →
    exec (.ack d a) s = .next { s with ret := .parsed (if l.rxValid then some a else none) }

/-! ## The fragment codec -/

/-- LOAD (spec/40_fragment_codec.md R140): outside a running call, an operation with its fields in their domains is bound with
cursor 0 and not done (NULL: done) unless a check fails, and then the error is the first that applies and the slot keeps its
content (spec/60_exceptions.md R296). Nothing else changes. `loadedSlot` is LOAD's result for the statements about a call. -/
def Obligations.LoadBindsOrRaises : Prop :=
  ∀ (s : State) (d : Nat) (l : Lane) (ix : SlotIx), s.lanes[d]? = some l → s.session ≠ .sending → s.session ≠ .awaitingAck →
    exec (.load d ix .null) s = .next (withLane s d (l.setOp ix .null) .ok) ∧
    (∀ (k : Kind) (o : StreamOp) (ss : U32) (op : Operation), (op = if k = .mod then .mod o else .foci o ss) →
      op.inDomain = true →
      (((∃ pin, o.mode = .gpio pin ∧ 4 ≤ pin) ∨ (o.mode, o.seg) ∈ s.params.notOk) →
        exec (.load d ix op) s = .next { s with ret := .error (.invalidTransition o.mode) }) ∧
      ((∀ pin, o.mode = .gpio pin → pin < 4) → (o.mode, o.seg) ∉ s.params.notOk →
        (k = .foci → (∃ r ∈ o.data, r.length ≠ s.params.fociRecBytes) →
          exec (.load d ix op) s = .next { s with ret := .error (.invalidOperation .recordWidth) }) ∧
        ((k = .foci → ∀ r ∈ o.data, r.length = s.params.fociRecBytes) →
          exec (.load d ix op) s = .next (withLane s d (l.setOp ix (streamSlot k o ss 0 false)) .ok)))) ∧
    (∀ (tag : Byte) (body : List Byte),
      (tag ∈ s.params.atomicTags →
        exec (.load d ix (.atomic tag body)) s = .next (withLane s d (l.setOp ix (.atomic tag body false)) .ok)) ∧
      (tag ∉ s.params.atomicTags →
        exec (.load d ix (.atomic tag body)) s = .next { s with ret := .error (.invalidOperation .tag) })) ∧
    (∀ op : Operation, op.inDomain = true →
      (∀ o, loadedSlot s.params op = .ok o → exec (.load d ix op) s = .next (withLane s d (l.setOp ix o) .ok)) ∧
      (∀ e, loadedSlot s.params op = .error e → exec (.load d ix op) s = .next { s with ret := .error e }))

/-- What is refused, by name. A second call while `SESSION` is `Sending` or `AwaitingAck` (spec/70_reset_and_hazards.md R320), and,
by the model's choice (log entry 11), while the first call's ENABLEs and LOADs are given, which R320's condition on `SESSION` does
not cover. A LOAD while `SESSION` is `Sending` or `AwaitingAck`: R321 refuses it between two batches of a call, and elsewhere in
the call the refusal is the model's choice (log entry 29). An operation with a field outside its domain, a call or a RECEIVE
without one entry a device (spec/60_exceptions.md R293; log entry 19), and a command on a device that does not exist (log entry
19). -/
def Obligations.RefusalsAreByName : Prop :=
  (∀ (s : State) (calls : List DeviceCall) (timeout : Nat),
    ((s.session = .sending ∨ s.session = .awaitingAck ∨ ∃ todo, s.hostPc = .setup todo) →
      exec (.sendDatagram calls timeout) s = .refused .callInFlight) ∧
    (s.session ≠ .sending → s.session ≠ .awaitingAck → (∀ todo, s.hostPc ≠ .setup todo) →
      (calls.length ≠ s.lanes.length ∨ ∃ c ∈ calls, c.enabled = true ∧ (c.pri.inDomain = false ∨ c.sec.inDomain = false)) →
      exec (.sendDatagram calls timeout) s = .refused .operandDomain)) ∧
  (∀ (s : State) (d : Nat) (ix : SlotIx) (op : Operation), d < s.lanes.length →
    ((s.session = .sending ∨ s.session = .awaitingAck) → exec (.load d ix op) s = .refused .loadInCall) ∧
    (s.session ≠ .sending → s.session ≠ .awaitingAck → op.inDomain = false →
      exec (.load d ix op) s = .refused .operandDomain)) ∧
  (∀ (s : State) (io : Bool) (draws : List RxDraw), draws.length ≠ s.lanes.length →
    exec (.receive io draws) s = .refused .operandDomain) ∧
  (∀ (s : State) (d : Nat) (ix : SlotIx) (op : Operation) (b : Bool) (B : List Byte) (f : Frame) (a : AckRec) (h : Cont)
    (m : ModFirst) (g : FociFirst) (x y : Nat), s.lanes.length ≤ d →
    ∀ i ∈ [Instr.load d ix op, .enable d b, .requiredSize d ix, .packMod d ix B x y, .packFoci d ix B x y,
      .packAtomic d ix B x y, .deliver d, .devRx d B, .frame d f, .ack d a, .empty d B, .modFirst d m B, .modCont d h B,
      .fociFirst d g B, .fociCont d h B, .atomic11 d B, .atomic30 d B, .atomic31 d B, .atomic42 d B, .atomic60 d B],
      exec i s = .refused (.noSuchDevice d))

/-- ENABLE (spec/40_fragment_codec.md R143): `ENABLED[d] <- b` and nothing else. -/
def Obligations.EnableSetsTheBit : Prop :=
  ∀ (s : State) (d : Nat) (l : Lane) (b : Bool), s.lanes[d]? = some l →
    exec (.enable d b) s = .next (withLane s d { l with enabled := b } .ok)

/-- REQUIRED_SIZE (spec/40_fragment_codec.md R145): 0 when done; 18 then 6 for MOD; `24 + FOCI_REC_BYTES` then
`4 + FOCI_REC_BYTES` for FOCI; `1 + body` for ATOMIC. Nothing is written. -/
def Obligations.RequiredSizeReturnsTheMinimum : Prop :=
  ∀ (s : State) (d : Nat) (l : Lane) (k : SlotIx), s.lanes[d]? = some l →
    ∃ n, exec (.requiredSize d k) s = .next { s with ret := .size n } ∧
      ((l.op k).done = true → n = 0) ∧
      (∀ o sent, l.op k = .mod o sent false → n = if sent = 0 then 18 else 6) ∧
      (∀ o ss sent, l.op k = .foci o ss sent false → n = (if sent = 0 then 24 else 4) + s.params.fociRecBytes) ∧
      (∀ tag body, l.op k = .atomic tag body false → n = 1 + body.length)

/-- The header bytes of a fragment of `n` units as spec/40_fragment_codec.md R150 writes them, with the flags of R155 summed from
their bits, little-endian fields spelled byte by byte. -/
def Sys2Proof.Machine.headerBytes (k : Kind) (ss : U32) (o : StreamOp) (sent n : Nat) : List Byte :=
  let final : Prop := sent + n = o.data.length
  let flags : Nat := (if sent = 0 then 1 else 0) + (if final then 2 else 0)
    + (if final ∧ o.mode ≠ .later then 4 else 0) + (if o.seg = .s1 then 8 else 0)
  let byte (v i : Nat) : Byte := BitVec.ofNat 8 (v / 256 ^ i)
  let tag : Byte := if k = .mod then 0x10 else 0x40
  let fd := o.freqDiv.toNat
  let tv := (modeValue o.mode).toNat
  if sent = 0 then
    [tag, BitVec.ofNat 8 flags, BitVec.ofNat 8 n, modeCode o.mode, byte fd 0, byte fd 1] ++
    (match k with
      | .mod => [byte (repWire .mod o.rep) 0, byte (repWire .mod o.rep) 1]
      | .foci => [0x00, 0x00, byte ss.toNat 0, byte ss.toNat 1, byte ss.toNat 2, byte ss.toNat 3,
          byte (repWire .foci o.rep) 0, byte (repWire .foci o.rep) 1, byte (repWire .foci o.rep) 2,
          byte (repWire .foci o.rep) 3]) ++
    [byte tv 0, byte tv 1, byte tv 2, byte tv 3, byte tv 4, byte tv 5, byte tv 6, byte tv 7]
  else [tag, BitVec.ofNat 8 flags, byte n 0, byte n 1]

/-- PACK_MOD (spec/40_fragment_codec.md R150 to R155, R158): on an undone MOD slot of single-byte units whose checks pass, the
fragment carries `n = min(rem, avail, cap)` samples, `avail` even; its header, samples in order and pad byte are written at
`base`, the rest of the buffer stays, the cursor advances by `n`, `done` is set at the end, and the bytes written fit the
budget. Nothing else changes. -/
def Obligations.PackModWritesTheNextFragment : Prop :=
  ∀ (s : State) (d : Nat) (l : Lane) (k : SlotIx) (buf : List Byte) (base budget : Nat) (o : StreamOp) (sent n : Nat),
    s.lanes[d]? = some l → l.op k = .mod o sent false → o.rep.inDomain .mod = true → (∀ u ∈ o.data, u.length = 1) →
    buf.length = s.params.n → base + budget ≤ s.params.n →
    (if sent = 0 then 18 else 6) ≤ budget → (sent = 0 → o.data.length ≤ s.params.modMax) →
    n = min (o.data.length - sent)
      (min (2 * ((budget - (if sent = 0 then 16 else 4)) / 2)) (if sent = 0 then 254 else 0xFFFE)) →
    (sent + n = o.data.length → s.params.modMin ≤ o.data.length) →
    let frag := headerBytes .mod 0 o sent n ++ ((o.data.drop sent).take n).flatten ++ (if n % 2 = 1 then [0x00] else [])
    exec (.packMod d k buf base budget) s
      = .next (withLane s d (l.setOp k (.mod o (sent + n) (decide (sent + n = o.data.length))))
          (.packed (buf.take base ++ frag ++ buf.drop (base + frag.length)) frag.length)) ∧
    frag.length ≤ budget ∧ (sent < o.data.length → 1 ≤ n)

/-- PACK_FOCI (spec/40_fragment_codec.md R150 to R155, R159): as PACK_MOD with records of `FOCI_REC_BYTES` bytes and no padding
ever. -/
def Obligations.PackFociWritesTheNextFragment : Prop :=
  ∀ (s : State) (d : Nat) (l : Lane) (k : SlotIx) (buf : List Byte) (base budget : Nat) (o : StreamOp) (ss : U32)
    (sent n : Nat),
    s.lanes[d]? = some l → l.op k = .foci o ss sent false → o.rep.inDomain .foci = true → 1 ≤ s.params.fociRecBytes →
    (∀ u ∈ o.data, u.length = s.params.fociRecBytes) → buf.length = s.params.n → base + budget ≤ s.params.n →
    (if sent = 0 then 24 else 4) + s.params.fociRecBytes ≤ budget → (sent = 0 → o.data.length ≤ s.params.fociMax) →
    n = min (o.data.length - sent)
      (min ((budget - (if sent = 0 then 24 else 4)) / s.params.fociRecBytes) (if sent = 0 then 255 else 0xFFFF)) →
    (sent + n = o.data.length → s.params.fociMin ≤ o.data.length) →
    let frag := headerBytes .foci ss o sent n ++ ((o.data.drop sent).take n).flatten
    exec (.packFoci d k buf base budget) s
      = .next (withLane s d (l.setOp k (.foci o ss (sent + n) (decide (sent + n = o.data.length))))
          (.packed (buf.take base ++ frag ++ buf.drop (base + frag.length)) frag.length)) ∧
    frag.length ≤ budget ∧ (sent < o.data.length → 1 ≤ n)

/-- PACK_ATOMIC (spec/40_fragment_codec.md R160): a done operation is refused with `InvalidOperation`, a budget below `1 + body` is
`InsufficientBuffer` and nothing is written; otherwise the tag and the body are written at `base` and the slot is done. -/
def Obligations.PackAtomicWritesWholeOrNothing : Prop :=
  ∀ (s : State) (d : Nat) (l : Lane) (k : SlotIx) (buf : List Byte) (base budget : Nat) (tag : Byte) (body : List Byte)
    (done : Bool),
    s.lanes[d]? = some l → l.op k = .atomic tag body done → buf.length = s.params.n → base + budget ≤ s.params.n →
    exec (.packAtomic d k buf base budget) s =
      if done then .next { s with ret := .error (.invalidOperation .packedAfterDone) }
      else if budget < 1 + body.length then .next { s with ret := .error (.insufficientBuffer (1 + body.length) budget) }
      else .next (withLane s d (l.setOp k (.atomic tag body true))
        (.packed (buf.take base ++ (tag :: body) ++ buf.drop (base + (1 + body.length))) (1 + body.length)))

/-- The errors of a streaming pack, in their order (spec/40_fragment_codec.md R151, R154, R156, R157, spec/60_exceptions.md R296):
done, whatever the slot's kind, NULL included; then `MAX` before the first fragment; then the buffer size; then `MIN` at the
final fragment. Nothing changes but the error returned. That an undone slot of another kind is refused with `kindMismatch` is the
model's choice (log entry 18). -/
def Obligations.PackErrorsInOrder : Prop :=
  ∀ (s : State) (d : Nat) (l : Lane) (ix : SlotIx) (buf : List Byte) (base budget : Nat),
    s.lanes[d]? = some l → buf.length = s.params.n → base + budget ≤ s.params.n →
    ((l.op ix).done = true → ∀ i ∈ [Instr.packMod d ix buf base budget, .packFoci d ix buf base budget,
        .packAtomic d ix buf base budget],
      exec i s = .next { s with ret := .error (.invalidOperation .packedAfterDone) }) ∧
    (∀ (k k' : Kind) (o : StreamOp) (ss : U32) (sent : Nat), l.op ix = streamSlot k o ss sent false → k' ≠ k →
      exec (packInstr k' d ix buf base budget) s = .refused .kindMismatch ∧
      exec (.packAtomic d ix buf base budget) s = .refused .kindMismatch) ∧
    (∀ (k : Kind) (tag : Byte) (body : List Byte), l.op ix = .atomic tag body false →
      exec (packInstr k d ix buf base budget) s = .refused .kindMismatch) ∧
    (∀ (k : Kind) (o : StreamOp) (ss : U32) (sent : Nat), l.op ix = streamSlot k o ss sent false →
      let maxUnits := if k = .mod then s.params.modMax else s.params.fociMax
      let minUnits := if k = .mod then s.params.modMin else s.params.fociMin
      let header := if sent = 0 then (if k = .mod then 16 else 24) else 4
      let need := header + (if k = .mod then 2 else s.params.fociRecBytes)
      (sent = 0 → maxUnits < o.data.length →
        exec (packInstr k d ix buf base budget) s = .next { s with ret := .error (.sizeOutOfRange o.data.length) }) ∧
      ((sent = 0 → o.data.length ≤ maxUnits) → budget < need →
        exec (packInstr k d ix buf base budget) s = .next { s with ret := .error (.insufficientBuffer need budget) }) ∧
      ((sent = 0 → o.data.length ≤ maxUnits) → need ≤ budget → o.data.length < minUnits → sent ≤ o.data.length →
        o.data.length - sent ≤ (if k = .mod then 2 * ((budget - header) / 2) else (budget - header) / s.params.fociRecBytes) →
        o.data.length - sent ≤ (if k = .mod then (if sent = 0 then 254 else 0xFFFE) else (if sent = 0 then 255 else 0xFFFF)) →
        exec (packInstr k d ix buf base budget) s = .next { s with ret := .error (.sizeOutOfRange o.data.length) }))

/-- Windows and buffers of the wrong size. A pack command with `base + budget > N` faults, whatever its slot holds (the third fault of
spec/60_exceptions.md R292). The rest is the model's choice (log entries 18 and 19): a payload buffer of fewer than `N` bytes, or a
FRAME or DEV_RX of fewer than `4 + N` bytes, faults before anything is packed or decoded, whether or not a read or copy would fall
outside it (only that is R292's first fault); a longer buffer or frame is refused. -/
def Obligations.WrongSizedBuffersStop : Prop :=
  (∀ (s : State) (d : Nat) (k : SlotIx) (buf : List Byte) (base budget : Nat) (i : Instr), d < s.lanes.length →
    i ∈ [Instr.packMod d k buf base budget, .packFoci d k buf base budget, .packAtomic d k buf base budget] →
    (s.params.n < base + budget → exec i s = .fault .packBudget) ∧
    (base + budget ≤ s.params.n → buf.length < s.params.n → exec i s = .fault .memOutside) ∧
    (base + budget ≤ s.params.n → s.params.n < buf.length → exec i s = .refused .operandDomain)) ∧
  (∀ (s : State) (d : Nat) (f : Frame) (B : List Byte), d < s.lanes.length →
    (f.payload.length < s.params.n → exec (.frame d f) s = .fault .memOutside) ∧
    (s.params.n < f.payload.length → exec (.frame d f) s = .refused .operandDomain) ∧
    (B.length < 4 + s.params.n → exec (.devRx d B) s = .fault .memOutside) ∧
    (4 + s.params.n < B.length → exec (.devRx d B) s = .refused .operandDomain))

/-- The number of units of a payload of `L` units packed after `j` fragments with a budget of `b` bytes each. -/
def Sys2Proof.Machine.unitsAfter (p : Params) (k : Kind) (o : StreamOp) (b : Nat) : Nat → Nat
  | 0 => 0
  | j + 1 => unitsAfter p k o b j + unitCount p k o (unitsAfter p k o b j) b

/-- Fragment count (spec/40_fragment_codec.md R162): packed always with the budget `b`, at least the bytes a first fragment needs,
a payload of `L >= 1` units takes one fragment when `L <= n1` and `1 + ceil((L - n1) / nc)` otherwise: after that many all
units are packed, and after fewer they are not. Each fragment carries the unit count of R152. -/
def Obligations.FragmentCountOfAPayload : Prop :=
  ∀ (p : Params) (k : Kind) (o : StreamOp) (b n1 nc j : Nat), 1 ≤ p.fociRecBytes → 1 ≤ o.data.length →
    n1 = (if k = .mod then min (2 * ((b - 16) / 2)) 254 else min ((b - 24) / p.fociRecBytes) 255) →
    nc = (if k = .mod then min (2 * ((b - 4) / 2)) 0xFFFE else min ((b - 4) / p.fociRecBytes) 0xFFFF) →
    (if k = .mod then 18 else 24 + p.fociRecBytes) ≤ b →
    (∀ sent budget, unitCount p k o sent budget = min (o.data.length - sent)
      (min (if k = .mod then 2 * ((budget - (if sent = 0 then 16 else 4)) / 2)
          else (budget - (if sent = 0 then 24 else 4)) / p.fociRecBytes)
        (if k = .mod then (if sent = 0 then 254 else 0xFFFE) else (if sent = 0 then 255 else 0xFFFF)))) ∧
    let frags := if o.data.length ≤ n1 then 1 else 1 + (o.data.length - n1 + nc - 1) / nc
    (j < frags → unitsAfter p k o b j < o.data.length) ∧ (frags ≤ j → unitsAfter p k o b j = o.data.length)

/-! ## The batch -/

/-- ISSUE packs every device on its own (spec/41_dual_slot_packer.md R186, R187): when every device's pack succeeds the next state
has each device's own result, in place, with the new id; nothing else changes. -/
def Obligations.IssuePacksEveryDevice : Prop :=
  ∀ (s : State) (ls : List Lane), ls.length = s.lanes.length →
    (∀ (d : Nat) (l : Lane), s.lanes[d]? = some l → ∃ l', ls[d]? = some l' ∧ packDevice s.params (s.msgId + 1) l = .ok l') →
    exec .issue s = .next { s with msgId := s.msgId + 1, lanes := ls, ret := .ok }

/-- ISSUE completes (spec/41_dual_slot_packer.md R186): when every undone operation of an enabled device has a payload within `MIN`
and `MAX` and fits a frame on its own, a batch is built: the id is the next one, and of each device at most the frame buffer
and the two slots change. -/
def Obligations.IssueSucceedsWithinTheBounds : Prop :=
  ∀ s : State,
    (∀ l ∈ s.lanes, l.enabled = true → ∀ ix, (l.op ix).done = false →
      match l.op ix with
      | .null => True
      | .mod o _ _ => s.params.modMin ≤ o.data.length ∧ o.data.length ≤ s.params.modMax ∧ 18 ≤ s.params.n
      | .foci o _ _ _ => s.params.fociMin ≤ o.data.length ∧ o.data.length ≤ s.params.fociMax ∧
          24 + s.params.fociRecBytes ≤ s.params.n
      | .atomic _ body _ => 1 + body.length ≤ s.params.n) →
    ∃ ls, exec .issue s = .next { s with msgId := s.msgId + 1, lanes := ls, ret := .ok } ∧ ls.length = s.lanes.length ∧
      ∀ (d : Nat) (l : Lane), s.lanes[d]? = some l →
        ∃ B o1 o2, ls[d]? = some { l with txbuf := B, pri := o1, sec := o2 } ∧
          (l.enabled = false → o1 = l.pri ∧ o2 = l.sec) ∧ (l.pri.done = true → o1 = l.pri) ∧ (l.sec.done = true → o2 = l.sec)

/-- ISSUE on an error (spec/41_dual_slot_packer.md R186): the least-indexed failing device's error is raised, `MSG_ID` keeps its
increment, and nothing else changes: no slot of any device, no frame buffer. -/
def Obligations.IssueErrorRestoresEverySlot : Prop :=
  ∀ (s : State) (d : Nat) (l : Lane) (e : HostError), s.lanes[d]? = some l →
    packDevice s.params (s.msgId + 1) l = .error e →
    (∀ (d' : Nat) (l' : Lane), d' < d → s.lanes[d']? = some l' → ∃ l'', packDevice s.params (s.msgId + 1) l' = .ok l'') →
    exec .issue s = .next { s with msgId := s.msgId + 1, ret := .error e }

/-- The multiplexer (spec/41_dual_slot_packer.md R181 to R185). A device that is not enabled, or whose operations are both done, gets
the empty frame and keeps its slots. Otherwise the primary goes first and its error ends the device; the secondary goes beside
it, at the offset of the primary's length, if what remains holds its required size, and waits untouched with offset 0 if not;
alone, when the primary is done, it goes into slot one. The offset is little-endian in bytes 2 and 3 and the payload is
zero-filled. `packSlot` is `PACK`: PACK_MOD, PACK_FOCI or PACK_ATOMIC by the slot's kind, whose bytes the statements about those
commands give, and an error for a NULL slot (spec/40_fragment_codec.md R156, R161); `requiredSize` is what REQUIRED_SIZE returns. -/
def Obligations.DualSlotMultiplexing : Prop :=
  (∀ (s : State) (d : Nat) (l : Lane) (ix : SlotIx) (buf : List Byte) (base budget : Nat) (i : Instr), s.lanes[d]? = some l →
    buf.length = s.params.n → base + budget ≤ s.params.n →
    ((∃ k o ss sent done, l.op ix = streamSlot k o ss sent done ∧ i = packInstr k d ix buf base budget) ∨
      (∃ tag body done, l.op ix = .atomic tag body done ∧ i = .packAtomic d ix buf base budget)) →
    (∀ e, packSlot s.params (l.op ix) budget = .error e → exec i s = .next { s with ret := .error e }) ∧
    (∀ bs o', packSlot s.params (l.op ix) budget = .ok (bs, o') → exec i s = .next (withLane s d (l.setOp ix o')
      (.packed (buf.take base ++ bs ++ buf.drop (base + bs.length)) bs.length)))) ∧
  (∀ (p : Params) (budget : Nat), packSlot p .null budget = .error (.invalidOperation .packedAfterDone)) ∧
  (∀ (s : State) (d : Nat) (l : Lane) (ix : SlotIx), s.lanes[d]? = some l →
    exec (.requiredSize d ix) s = .next { s with ret := .size (requiredSize s.params (l.op ix)) }) ∧
  ∀ (p : Params) (id : Byte) (l : Lane),
    let frame (o : Nat) (slots : List Byte) : List Byte :=
      [id, 0x00, BitVec.ofNat 8 (o % 256), BitVec.ofNat 8 (o / 256)] ++ slots ++ List.replicate (p.n - slots.length) 0x00
    ((l.enabled = false ∨ (l.pri.done = true ∧ l.sec.done = true)) → packDevice p id l = .ok { l with txbuf := frame 0 [] }) ∧
    (l.enabled = true → l.pri.done = false →
      (∀ e, packSlot p l.pri p.n = .error e → packDevice p id l = .error e) ∧
      (∀ b1 o1, packSlot p l.pri p.n = .ok (b1, o1) →
        (l.sec.done = true ∨ p.n - b1.length < requiredSize p l.sec →
          packDevice p id l = .ok { l with txbuf := frame 0 b1, pri := o1 }) ∧
        (l.sec.done = false → requiredSize p l.sec ≤ p.n - b1.length →
          (∀ e, packSlot p l.sec (p.n - b1.length) = .error e → packDevice p id l = .error e) ∧
          (∀ b2 o2, packSlot p l.sec (p.n - b1.length) = .ok (b2, o2) →
            packDevice p id l = .ok { l with txbuf := frame (b1.length % 65536) (b1 ++ b2), pri := o1, sec := o2 })))) ∧
    (l.enabled = true → l.pri.done = true → l.sec.done = false →
      (∀ e, packSlot p l.sec p.n = .error e → packDevice p id l = .error e) ∧
      (∀ b2 o2, packSlot p l.sec p.n = .ok (b2, o2) → packDevice p id l = .ok { l with txbuf := frame 0 b2, sec := o2 }))

/-- Frame shape (spec/41_dual_slot_packer.md R188, spec/30_encoding.md R93): from a state that meets the invariant, every frame of a
successful ISSUE has `4 + N` bytes, the new message id, a zero reserved byte and a slot-two offset `o` that is 0 or at least 1
and below `N`. With `o = 0` slot one holds a fragment of the primary, or of the secondary when the primary is done, or is EMPTY
(all zeros, and then the device is not enabled or both slots are done); with `o` not 0, slot one is the primary's fragment of `o`
bytes and slot two the secondary's. Every payload byte after the last slot byte is 0x00. -/
def Obligations.IssuedFramesAreWellShaped : Prop :=
  ∀ (s t : State), Inv s → exec .issue s = .next t → t.ret = .ok →
    ∀ (d : Nat) (l l' : Lane), s.lanes[d]? = some l → t.lanes[d]? = some l' →
      ∃ (b2 b3 : Byte) (pay : List Byte), l'.txbuf = t.msgId :: 0x00 :: b2 :: b3 :: pay ∧ pay.length = s.params.n ∧
        let o := b2.toNat + 256 * b3.toNat
        let filled (B : List Byte) : Prop := pay = B ++ List.replicate (s.params.n - B.length) 0x00
        o < s.params.n ∧
        (o = 0 →
          (pay = List.replicate s.params.n 0x00 ∧ l'.pri = l.pri ∧ l'.sec = l.sec ∧
            (l.enabled = false ∨ (l.pri.done = true ∧ l.sec.done = true))) ∨
          (∃ B, filled B ∧ l.enabled = true ∧ l.pri.done = false ∧ l'.sec = l.sec ∧
            packSlot s.params l.pri s.params.n = .ok (B, l'.pri)) ∨
          (∃ B, filled B ∧ l.enabled = true ∧ l.pri.done = true ∧ l.sec.done = false ∧ l'.pri = l.pri ∧
            packSlot s.params l.sec s.params.n = .ok (B, l'.sec))) ∧
        (o ≠ 0 → ∃ B1 B2, filled (B1 ++ B2) ∧ B1.length = o ∧ l.enabled = true ∧ l.pri.done = false ∧ l.sec.done = false ∧
          packSlot s.params l.pri s.params.n = .ok (B1, l'.pri) ∧
          packSlot s.params l.sec (s.params.n - o) = .ok (B2, l'.sec))

/-! ## Link, matcher -/

/-- SEND (spec/20_memory.md R65): a closed link is `LinkNotOpen`, then the I/O draw is `LinkIo`, both with nothing changed;
otherwise every `WIRE[d]` becomes `TXBUF[d]` at once and nothing else changes. -/
def Obligations.SendCopiesEveryFrame : Prop :=
  ∀ (s : State) (io : Bool),
    (s.linkOpen = false → exec (.send io) s = .next { s with ret := .error .linkNotOpen }) ∧
    (s.linkOpen = true → io = true → exec (.send io) s = .next { s with ret := .error .linkIo }) ∧
    (s.linkOpen = true → io = false → ∃ ls, exec (.send io) s = .next { s with lanes := ls, ret := .ok } ∧
      ls.length = s.lanes.length ∧ ∀ (d : Nat) (l : Lane), s.lanes[d]? = some l → ls[d]? = some { l with wire := l.txbuf })

/-- RECEIVE (spec/20_memory.md R67): with one draw a device, a failing link changes nothing; otherwise, for each device by itself,
`ok` samples `DEV_ACK[d]` as it stands into the record, id first, and `none` clears `RXVALID[d]` and leaves any bytes. -/
def Obligations.ReceiveSamplesEachDevice : Prop :=
  ∀ (s : State) (io : Bool) (draws : List RxDraw), draws.length = s.lanes.length →
    (s.linkOpen = false → exec (.receive io draws) s = .next { s with ret := .error .linkNotOpen }) ∧
    (s.linkOpen = true → io = true → exec (.receive io draws) s = .next { s with ret := .error .linkIo }) ∧
    (s.linkOpen = true → io = false → ∃ ls, exec (.receive io draws) s = .next { s with lanes := ls, ret := .ok } ∧
      ls.length = s.lanes.length ∧ ∀ (d : Nat) (l : Lane), s.lanes[d]? = some l →
        (draws[d]? = some .ok → ls[d]? = some { l with rxValid := true, rxBuf := (l.rx.ack.id, l.rx.ack.err) }) ∧
        (∀ b0 b1, draws[d]? = some (.none b0 b1) → ls[d]? = some { l with rxValid := false, rxBuf := (b0, b1) }))

/-- MATCH (spec/43_ack_matcher.md R246 to R249): the verdict is `FW_ERROR` of the least enabled device whose valid record carries
the current id with a non-zero error; with no such device it is `ALL_ACKED` exactly when every enabled device's valid record
carries the current id (so when none is enabled), and `PENDING` otherwise. Nothing else changes. -/
def Obligations.MatchGivesTheVerdict : Prop :=
  ∀ s : State,
    let acked (l : Lane) : Prop := l.rxValid = true ∧ l.rxBuf.1 = s.msgId
    ∃ v, exec .matchAcks s = .next { s with ret := .verdict v } ∧
      (∀ c d, v = .fwError c d ↔
        (∃ l, s.lanes[d]? = some l ∧ l.enabled = true ∧ acked l ∧ l.rxBuf.2 = c ∧ c ≠ 0x00) ∧
        ∀ (d' : Nat) (l' : Lane), d' < d → s.lanes[d']? = some l' → ¬ (l'.enabled = true ∧ acked l' ∧ l'.rxBuf.2 ≠ 0x00)) ∧
      (v = .allAcked ↔ ∀ l ∈ s.lanes, l.enabled = true → acked l ∧ l.rxBuf.2 = 0x00)

/-! ## The send loop -/

/-- SEND_DATAGRAM accepted (spec/44_host_session.md R262, R271): `tz` says whether the timeout is 0, and the call is at its first
command: for each device in index order ENABLE, LOAD of the primary, LOAD of the secondary, with NULL for a device that is not
enabled; nothing else changes. When every LOAD succeeds, then after those `3 * D` host steps every device's bit and slots are the
call's, `SESSION` is `Sending` and ISSUE is next; nothing else changed. -/
def Obligations.CallStartsSending : Prop :=
  ∀ (s : State) (calls : List DeviceCall) (timeout : Nat), s.session ≠ .sending → s.session ≠ .awaitingAck →
    (∀ todo, s.hostPc ≠ .setup todo) → s.linkOpen = true → 1 ≤ s.lanes.length → calls.length = s.lanes.length →
    (∀ c ∈ calls, c.enabled = true → c.pri.inDomain = true ∧ c.sec.inDomain = true) →
    ∃ t, exec (.sendDatagram calls timeout) s = .next t ∧
      t = { s with tz := decide (timeout = 0), ret := .ok, hostPc := .setup (calls.mapIdx fun d c =>
        [.enable d c.enabled, .load d .pri (if c.enabled then c.pri else .null),
          .load d .sec (if c.enabled then c.sec else .null)]).flatten } ∧
      ∀ (ls : List Lane) (ws : List HostDraw) (rest : List Turn), s.queue = ws.map .host ++ rest →
        ws.length = 3 * s.lanes.length → ls.length = s.lanes.length →
        (∀ (d : Nat) (c : DeviceCall) (l : Lane), calls[d]? = some c → s.lanes[d]? = some l →
          ∃ l', ls[d]? = some l' ∧ CallLoaded s.params c l l') →
        runSteps (3 * s.lanes.length) t = some { s with
          lanes := ls, tz := decide (timeout = 0), session := .sending, hostPc := .issue, ret := .ok, queue := rest }

/-- A call that fails before any batch (spec/44_host_session.md R261, R264, spec/60_exceptions.md R284). On a closed link nothing
changes but `SESSION` and `result` (and the model's own `hostPc` and `ret`). When a LOAD fails, for any number of devices: the
devices before the failing one keep their ENABLE and LOADs, the failing device keeps its ENABLE and the LOAD before the failing
one, the devices after it are untouched, and `SESSION` and `result` record the error; no ISSUE was run. -/
def Obligations.CallFailsBeforeAnyBatch : Prop :=
  ∀ (s : State) (calls : List DeviceCall) (timeout : Nat), s.session ≠ .sending → s.session ≠ .awaitingAck →
    (∀ todo, s.hostPc ≠ .setup todo) → calls.length = s.lanes.length →
    (∀ c ∈ calls, c.enabled = true → c.pri.inDomain = true ∧ c.sec.inDomain = true) →
    (s.linkOpen = false → exec (.sendDatagram calls timeout) s = .next { s with
      session := .failed, callResult := .error .linkNotOpen, hostPc := .idle, ret := .error .linkNotOpen }) ∧
    (s.linkOpen = true →
      ∀ (d n : Nat) (c : DeviceCall) (l : Lane) (e : HostError) (ls : List Lane) (ws : List HostDraw) (rest : List Turn)
        (t : State),
      calls[d]? = some c → s.lanes[d]? = some l → c.enabled = true → ls.length = s.lanes.length →
      (∀ (d' : Nat) (c' : DeviceCall) (l' : Lane), d' < d → calls[d']? = some c' → s.lanes[d']? = some l' →
        ∃ l'', ls[d']? = some l'' ∧ CallLoaded s.params c' l' l'') →
      (∀ d', d < d' → ls[d']? = s.lanes[d']?) →
      ((n = 2 ∧ loadedSlot s.params c.pri = .error e ∧ ls[d]? = some { l with enabled := true }) ∨
        (n = 3 ∧ loadedSlot s.params c.sec = .error e ∧
          ∃ o1, loadedSlot s.params c.pri = .ok o1 ∧ ls[d]? = some { l with enabled := true, pri := o1 })) →
      s.queue = ws.map .host ++ rest → ws.length = 3 * d + n → exec (.sendDatagram calls timeout) s = .next t →
      runSteps (3 * d + n) t = some { s with
        lanes := ls, tz := decide (timeout = 0), session := .failed, callResult := .error e, hostPc := .idle,
        ret := .error e, queue := rest })

/-- The loop's ENABLEs and LOADs, ISSUE and SEND (spec/44_host_session.md R262, R263, R264, R269, R271), each a step of its own, so that
other turns may fall between any two of them. An ENABLE or LOAD is that command; after the last one `SESSION` is `Sending` and ISSUE
is next. An error of any of these commands ends the call in `Failed` with it. A successful SEND leads to `AwaitingAck` with a
non-zero timeout, and with `tz = 1` ends the call in `Done` under `ONE_SEND` or when all is done, and otherwise goes on to the
next ISSUE without any RECEIVE. All is done when every enabled device has both slots done (spec/40_fragment_codec.md R144). -/
def Obligations.LoopLoadsIssuesAndSends : Prop :=
  (∀ (s t : State) (w : HostDraw) (rest : List Turn), s.queue = .host w :: rest →
    (∀ (c : SetupCmd) (todo : List SetupCmd) (i : Instr), s.hostPc = .setup (c :: todo) →
      ((∃ d b, c = .enable d b ∧ i = .enable d b) ∨ (∃ d k op, c = .load d k op ∧ i = .load d k op)) →
      exec i { s with queue := rest } = .next t →
      (t.ret = .ok → todo ≠ [] → step s = .next { t with hostPc := .setup todo }) ∧
      (t.ret = .ok → todo = [] → step s = .next { t with session := .sending, hostPc := .issue }) ∧
      (∀ e, t.ret = .error e → step s = .next { t with session := .failed, callResult := .error e, hostPc := .idle })) ∧
    (s.hostPc = .issue → exec .issue { s with queue := rest } = .next t →
      (t.ret = .ok → step s = .next { t with hostPc := .send }) ∧
      (∀ e, t.ret = .error e → step s = .next { t with session := .failed, callResult := .error e, hostPc := .idle })) ∧
    (s.hostPc = .send → exec (.send w.io) { s with queue := rest } = .next t →
      (∀ e, t.ret = .error e → step s = .next { t with session := .failed, callResult := .error e, hostPc := .idle }) ∧
      (t.ret = .ok → s.tz = false → step s = .next { t with session := .awaitingAck, hostPc := .receive }) ∧
      (t.ret = .ok → s.tz = true → (s.params.tzPolicy = .oneSend ∨ t.allDone = true) →
        step s = .next { t with session := .done, callResult := .ok, hostPc := .idle, ret := .ok }) ∧
      (t.ret = .ok → s.tz = true → s.params.tzPolicy = .allFragments → t.allDone = false →
        step s = .next { t with hostPc := .issue }))) ∧
  (∀ s : State, s.allDone = true ↔ ∀ l ∈ s.lanes, l.enabled = true → l.pri.done = true ∧ l.sec.done = true)

/-- The loop's RECEIVE and MATCH (spec/44_host_session.md R263, R266, R267, R268): a failing RECEIVE ends the call; `FW_ERROR` ends it
with `Firmware` whatever the timeout draw; `ALL_ACKED` ends it in `Done` when all is done and else leads to the next batch;
on `PENDING` the timeout draw ends it with `ConfirmResponseFailed`, and without it the host polls again. -/
def Obligations.LoopReceivesAndMatches : Prop :=
  ∀ (s t : State) (w : HostDraw) (rest : List Turn), s.queue = .host w :: rest →
    (s.hostPc = .receive → exec (.receive w.io w.rx) { s with queue := rest } = .next t →
      (t.ret = .ok → step s = .next { t with hostPc := .matching }) ∧
      (∀ e, t.ret = .error e → step s = .next { t with session := .failed, callResult := .error e, hostPc := .idle })) ∧
    (s.hostPc = .matching → exec .matchAcks { s with queue := rest } = .next t →
      (∀ c d, t.ret = .verdict (.fwError c d) → step s = .next { t with
        session := .failed, callResult := .error (.firmware c d), hostPc := .idle, ret := .error (.firmware c d) }) ∧
      (t.ret = .verdict .allAcked → s.allDone = true → step s = .next { t with
        session := .done, callResult := .ok, hostPc := .idle, ret := .ok }) ∧
      (t.ret = .verdict .allAcked → s.allDone = false → step s = .next { t with session := .sending, hostPc := .issue }) ∧
      (t.ret = .verdict .pending → w.timeout = true → step s = .next { t with
        session := .failed, callResult := .error .confirmResponseFailed, hostPc := .idle,
        ret := .error .confirmResponseFailed }) ∧
      (t.ret = .verdict .pending → w.timeout = false → step s = .next { t with hostPc := .receive }))

/-! ## Whole-machine rules -/

/-- The invariant holds of the machine right after reset, for every deployment within the bounds of spec/00_scope.md R6. -/
def Obligations.InvariantHoldsAfterReset : Prop :=
  Inv State.reset ∧ ∀ (p : Params) (D : Nat), ParamsOk p → 1 ≤ D → Inv (State.resetWith p D)

/-- Every step keeps the invariant: the slots' cursors stay within their payloads and a done operation is at its end, every
frame buffer keeps its shape, every stream's count stays within its bound with all of its units written and its memory in
canonical form, and the send loop's place agrees with `SESSION`. -/
def Obligations.EveryStepKeepsTheInvariant : Prop :=
  ∀ (s t : State), Inv s → step s = .next t → Inv t

/-- No step of a state that meets the invariant faults, unless the turn is a FRAME, DEV_RX or pack command whose own buffer is too
short or whose own window is too large (spec/60_exceptions.md R292: the faults are unreachable from the block's own
commands). -/
def Obligations.OwnCommandsNeverFault : Prop :=
  ∀ (s : State) (r : Fault), Inv s → step s = .fault r →
    ∃ (rest : List Turn) (d : Nat),
      (∃ f : Frame, s.queue = .cmd (.frame d f) :: rest ∧ f.payload.length < s.params.n) ∨
      (∃ B : List Byte, s.queue = .cmd (.devRx d B) :: rest ∧ B.length < 4 + s.params.n) ∨
      (∃ (k : SlotIx) (buf : List Byte) (base budget : Nat),
        (s.params.n < base + budget ∨ buf.length < s.params.n) ∧
        (s.queue = .cmd (.packMod d k buf base budget) :: rest ∨ s.queue = .cmd (.packFoci d k buf base budget) :: rest ∨
          s.queue = .cmd (.packAtomic d k buf base budget) :: rest))

/-- Who may write what (spec/10_state.md R35), over every instruction: `MSG_ID` changes only by ISSUE and RESET; `ENABLED` only by
ENABLE and RESET; the slots only by LOAD, the packs, ISSUE and RESET; `TXBUF` only by ISSUE and RESET; `WIRE` only by SEND and
RESET; `RXVALID` and `RXBUF` only by RECEIVE and RESET; the device's state only by the wire formats, DELIVER, DEV_RX and RESET;
`SESSION`, `tz`, `result` and the loop's place only by RESET and a call's start (and by the send loop's own turns, which are no
instruction and run ENABLE, LOAD, ISSUE, SEND, RECEIVE and MATCH); the parameters and `LINK_OPEN` by none. -/
def Obligations.OnlyTheNamedCommandsWrite : Prop :=
  ∀ (i : Instr) (s t : State) (d : Nat) (l l' : Lane), exec i s = .next t → s.lanes[d]? = some l → t.lanes[d]? = some l' →
    t.params = s.params ∧ t.linkOpen = s.linkOpen ∧ t.queue = s.queue ∧ t.lanes.length = s.lanes.length ∧
    ((t.session ≠ s.session ∨ t.tz ≠ s.tz ∨ t.callResult ≠ s.callResult ∨ t.hostPc ≠ s.hostPc) →
      i = .reset ∨ ∃ c n, i = .sendDatagram c n) ∧
    (t.msgId ≠ s.msgId → i = .issue ∨ i = .reset) ∧
    (l'.enabled ≠ l.enabled → i = .reset ∨ ∃ b, i = .enable d b) ∧
    ((l'.pri ≠ l.pri ∨ l'.sec ≠ l.sec) → i = .reset ∨ i = .issue ∨ (∃ k op, i = .load d k op) ∨
      (∃ k buf b n, i = .packMod d k buf b n ∨ i = .packFoci d k buf b n ∨ i = .packAtomic d k buf b n)) ∧
    (l'.txbuf ≠ l.txbuf → i = .issue ∨ i = .reset) ∧
    (l'.wire ≠ l.wire → (∃ io, i = .send io) ∨ i = .reset) ∧
    ((l'.rxValid ≠ l.rxValid ∨ l'.rxBuf ≠ l.rxBuf) → (∃ io draws, i = .receive io draws) ∨ i = .reset) ∧
    (l'.rx ≠ l.rx → i = .reset ∨ i = .deliver d ∨ (∃ B, i = .devRx d B) ∨ (∃ f, i = .frame d f) ∨
      (∃ v, fragView i = some v ∧ v.d = d) ∨
      ∃ b, i = .atomic11 d b ∨ i = .atomic30 d b ∨ i = .atomic31 d b ∨ i = .atomic42 d b ∨ i = .atomic60 d b)

/-- Operations are consumed monotonically (spec/10_state.md R25): no instruction but a LOAD of the slot or RESET lowers a slot's
cursor, clears its `done` latch, or changes the operation it holds. -/
def Obligations.OperationsAreConsumedMonotonically : Prop :=
  ∀ (i : Instr) (s t : State) (d : Nat) (k : SlotIx) (l l' : Lane), exec i s = .next t → s.lanes[d]? = some l →
    t.lanes[d]? = some l' → i ≠ .reset → (∀ op, i ≠ .load d k op) →
    match l.op k with
    | .null => l'.op k = .null
    | .mod o sent done => ∃ sent' done', l'.op k = .mod o sent' done' ∧ sent ≤ sent' ∧ (done = true → done' = true ∧ sent' = sent)
    | .foci o ss sent done => ∃ sent' done', l'.op k = .foci o ss sent' done' ∧ sent ≤ sent' ∧
        (done = true → done' = true ∧ sent' = sent)
    | .atomic tag body done => ∃ done', l'.op k = .atomic tag body done' ∧ (done = true → done' = true)

/-- One batch delivers its fragment: the step of spec/42_frame_deserializer.md R231, for both streaming kinds, in either slot, beside
anything in the other slot that has no fragment for the same stream. From a state that meets the invariant, with the batch's id new
to device `d`, let one slot hold an undone streaming operation and its stream be where the operation's cursor is: anything before
the first fragment, and afterwards active with count `sent` and the operation's header latched. If the batch is issued, sent and
delivered, and received without error (which the other slot, if it has work, could give), then the operation's units from the old
cursor up to the new one are in the segment buffer at their own offsets and the earlier ones are as they were, the count is at the
new cursor and the header latched; the stream stays active until the operation is done, and then exactly one `SET` event of it is
emitted, with its length, divisor, repeat count and mode. Only a secondary beside a pending primary may wait (R183), and then it
and its stream stay as they are. When the other slot is done, the frame carries nothing else: no error is possible and no other
event is emitted. -/
def Obligations.OneBatchDeliversItsFragment : Prop :=
  ∀ (s t : State) (d : Nat) (l : Lane) (ix : SlotIx) (k : Kind) (o : StreamOp) (ss : U32) (sent : Nat), Inv s →
    s.lanes[d]? = some l → l.enabled = true → l.op ix = streamSlot k o ss sent false →
    OffStream k o.seg (l.op (otherSlot ix)) → s.msgId + 1 ≠ l.rx.ack.id →
    (sent ≠ 0 → l.rx.reasm.get k o.seg = ⟨true, sent, latchOf k o ss⟩) →
    batchRound d s = some t →
    ∃ l' : Lane, t.lanes[d]? = some l' ∧ (((l.op (otherSlot ix)).done = true ∨ l'.rx.ack.err = 0x00) →
      ∃ (sent' : Nat) (done' : Bool), l'.op ix = streamSlot k o ss sent' done' ∧ l'.rx.ack = ⟨s.msgId + 1, 0x00⟩ ∧
        (∀ a, a < sent * unitBytes s.params k → l'.rx.segByte k o.seg a = l.rx.segByte k o.seg a) ∧
        setEvents k o.seg l'.rx.events
          = setEvents k o.seg l.rx.events ++ (if done' then [payloadEvent k o ss] else []) ∧
        ((l.op (otherSlot ix)).done = true →
          l'.rx.events = l.rx.events ++ (if done' then [payloadEvent k o ss] else [])) ∧
        ((sent < sent' ∧ sent' ≤ o.data.length ∧ (done' = true ↔ sent' = o.data.length) ∧
            l'.rx.reasm.get k o.seg = ⟨!done', sent', latchOf k o ss⟩ ∧
            UnitsStored s.params k l'.rx o.seg o.data sent sent') ∨
          (sent' = sent ∧ done' = false ∧ ix = .sec ∧ l.pri.done = false ∧
            l'.rx.reasm.get k o.seg = l.rx.reasm.get k o.seg ∧
            ∀ a, l'.rx.segByte k o.seg a = l.rx.segByte k o.seg a)))

/-- The round trip (spec/42_frame_deserializer.md R231): let device `d` be delivered every frame that successive successful batches
produce for a streaming operation loaded in one of its slots, beside anything in the other slot that has no fragment for the same
stream, each frame received without error and the first batch's id new to the device. Once the operation is done, the segment
buffer holds the whole payload, byte for byte, and exactly one `SET` event was emitted for its stream, with its length, divisor,
repeat count and mode; later batches change neither. When the other slot was done from the start, no frame can give an error and
no other event is emitted. -/
def Obligations.WholePayloadRoundTrip : Prop :=
  ∀ (s t : State) (d j sent : Nat) (l l' : Lane) (ix : SlotIx) (k : Kind) (o : StreamOp) (ss : U32), Inv s →
    s.lanes[d]? = some l → l.enabled = true → l.op ix = streamSlot k o ss 0 false →
    OffStream k o.seg (l.op (otherSlot ix)) → s.msgId + 1 ≠ l.rx.ack.id →
    ((l.op (otherSlot ix)).done = true ∨ ∀ (m : Nat) (u : State) (m' : Lane), 1 ≤ m → m ≤ j → batchRounds d m s = some u →
      u.lanes[d]? = some m' → m'.rx.ack.err = 0x00) →
    batchRounds d j s = some t → t.lanes[d]? = some l' → l'.op ix = streamSlot k o ss sent true →
    UnitsStored s.params k l'.rx o.seg o.data 0 o.data.length ∧
    setEvents k o.seg l'.rx.events = setEvents k o.seg l.rx.events ++ [payloadEvent k o ss] ∧
    l'.rx.ack = ⟨t.msgId, 0x00⟩ ∧
    ((l.op (otherSlot ix)).done = true → l'.rx.events = l.rx.events ++ [payloadEvent k o ss])
end

