-- ==== Sys2Proof/Laws/Bytes.lean ====
section
/-! SUPPORT. The laws of little-endian fields, of reads and copies in a byte string, and of the flags byte. -/

namespace Sys2Proof

@[simp] theorem leBytes_length (n v : Nat) : (leBytes n v).length = n := by
  induction n generalizing v with
  | zero => rfl
  | succ n ih => simp [leBytes, ih]

/-- Reading back a field gives its value, cut to its width. -/
theorem leNat_leBytes (n v : Nat) : leNat (leBytes n v) = v % 256 ^ n := by
  induction n generalizing v with
  | zero => simp [leBytes, leNat, Nat.mod_one]
  | succ n ih =>
    simp only [leBytes, leNat, ih, BitVec.toNat_ofNat]
    rw [show (2 : Nat) ^ 8 = 256 from rfl, pow_succ', ← Nat.mod_mul]

theorem leNat_lt (bs : List Byte) : leNat bs < 256 ^ bs.length := by
  induction bs with
  | nil => simp [leNat]
  | cons b bs ih =>
    have := b.isLt
    simp only [leNat, List.length_cons, pow_succ']
    omega

/-- Writing out the value of a byte string gives the byte string. -/
theorem leBytes_leNat (bs : List Byte) : leBytes bs.length (leNat bs) = bs := by
  induction bs with
  | nil => rfl
  | cons b bs ih =>
    have hb := b.isLt
    simp only [List.length_cons, leBytes, leNat]
    congr 1
    · apply BitVec.eq_of_toNat_eq; simp only [BitVec.toNat_ofNat]; omega
    · rw [show (b.toNat + 256 * leNat bs) / 256 = leNat bs by omega, ih]

/-- A one-byte read. -/
theorem memRead_one (B : List Byte) (a : Nat) (b : Byte) (h : B[a]? = some b) : memRead B a 1 = b.toNat := by
  obtain ⟨ha, rfl⟩ := List.getElem?_eq_some_iff.mp h
  rw [memRead, List.drop_eq_getElem_cons ha]
  exact Nat.add_zero _

/-- A read inside the middle part of a concatenation of three. -/
theorem memRead_middle (P S T : List Byte) : memRead (P ++ S ++ T) P.length S.length = leNat S := by
  simp [memRead]

/-- A copy that fits keeps the buffer's length. -/
theorem copyAt_length (B : List Byte) (a : Nat) (S : List Byte) (h : a + S.length ≤ B.length) :
    (copyAt B a S).length = B.length := by
  simp only [copyAt, List.length_append, List.length_take, List.length_drop]; omega

/-- The flags byte's `BEGIN` bit reads back. -/
@[simp] theorem beginOf_toByte (first : Bool) (f : FragFlags) : beginOf (f.toByte first) = first := by
  obtain ⟨last, trans, seg, resv⟩ := f
  revert resv
  cases first <;> cases last <;> cases trans <;> cases seg <;> decide

/-- The other fields of the flags byte read back. -/
@[simp] theorem flagsOf_toByte (first : Bool) (f : FragFlags) : flagsOf (f.toByte first) = f := by
  obtain ⟨last, trans, seg, resv⟩ := f
  revert resv
  cases first <;> cases last <;> cases trans <;> cases seg <;> decide

/-- A flags byte is rebuilt from its fields. -/
@[simp] theorem toByte_flagsOf (b : Byte) : (flagsOf b).toByte (beginOf b) = b := by
  revert b; decide

end Sys2Proof
end

