-- ==== Sys2Proof/Laws/Memory.lean ====
section
/-! SUPPORT. The laws of segment-buffer memory: a read after a write, every other byte unchanged, the canonical form kept, and
equal readings meaning equal memories. -/

namespace Sys2Proof.Machine

open Sys2Proof

@[simp] theorem Memory.read_nil (a : Nat) : Memory.read [] a = none := rfl

@[simp] theorem Memory.writeBytes_nil (m : Memory) (a : Nat) : m.writeBytes a [] = m := rfl

theorem Memory.writeBytes_cons (m : Memory) (a : Nat) (b : Byte) (bs : List Byte) :
    m.writeBytes a (b :: bs) = (m.write a b).writeBytes (a + 1) bs := rfl

/-- The written address reads as the byte written, every other address as before. -/
theorem Memory.read_write (m : Memory) (a x : Nat) (b : Byte) :
    (m.write a b).read x = if x = a then some b else m.read x := by
  induction m with
  | nil => by_cases h : a = x <;> simp [Memory.write, Memory.read, h, eq_comm]
  | cons c m ih =>
    obtain ⟨y, c⟩ := c
    simp only [Memory.write]
    split
    · by_cases h : a = x
      · simp [Memory.read, h]
      · simp [Memory.read, h, Ne.symm h]
    · split
      · subst a
        by_cases h : y = x
        · simp [Memory.read, h]
        · simp [Memory.read, h, Ne.symm h]
      · by_cases h : y = x
        · subst y
          simp only [Memory.read, if_true]
          rw [if_neg]; omega
        · simp [Memory.read, h, ih]

/-- Where an address of the written memory comes from. -/
theorem Memory.mem_write (m : Memory) (a : Nat) (b : Byte) (c : Host.Cell) (h : c ∈ m.write a b) : c = (a, b) ∨ c ∈ m := by
  induction m with
  | nil => simpa [Memory.write] using h
  | cons e m ih =>
    obtain ⟨y, e⟩ := e
    simp only [Memory.write] at h
    split at h
    · simpa using h
    · split at h
      · rcases List.mem_cons.mp h with h | h
        · exact .inl h
        · exact .inr (List.mem_cons_of_mem _ h)
      · rcases List.mem_cons.mp h with h | h
        · exact .inr (by simp [h])
        · exact (ih h).imp id (List.mem_cons_of_mem _)

/-- A write keeps the canonical form. -/
theorem Memory.write_wf (m : Memory) (hm : m.wf) (a : Nat) (b : Byte) : (m.write a b).wf := by
  induction m with
  | nil => simp [Memory.write, Memory.wf]
  | cons c m ih =>
    obtain ⟨y, c⟩ := c
    obtain ⟨hy, hm'⟩ := List.pairwise_cons.mp hm
    simp only [Memory.write]
    split
    · refine List.pairwise_cons.mpr ⟨fun e he => ?_, hm⟩
      rcases List.mem_cons.mp he with rfl | he
      · assumption
      · exact Nat.lt_trans ‹a < y› (hy e he)
    · split
      · subst a
        exact List.pairwise_cons.mpr ⟨hy, hm'⟩
      · refine List.pairwise_cons.mpr ⟨fun e he => ?_, ih hm'⟩
        rcases Memory.mem_write m a b e he with rfl | he
        · simp only; omega
        · exact hy e he

/-- Writing a byte string keeps the canonical form. -/
theorem Memory.writeBytes_wf (m : Memory) (hm : m.wf) (a : Nat) (bs : List Byte) : (m.writeBytes a bs).wf := by
  induction bs generalizing m a with
  | nil => exact hm
  | cons b bs ih => exact ih _ (m.write_wf hm a b) _

/-- Every byte string written reads back at its addresses, and every other address reads as before. -/
theorem Memory.read_writeBytes (m : Memory) (a x : Nat) (bs : List Byte) :
    (m.writeBytes a bs).read x = if a ≤ x ∧ x < a + bs.length then bs[x - a]? else m.read x := by
  induction bs generalizing m a with
  | nil => simp only [Memory.writeBytes_nil, List.length_nil]; rw [if_neg]; omega
  | cons b bs ih =>
    rw [Memory.writeBytes_cons, ih, Memory.read_write]
    simp only [List.length_cons]
    by_cases h1 : x = a
    · subst x
      rw [if_neg (by omega), if_pos rfl, if_pos (by omega)]; simp
    · by_cases h2 : a + 1 ≤ x ∧ x < a + 1 + bs.length
      · rw [if_pos h2, if_pos (by omega)]
        obtain ⟨k, rfl⟩ : ∃ k, x = a + 1 + k := ⟨x - (a + 1), by omega⟩
        rw [show a + 1 + k - (a + 1) = k by omega, show a + 1 + k - a = k + 1 by omega]; rfl
      · rw [if_neg h2, if_neg h1, if_neg (by omega)]

/-- A cell of a memory after writing a byte string is an old one or lies in the range written. -/
theorem Memory.mem_writeBytes (m : Memory) (a : Nat) (bs : List Byte) (c : Host.Cell) (h : c ∈ m.writeBytes a bs) :
    c ∈ m ∨ (a ≤ c.1 ∧ c.1 < a + bs.length) := by
  induction bs generalizing m a with
  | nil => exact .inl h
  | cons b bs ih =>
    rcases ih _ _ h with h | ⟨h1, h2⟩
    · rcases Memory.mem_write m a b c h with rfl | h
      · right; simp
      · exact .inl h
    · right; simp only [List.length_cons]; omega

/-- A listed cell of a canonical memory is what its address reads as. -/
theorem Memory.read_eq_some (m : Memory) (hm : m.wf) (a : Nat) (b : Byte) : m.read a = some b ↔ (a, b) ∈ m := by
  induction m with
  | nil => simp
  | cons c m ih =>
    obtain ⟨y, c⟩ := c
    obtain ⟨hy, hm'⟩ := List.pairwise_cons.mp hm
    by_cases h : y = a
    · subst y
      have : (a, b) ∉ m := fun hmem => absurd (hy _ hmem) (by simp)
      simp [Memory.read, this, eq_comm]
    · have h' : a ≠ y := Ne.symm h
      simp [Memory.read, h, h', ih hm']

/-- Canonical memories that read alike are equal. -/
theorem Memory.ext_read (m m' : Memory) (hm : m.wf) (hm' : m'.wf) (h : ∀ a, m.read a = m'.read a) : m = m' := by
  have hmem : ∀ c, c ∈ m ↔ c ∈ m' := fun ⟨a, b⟩ => by
    rw [← Memory.read_eq_some m hm, ← Memory.read_eq_some m' hm', h]
  have hp : m.Perm m' := (List.perm_ext_iff_of_nodup (hm.imp (fun hlt heq => by subst heq; exact Nat.lt_irrefl _ hlt))
    (hm'.imp (fun hlt heq => by subst heq; exact Nat.lt_irrefl _ hlt))).mpr hmem
  exact hp.eq_of_pairwise (fun a b _ _ h1 h2 => absurd h1 (by omega)) hm hm'

/-- Every segment buffer of the reset state is canonical. -/
theorem reset_memory_wf (l : Lane) (h : l ∈ State.reset.lanes) (k : Kind) (s : Segment) : (l.rx.segbuf.get k s).wf := by
  rw [List.mem_replicate.mp h |>.2]
  cases k <;> cases s <;> exact List.Pairwise.nil

end Sys2Proof.Machine
end

