-- ==== Sys2Proof/Laws/State.lean ====
section
/-! SUPPORT. One lemma per field for each update of the state, of a lane and of a device, so that no proof unfolds a record
update. -/

namespace Sys2Proof.Machine

open Sys2Proof

/-! ## `State.setLane` -/

@[simp] theorem State.setLane_params (s : State) (d : Nat) (l : Lane) : (s.setLane d l).params = s.params := rfl
@[simp] theorem State.setLane_msgId (s : State) (d : Nat) (l : Lane) : (s.setLane d l).msgId = s.msgId := rfl
@[simp] theorem State.setLane_lanes (s : State) (d : Nat) (l : Lane) : (s.setLane d l).lanes = s.lanes.set d l := rfl
@[simp] theorem State.setLane_linkOpen (s : State) (d : Nat) (l : Lane) : (s.setLane d l).linkOpen = s.linkOpen := rfl
@[simp] theorem State.setLane_session (s : State) (d : Nat) (l : Lane) : (s.setLane d l).session = s.session := rfl
@[simp] theorem State.setLane_tz (s : State) (d : Nat) (l : Lane) : (s.setLane d l).tz = s.tz := rfl
@[simp] theorem State.setLane_callResult (s : State) (d : Nat) (l : Lane) : (s.setLane d l).callResult = s.callResult := rfl
@[simp] theorem State.setLane_hostPc (s : State) (d : Nat) (l : Lane) : (s.setLane d l).hostPc = s.hostPc := rfl
@[simp] theorem State.setLane_ret (s : State) (d : Nat) (l : Lane) : (s.setLane d l).ret = s.ret := rfl
@[simp] theorem State.setLane_queue (s : State) (d : Nat) (l : Lane) : (s.setLane d l).queue = s.queue := rfl

/-! ## `withLane` -/

@[simp] theorem withLane_params (s : State) (d : Nat) (l : Lane) (r : Ret) : (withLane s d l r).params = s.params := rfl
@[simp] theorem withLane_msgId (s : State) (d : Nat) (l : Lane) (r : Ret) : (withLane s d l r).msgId = s.msgId := rfl
@[simp] theorem withLane_lanes (s : State) (d : Nat) (l : Lane) (r : Ret) : (withLane s d l r).lanes = s.lanes.set d l := rfl
@[simp] theorem withLane_linkOpen (s : State) (d : Nat) (l : Lane) (r : Ret) : (withLane s d l r).linkOpen = s.linkOpen := rfl
@[simp] theorem withLane_session (s : State) (d : Nat) (l : Lane) (r : Ret) : (withLane s d l r).session = s.session := rfl
@[simp] theorem withLane_tz (s : State) (d : Nat) (l : Lane) (r : Ret) : (withLane s d l r).tz = s.tz := rfl
@[simp] theorem withLane_callResult (s : State) (d : Nat) (l : Lane) (r : Ret) : (withLane s d l r).callResult = s.callResult := rfl
@[simp] theorem withLane_hostPc (s : State) (d : Nat) (l : Lane) (r : Ret) : (withLane s d l r).hostPc = s.hostPc := rfl
@[simp] theorem withLane_ret (s : State) (d : Nat) (l : Lane) (r : Ret) : (withLane s d l r).ret = r := rfl
@[simp] theorem withLane_queue (s : State) (d : Nat) (l : Lane) (r : Ret) : (withLane s d l r).queue = s.queue := rfl

/-! ## `State.failCall` -/

@[simp] theorem State.failCall_params (s : State) (e : HostError) : (s.failCall e).params = s.params := rfl
@[simp] theorem State.failCall_msgId (s : State) (e : HostError) : (s.failCall e).msgId = s.msgId := rfl
@[simp] theorem State.failCall_lanes (s : State) (e : HostError) : (s.failCall e).lanes = s.lanes := rfl
@[simp] theorem State.failCall_linkOpen (s : State) (e : HostError) : (s.failCall e).linkOpen = s.linkOpen := rfl
@[simp] theorem State.failCall_session (s : State) (e : HostError) : (s.failCall e).session = .failed := rfl
@[simp] theorem State.failCall_tz (s : State) (e : HostError) : (s.failCall e).tz = s.tz := rfl
@[simp] theorem State.failCall_callResult (s : State) (e : HostError) : (s.failCall e).callResult = .error e := rfl
@[simp] theorem State.failCall_hostPc (s : State) (e : HostError) : (s.failCall e).hostPc = .idle := rfl
@[simp] theorem State.failCall_ret (s : State) (e : HostError) : (s.failCall e).ret = .error e := rfl
@[simp] theorem State.failCall_queue (s : State) (e : HostError) : (s.failCall e).queue = s.queue := rfl

/-! ## `State.endCall` -/

@[simp] theorem State.endCall_params (s : State) : (s.endCall).params = s.params := rfl
@[simp] theorem State.endCall_msgId (s : State) : (s.endCall).msgId = s.msgId := rfl
@[simp] theorem State.endCall_lanes (s : State) : (s.endCall).lanes = s.lanes := rfl
@[simp] theorem State.endCall_linkOpen (s : State) : (s.endCall).linkOpen = s.linkOpen := rfl
@[simp] theorem State.endCall_session (s : State) : (s.endCall).session = .done := rfl
@[simp] theorem State.endCall_tz (s : State) : (s.endCall).tz = s.tz := rfl
@[simp] theorem State.endCall_callResult (s : State) : (s.endCall).callResult = .ok := rfl
@[simp] theorem State.endCall_hostPc (s : State) : (s.endCall).hostPc = .idle := rfl
@[simp] theorem State.endCall_ret (s : State) : (s.endCall).ret = .ok := rfl
@[simp] theorem State.endCall_queue (s : State) : (s.endCall).queue = s.queue := rfl

/-! ## `afterSetup` -/

@[simp] theorem afterSetup_params (todo : List SetupCmd) (s : State) : (afterSetup todo s).params = s.params := by cases todo <;> rfl
@[simp] theorem afterSetup_msgId (todo : List SetupCmd) (s : State) : (afterSetup todo s).msgId = s.msgId := by cases todo <;> rfl
@[simp] theorem afterSetup_lanes (todo : List SetupCmd) (s : State) : (afterSetup todo s).lanes = s.lanes := by cases todo <;> rfl
@[simp] theorem afterSetup_linkOpen (todo : List SetupCmd) (s : State) : (afterSetup todo s).linkOpen = s.linkOpen := by
  cases todo <;> rfl
@[simp] theorem afterSetup_tz (todo : List SetupCmd) (s : State) : (afterSetup todo s).tz = s.tz := by cases todo <;> rfl
@[simp] theorem afterSetup_callResult (todo : List SetupCmd) (s : State) : (afterSetup todo s).callResult = s.callResult := by
  cases todo <;> rfl
@[simp] theorem afterSetup_ret (todo : List SetupCmd) (s : State) : (afterSetup todo s).ret = s.ret := by cases todo <;> rfl
@[simp] theorem afterSetup_queue (todo : List SetupCmd) (s : State) : (afterSetup todo s).queue = s.queue := by cases todo <;> rfl

@[simp] theorem afterSetup_nil (s : State) : afterSetup [] s = { s with session := .sending, hostPc := .issue } := rfl
@[simp] theorem afterSetup_cons (c : SetupCmd) (todo : List SetupCmd) (s : State) :
    afterSetup (c :: todo) s = { s with hostPc := .setup (c :: todo) } := rfl

/-- No call is running exactly when `SESSION` is neither `Sending` nor `AwaitingAck` and the loop is not at its LOADs. -/
theorem State.callRunning_eq_false {s : State} :
    s.callRunning = false ↔ s.session ≠ .sending ∧ s.session ≠ .awaitingAck ∧ ∀ todo, s.hostPc ≠ .setup todo := by
  unfold State.callRunning State.inFlight
  cases s.hostPc <;> simp [HostPc.inSetup]

/-! ## Returning and raising -/

@[simp] theorem State.returns_eq_next (s t : State) (v : Ret) : s.returns v = .next t ↔ t = { s with ret := v } :=
  ⟨fun h => (Host.Outcome.next.inj h).symm, fun h => by subst h; rfl⟩

@[simp] theorem State.raise_eq_next (s t : State) (e : HostError) : s.raise e = .next t ↔ t = { s with ret := .error e } :=
  ⟨fun h => (Host.Outcome.next.inj h).symm, fun h => by subst h; rfl⟩

@[simp] theorem State.returns_ne_fault (s : State) (v : Ret) (r : Fault) : s.returns v ≠ .fault r := nofun

@[simp] theorem State.raise_ne_fault (s : State) (e : HostError) (r : Fault) : s.raise e ≠ .fault r := nofun

@[simp] theorem State.returns_ne_refused (s : State) (v : Ret) (r : Refusal) : s.returns v ≠ .refused r := nofun

@[simp] theorem State.raise_ne_refused (s : State) (e : HostError) (r : Refusal) : s.raise e ≠ .refused r := nofun

theorem setLane_returns (s : State) (d : Nat) (l : Lane) (v : Ret) :
    (s.setLane d l).returns v = .next (withLane s d l v) := rfl

@[simp] theorem setLane_ret (s : State) (d : Nat) (l : Lane) (v : Ret) :
    { s.setLane d l with ret := v } = withLane s d l v := rfl

/-- Replacing a lane by itself changes nothing. -/
theorem withLane_self (s : State) (d : Nat) (l : Lane) (r : Ret) (h : s.lanes[d]? = some l) :
    withLane s d l r = { s with ret := r } := by
  obtain ⟨hd, rfl⟩ := List.getElem?_eq_some_iff.mp h
  simp [withLane]

/-- Two updates of one lane: the second wins. -/
theorem withLane_withLane (s : State) (d : Nat) (l l' : Lane) (r r' : Ret) :
    withLane (withLane s d l r) d l' r' = withLane s d l' r' := by
  simp [withLane]

/-- The lane just written, provided the device exists. -/
theorem withLane_getElem? (s : State) (d : Nat) (l l0 : Lane) (r : Ret) (h : s.lanes[d]? = some l0) :
    (withLane s d l r).lanes[d]? = some l := by
  obtain ⟨hd, -⟩ := List.getElem?_eq_some_iff.mp h
  simp [withLane, hd]

/-- Another device's lane is as it was. -/
theorem withLane_getElem?_ne (s : State) (d d' : Nat) (l : Lane) (r : Ret) (h : d ≠ d') :
    (withLane s d l r).lanes[d']? = s.lanes[d']? := by
  simp [withLane, h]

/-! ## Lanes -/

@[simp] theorem Lane.setOp_enabled (l : Lane) (k : SlotIx) (o : OpSlot) : (l.setOp k o).enabled = l.enabled := by cases k <;> rfl
@[simp] theorem Lane.setOp_txbuf (l : Lane) (k : SlotIx) (o : OpSlot) : (l.setOp k o).txbuf = l.txbuf := by cases k <;> rfl
@[simp] theorem Lane.setOp_wire (l : Lane) (k : SlotIx) (o : OpSlot) : (l.setOp k o).wire = l.wire := by cases k <;> rfl
@[simp] theorem Lane.setOp_rxValid (l : Lane) (k : SlotIx) (o : OpSlot) : (l.setOp k o).rxValid = l.rxValid := by cases k <;> rfl
@[simp] theorem Lane.setOp_rxBuf (l : Lane) (k : SlotIx) (o : OpSlot) : (l.setOp k o).rxBuf = l.rxBuf := by cases k <;> rfl
@[simp] theorem Lane.setOp_rx (l : Lane) (k : SlotIx) (o : OpSlot) : (l.setOp k o).rx = l.rx := by cases k <;> rfl

@[simp] theorem Lane.op_setOp (l : Lane) (k : SlotIx) (o : OpSlot) : (l.setOp k o).op k = o := by cases k <;> rfl

theorem Lane.op_setOp_ne (l : Lane) (k k' : SlotIx) (o : OpSlot) (h : k ≠ k') : (l.setOp k o).op k' = l.op k' := by
  cases k <;> cases k' <;> first | rfl | exact absurd rfl h

@[simp] theorem Lane.op_pri (l : Lane) : l.op .pri = l.pri := rfl
@[simp] theorem Lane.op_sec (l : Lane) : l.op .sec = l.sec := rfl

/-! ## Streams and devices -/

@[simp] theorem Streams.get_set {α : Type} (t : Streams α) (k : Kind) (s : Segment) (x : α) : (t.set k s x).get k s = x := by
  cases k <;> cases s <;> rfl

theorem Streams.get_set_ne {α : Type} (t : Streams α) (k k' : Kind) (s s' : Segment) (x : α) (h : (k', s') ≠ (k, s)) :
    (t.set k s x).get k' s' = t.get k' s' := by
  cases k <;> cases k' <;> cases s <;> cases s' <;> first | rfl | exact absurd rfl h

@[simp] theorem Streams.get_all {α : Type} (x : α) (k : Kind) (s : Segment) : (Streams.all x).get k s = x := by
  cases k <;> cases s <;> rfl

/-- Two tables with the same entries are equal. -/
theorem Streams.ext_get {α : Type} (t u : Streams α) (h : ∀ k s, t.get k s = u.get k s) : t = u := by
  cases t; cases u
  have h1 := h .mod .s0; have h2 := h .mod .s1; have h3 := h .foci .s0; have h4 := h .foci .s1
  simp_all [Streams.get]

@[simp] theorem Device.abort_ack (dev : Device) (k : Kind) (s : Segment) : (dev.abort k s).ack = dev.ack := rfl
@[simp] theorem Device.abort_segbuf (dev : Device) (k : Kind) (s : Segment) : (dev.abort k s).segbuf = dev.segbuf := rfl
@[simp] theorem Device.abort_consumer (dev : Device) (k : Kind) (s : Segment) : (dev.abort k s).consumer = dev.consumer := rfl
@[simp] theorem Device.abort_events (dev : Device) (k : Kind) (s : Segment) : (dev.abort k s).events = dev.events := rfl

theorem Device.abort_eq (dev : Device) (k : Kind) (s : Segment) : dev.abort k s = abortedDevice dev k s := rfl

/-- What an abort leaves in its stream (spec/42_frame_deserializer.md R228). -/
@[simp] theorem Device.abort_reasm_get (dev : Device) (k : Kind) (s : Segment) :
    (dev.abort k s).reasm.get k s = ⟨false, 0, (dev.reasm.get k s).latch⟩ := by
  simp [Device.abort]

/-- Any other stream is as it was. -/
theorem Device.abort_reasm_get_ne (dev : Device) (k k' : Kind) (s s' : Segment) (h : (k', s') ≠ (k, s)) :
    (dev.abort k s).reasm.get k' s' = dev.reasm.get k' s' := by
  simp [Device.abort, Streams.get_set_ne _ _ _ _ _ _ h]

@[simp] theorem acceptFragment_ack (p : Params) (k : Kind) (f : FragFlags) (n : Nat) (hdr : Latch) (base : Nat)
    (tail : List Byte) (dev : Device) : (acceptFragment p k f n hdr base tail dev).ack = dev.ack := rfl
@[simp] theorem acceptFragment_consumer (p : Params) (k : Kind) (f : FragFlags) (n : Nat) (hdr : Latch) (base : Nat)
    (tail : List Byte) (dev : Device) : (acceptFragment p k f n hdr base tail dev).consumer = dev.consumer := rfl

@[simp] theorem acceptFragment_reasm_get (p : Params) (k : Kind) (f : FragFlags) (n : Nat) (hdr : Latch) (base : Nat)
    (tail : List Byte) (dev : Device) :
    (acceptFragment p k f n hdr base tail dev).reasm.get k f.seg = ⟨!f.last, base + n, hdr⟩ := by
  simp [acceptFragment]

end Sys2Proof.Machine
end

