-- ==== Sys2Proof/Laws/Ops.lean ====
section
/-! SUPPORT. One lemma for each shared operation that says once everything it can do: what a next state, a fault or a refusal of
it means. Callers cite these and never unfold the operation. -/

namespace Sys2Proof.Machine

open Sys2Proof

/-! ## Lanes -/

theorem onLane_some {s : State} {d : Nat} {l : Lane} (f : Lane → Host.Outcome State Fault Refusal)
    (h : s.lanes[d]? = some l) : s.onLane d f = f l := by
  simp [State.onLane, h]

theorem onLane_none {s : State} {d : Nat} (f : Lane → Host.Outcome State Fault Refusal) (h : s.lanes.length ≤ d) :
    s.onLane d f = .refused (.noSuchDevice d) := by
  simp [State.onLane, h]

/-- A next state comes from the lane of an existing device. -/
theorem onLane_next {s t : State} {d : Nat} {f : Lane → Host.Outcome State Fault Refusal} :
    s.onLane d f = .next t ↔ ∃ l, s.lanes[d]? = some l ∧ f l = .next t := by
  unfold State.onLane
  cases h : s.lanes[d]? <;> simp

/-- So does a fault. -/
theorem onLane_fault {s : State} {d : Nat} {f : Lane → Host.Outcome State Fault Refusal} {r : Fault} :
    s.onLane d f = .fault r ↔ ∃ l, s.lanes[d]? = some l ∧ f l = .fault r := by
  unfold State.onLane
  cases h : s.lanes[d]? <;> simp

/-! ## Slots and frames on a device -/

/-- A slot run on its own writes the device's state and returns the error byte. -/
theorem onDevice_next {s t : State} {d : Nat} {f : Device → Device × Byte} :
    s.onDevice d f = .next t ↔
      ∃ l, s.lanes[d]? = some l ∧ t = withLane s d { l with rx := (f l.rx).1 } (.slotErr (f l.rx).2) := by
  simp only [State.onDevice, onLane_next, State.returns_eq_next, setLane_ret]

theorem onDevice_ne_fault {s : State} {d : Nat} {f : Device → Device × Byte} {r : Fault} : s.onDevice d f ≠ .fault r := by
  simp [State.onDevice, onLane_fault]

theorem rxOn_eq (s : State) (d : Nat) (l : Lane) (f : Frame) :
    s.rxOn d l f = .next (withLane s d { l with rx := rxFrame s.params f l.rx } .ok) := rfl

/-- FRAME answers a next state exactly on a payload of `N` bytes. -/
theorem execFrame_next {d : Nat} {f : Frame} {s t : State} :
    execFrame d f s = .next t ↔ f.payload.length = s.params.n ∧
      ∃ l, s.lanes[d]? = some l ∧ t = withLane s d { l with rx := rxFrame s.params f l.rx } .ok := by
  simp only [execFrame, onLane_next]
  constructor
  · rintro ⟨l, hl, h⟩
    split at h
    · simp at h
    · split at h
      · simp at h
      · rw [rxOn_eq] at h
        exact ⟨by omega, l, hl, (Host.Outcome.next.inj h).symm⟩
  · rintro ⟨hn, l, hl, rfl⟩
    exact ⟨l, hl, by rw [if_neg (by omega), if_neg (by omega), rxOn_eq]⟩

theorem decodeFrame_some {B : List Byte} (h : 4 ≤ B.length) :
    ∃ f, decodeFrame B = some f ∧ f.payload = B.drop 4 := by
  simp [decodeFrame, Nat.not_lt.mpr h]

/-- DEV_RX answers a next state exactly on `4 + N` bytes. -/
theorem execDevRx_next {d : Nat} {B : List Byte} {s t : State} :
    execDevRx d B s = .next t ↔ B.length = 4 + s.params.n ∧
      ∃ l f, s.lanes[d]? = some l ∧ decodeFrame B = some f ∧
        t = withLane s d { l with rx := rxFrame s.params f l.rx } .ok := by
  simp only [execDevRx, onLane_next]
  constructor
  · rintro ⟨l, hl, h⟩
    split at h
    · simp at h
    · split at h
      · simp at h
      · split at h
        · rename_i f hf
          rw [rxOn_eq] at h
          exact ⟨by omega, l, f, hl, hf, (Host.Outcome.next.inj h).symm⟩
        · simp at h
  · rintro ⟨hn, l, f, hl, hf, rfl⟩
    exact ⟨l, hl, by rw [if_neg (by omega), if_neg (by omega), hf]; rfl⟩

/-- DELIVER answers a next state exactly when the wire holds a frame. -/
theorem execDeliver_next {d : Nat} {s t : State} :
    execDeliver d s = .next t ↔ ∃ l f, s.lanes[d]? = some l ∧ decodeFrame l.wire = some f ∧
      t = withLane s d { l with rx := rxFrame s.params f l.rx } .ok := by
  simp only [execDeliver, onLane_next]
  constructor
  · rintro ⟨l, hl, h⟩
    split at h
    · rename_i f hf
      rw [rxOn_eq] at h
      exact ⟨l, f, hl, hf, (Host.Outcome.next.inj h).symm⟩
    · simp at h
  · rintro ⟨l, f, hl, hf, rfl⟩
    exact ⟨l, hl, by rw [hf]; rfl⟩

/-- The three things a frame can do to a device (spec/42_frame_deserializer.md R200). -/
theorem rxFrame_cases (p : Params) (f : Frame) (dev : Device) :
    (f.msgId = dev.ack.id ∧ rxFrame p f dev = dev) ∨
    (f.msgId ≠ dev.ack.id ∧ f.offset ≠ 0 ∧ p.n ≤ f.offset.toNat ∧ rxFrame p f dev = { dev with ack := ⟨f.msgId, eInvalidSlot⟩ }) ∨
    (f.msgId ≠ dev.ack.id ∧ (f.offset = 0 ∨ f.offset.toNat < p.n) ∧
      rxFrame p f dev = { (rxSlots p f dev).1 with ack := ⟨f.msgId, (rxSlots p f dev).2⟩ }) := by
  by_cases h : f.msgId = dev.ack.id
  · exact .inl ⟨h, by simp [rxFrame, h]⟩
  · by_cases h2 : f.offset ≠ 0 ∧ p.n ≤ f.offset.toNat
    · exact .inr (.inl ⟨h, h2.1, h2.2, by simp only [rxFrame, if_neg h, if_pos h2]⟩)
    · refine .inr (.inr ⟨h, ?_, by simp only [rxFrame, if_neg h, if_neg h2]⟩)
      by_cases h3 : f.offset = 0
      · exact .inl h3
      · exact .inr (Nat.not_le.mp fun h4 => h2 ⟨h3, h4⟩)

theorem boundsError_none {p : Params} {k : Kind} {f : FragFlags} {total : Nat} :
    boundsError p k f total = none ↔ total ≤ unitsMax p k ∧ (f.last = true → unitsMin p k ≤ total) := by
  unfold boundsError
  by_cases h1 : unitsMax p k < total
  · simp [h1]
  · by_cases h2 : total < unitsMin p k <;> cases f.last <;> simp [h1, h2, Nat.not_lt.mp h1]
    omega

/-- What `DECODE_FRAGMENT` has checked when it accepts a fragment (spec/42_frame_deserializer.md R215). -/
theorem checkFragment_ok {p : Params} {k : Kind} {f : FragFlags} {n : Nat} {new : Option Latch} {room : Nat} {st : Reasm}
    {hdr : Latch} {base : Nat} :
    checkFragment p k f n new room st = .ok (hdr, base) ↔
      flagsBad f = false ∧ n ≠ 0 ∧ payloadBytes p k n ≤ room ∧ (new = none → st.active = true) ∧
      hdr = new.getD st.latch ∧ base = (if new.isSome then 0 else st.count) ∧
      (f.trans = true → tmValid hdr.modeCode hdr.value = true) ∧
      base + n ≤ unitsMax p k ∧ (f.last = true → unitsMin p k ≤ base + n) := by
  unfold checkFragment
  split
  · simp_all
  · split
    · simp_all
    · split
      · simp only [reduceCtorEq, false_iff]; omega
      · split
        · rename_i h; simp at h; simp [h]
        · rename_i h1 h2 h3 h4
          have hact : new = none → st.active = true := fun hn => by subst hn; simpa using h4
          dsimp only
          generalize new.getD st.latch = h0
          generalize (if new.isSome = true then 0 else st.count) = b0
          split
          · rename_i h5
            simp only [Bool.and_eq_true, Bool.not_eq_true'] at h5
            simp only [reduceCtorEq, false_iff]
            rintro ⟨-, -, -, -, rfl, -, h, -⟩
            rw [h h5.1] at h5; simp at h5
          · rename_i h5
            have htm : f.trans = true → tmValid h0.modeCode h0.value = true := by
              intro ht; simpa [ht] using h5
            split
            · rename_i e he
              simp only [reduceCtorEq, false_iff]
              rintro ⟨-, -, -, -, -, rfl, -, h⟩
              rw [boundsError_none.mpr h] at he; simp at he
            · rename_i hb
              have hb := boundsError_none.mp hb
              simp only [Except.ok.injEq, Prod.mk.injEq]
              constructor
              · rintro ⟨rfl, rfl⟩
                exact ⟨by simpa using h1, h2, Nat.not_lt.mp h3, hact, rfl, rfl, htm, hb⟩
              · rintro ⟨-, -, -, -, rfl, rfl, -⟩
                exact ⟨rfl, rfl⟩

/-- A fragment is accepted or aborted. -/
theorem runFragment_cases (p : Params) (k : Kind) (f : FragFlags) (n : Nat) (new : Option Latch) (tail : List Byte)
    (dev : Device) :
    (∃ e, checkFragment p k f n new tail.length (dev.reasm.get k f.seg) = .error e ∧
      runFragment p k f n new tail dev = (abortedDevice dev k f.seg, e)) ∨
    (∃ hdr base, checkFragment p k f n new tail.length (dev.reasm.get k f.seg) = .ok (hdr, base) ∧
      runFragment p k f n new tail dev = (acceptFragment p k f n hdr base tail dev, eNone)) := by
  unfold runFragment
  cases h : checkFragment p k f n new tail.length (dev.reasm.get k f.seg) with
  | error e => exact .inl ⟨e, rfl, rfl⟩
  | ok r => exact .inr ⟨r.1, r.2, rfl, rfl⟩

/-- The line that answers is the first that applies; with none the default answers and the state stays. -/
theorem consume_cases (c : Consumer) (tag : Byte) (body : List Byte) :
    (∃ before r rest, c.rules = before ++ r :: rest ∧ (∀ q ∈ before, q.applies c.state tag body = false) ∧
      r.applies c.state tag body = true ∧ c.consume tag body = (r.answer, { c with state := r.next.getD c.state })) ∨
    ((∀ q ∈ c.rules, q.applies c.state tag body = false) ∧ c.consume tag body = (c.dflt, c)) := by
  unfold Consumer.consume
  cases h : c.rules.find? (fun r => r.applies c.state tag body) with
  | none => exact .inr ⟨fun q hq => by simpa using List.find?_eq_none.mp h q hq, rfl⟩
  | some r =>
    obtain ⟨hr, before, rest, hl, hb⟩ := List.find?_eq_some_iff_append.mp h
    exact .inl ⟨before, r, rest, hl, fun q hq => by simpa using hb q hq, hr, rfl⟩

/-- The tables miss no consumer (log entry 10): on any finite list of inputs, some table answers, and moves its state, as a given
function of the state, the tag and the bytes does. -/
theorem consumer_tables_suffice (F : Nat → Byte → List Byte → ConsumerAnswer × Nat) (inputs : List (Nat × Byte × List Byte))
    (dflt : ConsumerAnswer) :
    ∃ rules, ∀ st tag body, (st, tag, body) ∈ inputs →
      (⟨rules, dflt, st⟩ : Consumer).consume tag body = ((F st tag body).1, ⟨rules, dflt, (F st tag body).2⟩) := by
  refine ⟨inputs.map fun x => ⟨some x.1, some x.2.1, some x.2.2, (F x.1 x.2.1 x.2.2).1, some (F x.1 x.2.1 x.2.2).2⟩, ?_⟩
  intro st tag body hx
  rcases consume_cases ⟨inputs.map fun x => ⟨some x.1, some x.2.1, some x.2.2, (F x.1 x.2.1 x.2.2).1,
      some (F x.1 x.2.1 x.2.2).2⟩, dflt, st⟩ tag body with ⟨before, r, rest, hl, -, hr, h⟩ | ⟨hn, -⟩
  · rw [h]
    have hm : r ∈ before ++ r :: rest := by simp
    rw [← hl] at hm
    obtain ⟨y, -, rfl⟩ := List.mem_map.mp hm
    simp only [ConsumerRule.applies, Option.all_some, Bool.and_eq_true, beq_iff_eq] at hr
    obtain ⟨⟨h1, h2⟩, h3⟩ := hr
    simp only [h1, h2, h3, Option.getD_some]
  · have := hn _ (List.mem_map.mpr ⟨_, hx, rfl⟩)
    simp [ConsumerRule.applies] at this

/-- An ATOMIC slot is handed to the consumer, or its tag is unknown. -/
theorem slotAtomic_cases (p : Params) (tag : Byte) (body : List Byte) (dev : Device) :
    (tag ∈ p.atomicTags ∧
      slotAtomic p tag body dev = (consumedDevice dev tag body, (dev.consumer.consume tag body).1.toByte)) ∨
    (tag ∉ p.atomicTags ∧ slotAtomic p tag body dev = (dev, eInvalidTag)) := by
  by_cases h : tag ∈ p.atomicTags
  · exact .inl ⟨h, by simp [slotAtomic, h, consumedDevice]⟩
  · exact .inr ⟨h, by simp [slotAtomic, h]⟩

/-! ## The codec -/

/-- What `PACK_STREAM` has checked when it writes a fragment (spec/40_fragment_codec.md R150). -/
theorem packStream_ok {p : Params} {k : Kind} {ss : U32} {o : StreamOp} {sent : Nat} {done : Bool} {budget : Nat}
    {bs : List Byte} {sent' : Nat} {done' : Bool} :
    packStream p k ss o sent done budget = .ok (bs, sent', done') ↔
      done = false ∧ (sent = 0 → o.data.length ≤ unitsMax p k) ∧ streamNeed p k sent ≤ budget ∧
      sent' = sent + unitCount p k o sent budget ∧ done' = (sent' == o.data.length) ∧
      (sent' = o.data.length → unitsMin p k ≤ o.data.length) ∧
      bs = encodeSlot (fragmentSlot k ss o sent (unitCount p k o sent budget)) := by
  unfold packStream
  cases done
  · simp only [Bool.false_eq_true, if_false, true_and]
    by_cases h1 : sent = 0 ∧ unitsMax p k < o.data.length
    · simp only [if_pos h1]; simp; intro h; omega
    · simp only [if_neg h1]
      by_cases h2 : budget < streamNeed p k sent
      · simp only [if_pos h2]; simp; omega
      · simp only [if_neg h2]
        by_cases h3 : sent + unitCount p k o sent budget = o.data.length
        · by_cases h4 : o.data.length < unitsMin p k
          · simp [h3, h4]; omega
          · simp [h3, h4]
            constructor
            · rintro ⟨rfl, rfl, rfl⟩; simp; omega
            · rintro ⟨-, -, rfl, rfl, -, rfl⟩; simp
        · simp [h3]
          constructor
          · rintro ⟨rfl, rfl, rfl⟩; simp; omega
          · rintro ⟨-, -, rfl, rfl, -, rfl⟩; simp
  · simp

/-- A pack of any slot that succeeds advances that slot and nothing else about it. -/
theorem packSlot_ok {p : Params} {o o' : OpSlot} {budget : Nat} {bs : List Byte} (h : packSlot p o budget = .ok (bs, o')) :
    (∃ op sent sent' done', o = .mod op sent false ∧ o' = .mod op sent' done' ∧
      packStream p .mod 0 op sent false budget = .ok (bs, sent', done')) ∨
    (∃ op ss sent sent' done', o = .foci op ss sent false ∧ o' = .foci op ss sent' done' ∧
      packStream p .foci ss op sent false budget = .ok (bs, sent', done')) ∨
    (∃ tag body, o = .atomic tag body false ∧ o' = .atomic tag body true ∧ bs = tag :: body ∧ 1 + body.length ≤ budget) := by
  cases o with
  | null => simp [packSlot] at h
  | mod op sent done =>
    simp only [packSlot, packMod] at h
    split at h
    · simp at h
    · rename_i bs1 s1 d1 hp
      obtain rfl := (packStream_ok.mp hp).1
      simp at h; obtain ⟨rfl, rfl⟩ := h
      exact .inl ⟨op, sent, s1, d1, rfl, rfl, hp⟩
  | foci op ss sent done =>
    simp only [packSlot, packFoci] at h
    split at h
    · simp at h
    · rename_i bs1 s1 d1 hp
      obtain rfl := (packStream_ok.mp hp).1
      simp at h; obtain ⟨rfl, rfl⟩ := h
      exact .inr (.inl ⟨op, ss, sent, s1, d1, rfl, rfl, hp⟩)
  | atomic tag body done =>
    simp only [packSlot, packAtomic] at h
    split at h
    · simp at h
    · split at h
      · simp at h
      · rename_i hd hb
        simp [encodeSlot] at h hd; obtain ⟨rfl, rfl⟩ := h
        subst hd
        exact .inr (.inr ⟨tag, body, rfl, rfl, rfl, by omega⟩)

/-- A pack command's next state: an error with nothing changed, or the slot advanced and the buffer returned. -/
theorem packInto_next {s t : State} {d : Nat} {k : SlotIx} {buf : List Byte} {base budget : Nat}
    {pack : OpSlot → Host.Outcome (Except HostError (List Byte × OpSlot)) Fault Refusal} :
    s.packInto d k buf base budget pack = .next t ↔ base + budget ≤ s.params.n ∧ buf.length = s.params.n ∧
      ∃ l, s.lanes[d]? = some l ∧
        ((∃ e, pack (l.op k) = .next (.error e) ∧ t = { s with ret := .error e }) ∨
         (∃ bs o, pack (l.op k) = .next (.ok (bs, o)) ∧
            t = withLane s d (l.setOp k o) (.packed (copyAt buf base bs) bs.length))) := by
  simp only [State.packInto, onLane_next]
  constructor
  · rintro ⟨l, hl, h⟩
    split at h
    · simp at h
    · split at h
      · simp at h
      · split at h
        · simp at h
        · refine ⟨by omega, by omega, l, hl, ?_⟩
          split at h
          · rename_i e he
            exact .inl ⟨e, he, by simpa using h⟩
          · rename_i bs o ho
            exact .inr ⟨bs, o, ho, (Host.Outcome.next.inj h).symm⟩
          · simp at h
          · simp at h
  · rintro ⟨h1, h2, l, hl, h⟩
    refine ⟨l, hl, ?_⟩
    rw [if_neg (by omega), if_neg (by omega), if_neg (by omega)]
    obtain ⟨e, he, rfl⟩ | ⟨bs, o, ho, rfl⟩ := h
    · rw [he]; rfl
    · rw [ho]; rfl

/-! ## The batch and the link -/

/-- Every lane of a successful batch is its own lane packed, in place. -/
theorem packAll_ok {p : Params} {id : Byte} {ls ls' : List Lane} :
    packAll p id ls = .ok ls' ↔ List.Forall₂ (fun l l' => packDevice p id l = .ok l') ls ls' := by
  induction ls generalizing ls' with
  | nil => cases ls' <;> simp [packAll]
  | cons l ls ih =>
    simp only [packAll]
    cases hd : packDevice p id l with
    | error e => cases ls' <;> simp [hd]
    | ok l' =>
      cases ht : packAll p id ls with
      | error e =>
        cases ls' with
        | nil => simp
        | cons a as =>
          simp only [reduceCtorEq, List.forall₂_cons, false_iff]
          rintro ⟨-, h⟩
          rw [ih.mpr h] at ht; simp at ht
      | ok ls'' =>
        cases ls' with
        | nil => simp
        | cons a as => simp [hd, ← ih, ht]

/-- A link step fails for exactly two reasons. -/
theorem linkError_none {s : State} {io : Bool} : s.linkError io = none ↔ s.linkOpen = true ∧ io = false := by
  unfold State.linkError
  cases s.linkOpen <;> cases io <;> simp

/-- SEND's next state. -/
theorem execSend_next {io : Bool} {s t : State} :
    execSend io s = .next t ↔ (∃ e, s.linkError io = some e ∧ t = { s with ret := .error e }) ∨
      (s.linkError io = none ∧ t = { s with lanes := s.lanes.map (fun l => { l with wire := l.txbuf }), ret := .ok }) := by
  unfold execSend
  cases h : s.linkError io <;> simp

/-- RECEIVE's next state. -/
theorem execReceive_next {io : Bool} {draws : List RxDraw} {s t : State} :
    execReceive io draws s = .next t ↔ draws.length = s.lanes.length ∧
      ((∃ e, s.linkError io = some e ∧ t = { s with ret := .error e }) ∨
       (s.linkError io = none ∧ t = { s with lanes := List.zipWith receiveLane draws s.lanes, ret := .ok })) := by
  unfold execReceive
  by_cases h : draws.length = s.lanes.length <;> cases h2 : s.linkError io <;> simp [h]

/-- ISSUE's next state. -/
theorem execIssue_next {s t : State} :
    execIssue s = .next t ↔
      (∃ e, packAll s.params (s.msgId + 1) s.lanes = .error e ∧ t = { s with msgId := s.msgId + 1, ret := .error e }) ∨
      (∃ ls, packAll s.params (s.msgId + 1) s.lanes = .ok ls ∧ t = { s with msgId := s.msgId + 1, lanes := ls, ret := .ok }) := by
  unfold execIssue
  cases h : packAll s.params (s.msgId + 1) s.lanes <;> simp

/-! ## The send loop -/

/-- A command of the loop either fails the call with its error or goes on. -/
theorem thenLoop_next {o : Host.Outcome State Fault Refusal} {k : State → State} {t : State} :
    thenLoop o k = .next t ↔ ∃ u, o = .next u ∧
      ((∃ e, u.ret = .error e ∧ t = u.failCall e) ∨ ((∀ e, u.ret ≠ .error e) ∧ t = k u)) := by
  unfold thenLoop
  cases o with
  | next u => cases h : u.ret <;> simp [h, eq_comm]
  | fault r => simp
  | refused r => simp

/-- The command each place of the loop runs (spec/44_host_session.md R262). -/
theorem hostTurn_idle {w : HostDraw} {s : State} (h : s.hostPc = .idle) : hostTurn w s = .next s := by
  simp only [hostTurn, h]

theorem hostTurn_setup {w : HostDraw} {s : State} {c : SetupCmd} {todo : List SetupCmd} (h : s.hostPc = .setup (c :: todo)) :
    hostTurn w s = thenLoop (c.run s) (afterSetup todo) := by
  simp only [hostTurn, h]

theorem hostTurn_issue {w : HostDraw} {s : State} (h : s.hostPc = .issue) :
    hostTurn w s = thenLoop (execIssue s) (fun t => { t with hostPc := .send }) := by
  simp only [hostTurn, h]

theorem hostTurn_send {w : HostDraw} {s : State} (h : s.hostPc = .send) :
    hostTurn w s = thenLoop (execSend w.io s) afterSend := by
  simp only [hostTurn, h]

theorem hostTurn_receive {w : HostDraw} {s : State} (h : s.hostPc = .receive) :
    hostTurn w s = thenLoop (execReceive w.io w.rx s) (fun t => { t with hostPc := .matching }) := by
  simp only [hostTurn, h]

theorem hostTurn_matching {w : HostDraw} {s : State} (h : s.hostPc = .matching) :
    hostTurn w s = thenLoop (execMatch s) (afterMatch w.timeout) := by
  simp only [hostTurn, h]

/-- SEND_DATAGRAM's next state: the call fails on a closed link, or starts with its ENABLEs and LOADs to come. -/
theorem execSendDatagram_next {calls : List DeviceCall} {timeout : Nat} {s t : State} :
    execSendDatagram calls timeout s = .next t ↔ s.callRunning = false ∧ calls.length = s.lanes.length ∧
      (∀ c ∈ calls, operandOk (effectiveOp c c.pri) = true ∧ operandOk (effectiveOp c c.sec) = true) ∧
      ((s.linkOpen = false ∧ t = s.failCall .linkNotOpen) ∨
       (s.linkOpen = true ∧ t = { afterSetup (setupCmds 0 calls) { s with tz := timeout == 0 } with ret := .ok })) := by
  unfold execSendDatagram
  by_cases h1 : s.callRunning = true
  · simp [h1]
  · by_cases h2 : calls.length = s.lanes.length
    · by_cases h3 : ∀ c ∈ calls, operandOk (effectiveOp c c.pri) = true ∧ operandOk (effectiveOp c c.sec) = true
      · have h4 : calls.all (fun c => operandOk (effectiveOp c c.pri) && operandOk (effectiveOp c c.sec)) = true := by
          simpa [List.all_eq_true] using h3
        rw [if_neg h1, if_neg (by simp [h2]), h4]
        cases h5 : s.linkOpen
        · exact ⟨fun h => ⟨by simpa using h1, h2, h3, .inl ⟨rfl, (Host.Outcome.next.inj h).symm⟩⟩,
            fun ⟨_, _, _, h⟩ => by rcases h with ⟨-, rfl⟩ | ⟨h, -⟩ <;> simp_all⟩
        · exact ⟨fun h => ⟨by simpa using h1, h2, h3, .inr ⟨rfl, (Host.Outcome.next.inj h).symm⟩⟩,
            fun ⟨_, _, _, h⟩ => by
              rcases h with ⟨h, -⟩ | ⟨-, rfl⟩
              · simp at h
              · rfl⟩
      · have h4 : calls.all (fun c => operandOk (effectiveOp c c.pri) && operandOk (effectiveOp c c.sec)) = false := by
          simpa [← Bool.not_eq_true, List.all_eq_true] using h3
        simp [h1, h2, h3, h4]
    · simp [h1, h2]

/-- A step is the turn at the head of the queue, run on the state whose queue has moved past it. -/
theorem step_cons {s : State} {t : Turn} {rest : List Turn} (h : s.queue = t :: rest) :
    step s = runTurn t { s with queue := rest } := by
  simp only [step, nextTurn, h]

end Sys2Proof.Machine
end

