-- ==== Sys2Proof/Tests/Slice0.lean ====
section
/-! SUPPORT. The model's own tests: what WellFormed refuses, words written out from the tables of spec/30_encoding.md, one or two
steps per instruction with the results of spec/95_test_vectors.md, and for every obligation with hypotheses a witness that
meets them. -/

namespace Sys2Proof.Tests

open Sys2Proof Sys2Proof.Machine

/-! ## Helpers -/

/-- The conventions of spec/95_test_vectors.md with a payload of `n` bytes. -/
def pn (n : Nat) : Params := { Params.default with n := n, tzPolicy := .allFragments }

/-- Reset with `D` devices, every device enabled, the link open. -/
def start (n D : Nat) : State :=
  { State.resetWith (pn n) D with linkOpen := true, lanes := List.replicate D { Lane.reset n with enabled := true } }

/-- The same with one device whose lane is `l`. -/
def with1 (n : Nat) (l : Lane) : State := { start n 1 with lanes := [l] }

/-- An enabled lane with the given slots. -/
def slots (n : Nat) (a b : OpSlot) : Lane := { Lane.reset n with enabled := true, pri := a, sec := b }

/-- The state a command leaves, if it leaves one. -/
def after (o : Host.Outcome State Fault Refusal) : Option State :=
  match o with
  | .next s => some s
  | _ => none

def retOf (o : Host.Outcome State Fault Refusal) : Option Ret := (after o).map (·.ret)

def laneOf (o : Host.Outcome State Fault Refusal) (d : Nat) : Option Lane := (after o).bind (·.lanes[d]?)

def devOf (o : Host.Outcome State Fault Refusal) : Option Device := (laneOf o 0).map (·.rx)

/-- A modulation operation of single-byte units. -/
def modOp (seg : Segment) (mode : TransitionMode) (fd : U16) (rep : LoopBehavior) (bs : List Byte) : StreamOp :=
  ⟨seg, mode, fd, rep, bs.map ([·])⟩

/-- A frame's bytes, zero-filled to `4 + n`. -/
def frameOf (n : Nat) (bs : List Byte) : List Byte := bs ++ zeros (4 + n - bs.length)

/-! ## WellFormed refuses -/

theorem test_wf_accepts_modFirst :
    (Instr.modFirst 0 ⟨⟨true, true, .s0, 0⟩, 1, 2, 10, 0, 3⟩ [7, 0, 0]).wf (pn 30) 1 = true := by decide

theorem test_wf_refuses_device : (Instr.enable 1 true).wf (pn 30) 1 = false := by decide

theorem test_wf_refuses_reserved_flag :
    (Instr.modCont 0 ⟨⟨false, false, .s0, 1⟩, 2⟩ [1, 2]).wf (pn 30) 1 = false := by decide

theorem test_wf_refuses_transition_without_end :
    (Instr.modCont 0 ⟨⟨false, true, .s0, 0⟩, 2⟩ [1, 2]).wf (pn 30) 1 = false := by decide

theorem test_wf_refuses_mod_size :
    (Instr.modFirst 0 ⟨⟨true, false, .s0, 0⟩, 0, 0, 10, 0, 0⟩ []).wf (pn 30) 1 = false ∧
    (Instr.modFirst 0 ⟨⟨true, false, .s0, 0⟩, 255, 0, 10, 0, 0⟩ (zeros 256)).wf (pn 300) 1 = false ∧
    (Instr.modCont 0 ⟨⟨true, false, .s0, 0⟩, 0⟩ []).wf (pn 30) 1 = false := by decide

theorem test_wf_refuses_foci_size :
    (Instr.fociFirst 0 ⟨⟨true, false, .s0, 0⟩, 0, 0, 1, 0, 0, 0, 0⟩ []).wf (pn 30) 1 = false ∧
    (Instr.fociCont 0 ⟨⟨true, false, .s0, 0⟩, 0⟩ []).wf (pn 30) 1 = false := by decide

theorem test_wf_refuses_mode :
    (Instr.modFirst 0 ⟨⟨true, true, .s0, 0⟩, 2, 5, 10, 0, 0⟩ [1, 2]).wf (pn 30) 1 = false ∧
    (Instr.modFirst 0 ⟨⟨true, true, .s0, 0⟩, 2, 2, 10, 0, 4⟩ [1, 2]).wf (pn 30) 1 = false ∧
    (Instr.modFirst 0 ⟨⟨true, true, .s0, 0⟩, 2, 0, 10, 0, 1⟩ [1, 2]).wf (pn 30) 1 = false := by decide

theorem test_wf_refuses_short_payload :
    (Instr.modFirst 0 ⟨⟨true, false, .s0, 0⟩, 3, 0, 10, 0, 0⟩ [1, 2, 3]).wf (pn 30) 1 = false ∧
    (Instr.modCont 0 ⟨⟨true, false, .s0, 0⟩, 3⟩ [1, 2, 3]).wf (pn 30) 1 = false ∧
    (Instr.fociFirst 0 ⟨⟨true, false, .s0, 0⟩, 1, 0, 1, 0, 0, 0, 0⟩ (zeros 7)).wf (pn 40) 1 = false ∧
    (Instr.fociCont 0 ⟨⟨true, false, .s0, 0⟩, 1⟩ (zeros 7)).wf (pn 30) 1 = false := by decide

theorem test_wf_refuses_nonzero_fill :
    (Instr.empty 0 [0, 1]).wf (pn 30) 1 = false ∧
    (Instr.modFirst 0 ⟨⟨true, false, .s0, 0⟩, 1, 0, 10, 0, 0⟩ [1, 2]).wf (pn 30) 1 = false ∧
    (Instr.modCont 0 ⟨⟨true, false, .s0, 0⟩, 1⟩ [1, 2]).wf (pn 30) 1 = false ∧
    (Instr.fociFirst 0 ⟨⟨true, false, .s0, 0⟩, 1, 0, 1, 0, 0, 0, 0⟩ (zeros 8 ++ [1])).wf (pn 40) 1 = false ∧
    (Instr.fociCont 0 ⟨⟨true, false, .s0, 0⟩, 1⟩ (zeros 8 ++ [1])).wf (pn 30) 1 = false := by decide

theorem test_wf_refuses_foci_reserved_bytes :
    (Instr.fociFirst 0 ⟨⟨true, false, .s0, 0⟩, 1, 0, 1, 9, 0, 0, 0⟩ (zeros 8)).wf (pn 40) 1 = false := by decide

theorem test_wf_refuses_absent_tag :
    (Instr.atomic31 0 [1]).wf { pn 30 with atomicTags := [0x11] } 1 = false := by decide

theorem test_wf_refuses_frame :
    (Instr.frame 0 ⟨1, 0, 0, zeros 29⟩).wf (pn 30) 1 = false ∧ (Instr.frame 0 ⟨1, 1, 0, zeros 30⟩).wf (pn 30) 1 = false ∧
    (Instr.frame 0 ⟨1, 0, 30, zeros 30⟩).wf (pn 30) 1 = false ∧ (Instr.devRx 0 (zeros 33)).wf (pn 30) 1 = false := by decide

theorem test_wf_refuses_repeat :
    (Instr.load 0 .pri (.mod (modOp .s0 .later 1 (.finite 0) [1]))).wf (pn 30) 1 = false ∧
    (Instr.load 0 .pri (.mod (modOp .s0 .later 1 (.finite 65536) [1]))).wf (pn 30) 1 = false ∧
    (Instr.load 0 .pri (.foci (modOp .s0 .later 1 (.finite 0) []) 1)).wf (pn 30) 1 = false := by decide

theorem test_wf_refuses_wide_sample :
    (Instr.load 0 .pri (.mod ⟨.s0, .later, 1, .infinite, [[1, 2]]⟩)).wf (pn 30) 1 = false := by decide

theorem test_wf_refuses_window :
    (Instr.packMod 0 .pri (zeros 30) 1 30).wf (pn 30) 1 = false ∧ (Instr.packFoci 0 .pri (zeros 29) 0 1).wf (pn 30) 1 = false ∧
    (Instr.packAtomic 0 .pri (zeros 31) 0 1).wf (pn 30) 1 = false := by decide

theorem test_wf_refuses_lists :
    (Instr.receive false []).wf (pn 30) 1 = false ∧ (Instr.sendDatagram [] 1).wf (pn 30) 1 = false ∧
    (Instr.sendDatagram [⟨true, .mod (modOp .s0 .later 1 (.finite 0) [1]), .null⟩] 1).wf (pn 30) 1 = false ∧
    (Instr.sendDatagram [⟨true, .null, .mod (modOp .s0 .later 1 (.finite 0) [1])⟩] 1).wf (pn 30) 1 = false := by decide

/-! ## Decoding: words written out bit by bit -/

/-- Spec/95_test_vectors.md L1-5: flags 07 = BEGIN, END, TRANSITION. -/
theorem test_decode_modFirst :
    decodeTableWord 144 (BitVec.toNat (0x6655#16 ++ 0x0123456789ABCDEF#64 ++ 0x0000#16 ++ 0x000A#16 ++ 0x01#8 ++ 0x02#8
        ++ (0b0000#4 ++ 0b0#1 ++ 0b1#1 ++ 0b1#1 ++ 0b1#1) ++ 0x10#8))
      = some (.modFirst 0 ⟨⟨true, true, .s0, 0⟩, 2, 1, 10, 0, 0x0123456789ABCDEF⟩ ([0x55, 0x66] ++ zeros 46)) := by decide

/-- L1-1 frame 2: flags 0A = END, SEGMENT. -/
theorem test_decode_modCont :
    decodeTableWord 48 (BitVec.toNat (0x000E#16 ++ 0x0001#16 ++ (0b0000#4 ++ 0b1#1 ++ 0b0#1 ++ 0b1#1 ++ 0b0#1) ++ 0x10#8))
      = some (.modCont 0 ⟨⟨true, false, .s1, 0⟩, 1⟩ (0x0E :: zeros 59)) := by decide

/-- D4-2 frame 1: flags 09 = BEGIN, SEGMENT. -/
theorem test_decode_fociFirst :
    decodeTableWord 192 (BitVec.toNat (0x0000000000000000#64 ++ 0x00000002#32 ++ 0x00001000#32 ++ 0x0000#16 ++ 0x0002#16 ++ 0x00#8
        ++ 0x02#8 ++ (0b0000#4 ++ 0b1#1 ++ 0b0#1 ++ 0b0#1 ++ 0b1#1) ++ 0x40#8))
      = some (.fociFirst 0 ⟨⟨false, false, .s1, 0⟩, 2, 0, 2, 0, 0x1000, 2, 0⟩ (zeros 40)) := by decide

/-- D4-2 frame 2. -/
theorem test_decode_fociCont :
    decodeTableWord 32 (BitVec.toNat (0x0003#16 ++ (0b0000#4 ++ 0b1#1 ++ 0b0#1 ++ 0b1#1 ++ 0b0#1) ++ 0x40#8))
      = some (.fociCont 0 ⟨⟨true, false, .s1, 0⟩, 3⟩ (zeros 60)) := by decide

theorem test_decode_empty : decodeTableWord 8 0x00 = some (.empty 0 (zeros 63)) := by decide

theorem test_decode_atomics :
    decodeTableWord 8 0x11 = some (.atomic11 0 (zeros 63)) ∧ decodeTableWord 8 0x30 = some (.atomic30 0 (zeros 63)) ∧
    decodeTableWord 8 0x31 = some (.atomic31 0 (zeros 63)) ∧ decodeTableWord 8 0x42 = some (.atomic42 0 (zeros 63)) ∧
    decodeTableWord 16 0x0160 = some (.atomic60 0 (0x01 :: zeros 62)) := by decide

theorem test_decode_frame :
    decodeFrame [0x05, 0x00, 0x02, 0x01, 0x77, 0x60] = some ⟨0x05, 0x00, 0x0102, [0x77, 0x60]⟩ := by decide

theorem test_decode_ack : decodeAck [0x05, 0x03] = some ⟨0x05, 0x03⟩ := by decide

/-- Tags in no class, and headers cut short (spec/42_frame_deserializer.md R206, R212). -/
theorem test_decode_refuses :
    decodeSlot (pn 30).atomicTags [0x77] = .error (.unknownTag 0x77) ∧
    decodeSlot (pn 30).atomicTags [0x10] = .error (.noFlags .mod) ∧
    decodeSlot (pn 30).atomicTags [0x40, 0x01, 0x02] = .error (.shortHeader .foci true ⟨false, false, .s0, 0⟩) ∧
    decodeSlot (pn 30).atomicTags [] = .error .noTag := by decide

/-! ## One step per instruction -/

/-- R205: the bytes after the tag are not read. -/
theorem test_empty :
    retOf (exec (.empty 0 [0x99]) (start 30 1)) = some (.slotErr 0x00) ∧
    devOf (exec (.empty 0 [0x99]) (start 30 1)) = some Device.reset := by decide

/-- D8-18, its second frame: four samples, `END`, no `TRANSITION`. -/
theorem test_modFirst :
    (devOf (exec (.modFirst 0 ⟨⟨true, false, .s0, 0⟩, 4, 0, 10, 0xFFFF, 0⟩ [9, 8, 7, 6, 0]) (start 30 1))).map
      (fun v => (v.events, v.segByte .mod .s0 0, v.segByte .mod .s0 3, v.segByte .mod .s0 4))
      = some ([.set .mod .s0 10 4 .infinite .later none], some 9, some 6, none) := by decide

/-- D8-10: mode code 05 with `TRANSITION` is `E_INVALID_TRANSITION`. -/
theorem test_modFirst_bad_mode :
    retOf (exec (.modFirst 0 ⟨⟨true, true, .s0, 0⟩, 2, 5, 10, 0xFFFF, 0⟩ [1, 2]) (start 30 1)) = some (.slotErr 0x06) := by decide

/-- D8-3: a continuation with no active stream. -/
theorem test_modCont_inactive :
    retOf (exec (.modCont 0 ⟨⟨false, false, .s0, 0⟩, 2⟩ [0xAA, 0xBB]) (start 30 1)) = some (.slotErr 0x02) := by decide

/-- A lane whose device has received the 14 samples of frame 1 of P1 (spec/95_test_vectors.md) in stream (MOD, S0). -/
def lane14 : Lane :=
  { slots 30 .null .null with rx := { Device.reset with
      ack := ⟨1, 0⟩
      reasm := Device.reset.reasm.set .mod .s0 ⟨true, 14, ⟨10, 0xFFFF, 0, 0, 0⟩⟩
      segbuf := Device.reset.segbuf.set .mod .s0 ((List.range 14).map (fun i => (i, BitVec.ofNat 8 i))) } }

/-- R217: the units go to the stream's count, here 14. -/
theorem test_modCont_appends :
    (devOf (exec (.modCont 0 ⟨⟨false, false, .s0, 0⟩, 1⟩ [0x0E, 0x00]) (with1 30 lane14))).map
      (fun v => ((v.reasm.get .mod .s0).count, v.segByte .mod .s0 13, v.segByte .mod .s0 14, v.segByte .mod .s0 15))
      = some (15, some 0x0D, some 0x0E, none) := by decide

/-- D4-1's event, with one record. -/
theorem test_fociFirst :
    (devOf (exec (.fociFirst 0 ⟨⟨true, true, .s0, 0⟩, 1, 0xFF, 10, 0, 340000, 0xFFFFFFFF, 0⟩ [1, 2, 3, 4, 5, 6, 7, 8])
      (start 64 1))).map (·.events) = some [.set .foci .s0 10 1 .infinite .immediate (some 340000)] := by decide

/-- R212: a record cut short. -/
theorem test_fociFirst_short :
    retOf (exec (.fociFirst 0 ⟨⟨true, true, .s0, 0⟩, 1, 0xFF, 10, 0, 340000, 0, 0⟩ [1, 2, 3, 4, 5, 6, 7]) (start 64 1))
      = some (.slotErr 0x04) := by decide

/-- R210. -/
theorem test_fociCont_inactive :
    retOf (exec (.fociCont 0 ⟨⟨true, false, .s1, 0⟩, 1⟩ (zeros 8)) (start 30 1)) = some (.slotErr 0x02) := by decide

/-- R207 before R210: flag bit 4. -/
theorem test_fociCont_flags :
    retOf (exec (.fociCont 0 ⟨⟨true, false, .s1, 1⟩, 1⟩ (zeros 8)) (start 30 1)) = some (.slotErr 0x03) := by decide

/-- The consumer of P4, part b: 0x20 for tag 0x60, and 0x00 for any other. -/
def consumer20 : Consumer := ⟨[⟨none, some 0x60, none, .code ⟨0x10, by decide⟩, none⟩], .accepted, 0⟩

/-- A lane whose device has that consumer. -/
def lane20 : Lane := { slots 30 .null .null with rx := { Device.reset with consumer := consumer20 } }

/-- D8-15: the consumer's code is carried as is. -/
theorem test_atomic60 :
    retOf (exec (.atomic60 0 [0x01]) (with1 30 lane20)) = some (.slotErr 0x20) ∧
    (devOf (exec (.atomic60 0 [0x01]) (with1 30 lane20))).map (·.events) = some [.atomic 0x60 [0x01]] := by decide

/-- The same consumer, in the same state, accepts another tag (P4, part b). -/
theorem test_atomic11 :
    retOf (exec (.atomic11 0 [0xC0]) (with1 30 lane20)) = some (.slotErr 0x00) ∧
    (devOf (exec (.atomic11 0 [0xC0, 0xC9]) (start 30 1))).map (·.events) = some [.atomic 0x11 [0xC0, 0xC9]] := by decide

theorem test_atomic30 :
    (devOf (exec (.atomic30 0 [0x01]) (start 30 1))).map (·.events) = some [.atomic 0x30 [0x01]] := by decide

theorem test_atomic31 :
    (devOf (exec (.atomic31 0 [0x01]) (start 30 1))).map (·.events) = some [.atomic 0x31 [0x01]] := by decide

theorem test_atomic42 :
    (devOf (exec (.atomic42 0 []) (start 30 1))).map (·.events) = some [.atomic 0x42 []] := by decide

/-- D8-14: slot one fails, so slot two is not decoded. -/
theorem test_frame_slot_one_fails :
    (devOf (exec (.frame 0 ⟨0x05, 0, 2, [0x77, 0x00, 0x60, 0x01] ++ zeros 26⟩) (start 30 1))).map (fun v => (v.ack, v.events))
      = some (⟨0x05, 0x01⟩, []) := by decide

/-- D8-9: slot one is emitted, slot two is shorter than its header. -/
theorem test_frame_two_slots :
    (devOf (exec (.frame 0 ⟨0x0D, 0, 0x1C, [0x60, 0x01] ++ zeros 26 ++ [0x10, 0x01]⟩) (start 30 1))).map
      (fun v => (v.ack, v.events)) = some (⟨0x0D, 0x04⟩, [.atomic 0x60 ([0x01] ++ zeros 26)]) := by decide

/-- R240: no record while `RXVALID[d] = 0`. -/
theorem test_ack :
    retOf (exec (.ack 0 ⟨5, 3⟩) (start 30 1)) = some (.parsed none) ∧
    retOf (exec (.ack 0 ⟨5, 3⟩) (with1 30 { Lane.reset 30 with rxValid := true })) = some (.parsed (some ⟨5, 3⟩)) := by decide

/-- R310, R311: `LINK_OPEN` stays. -/
theorem test_reset :
    (after (exec .reset { with1 30 lane14 with msgId := 9, session := .failed })).map
      (fun t => (t.msgId, t.session, t.linkOpen)) = some (0x00, Session.idle, true) ∧
    (laneOf (exec .reset (with1 30 lane14)) 0).map (fun l => (l.enabled, l.rx.ack, (l.rx.reasm.get .mod .s0).active))
      = some (false, ⟨0, 0⟩, false) := by decide

/-- D1-1, D1-2. -/
theorem test_load :
    (laneOf (exec (.load 0 .pri (.mod (modOp .s0 (.gpio 3) 1 .infinite [1, 2]))) (start 30 1)) 0).map (·.pri)
      = some (.mod (modOp .s0 (.gpio 3) 1 .infinite [1, 2]) 0 false) ∧
    retOf (exec (.load 0 .pri (.mod (modOp .s0 (.gpio 4) 1 .infinite [1, 2]))) (start 30 1))
      = some (.error (.invalidTransition (.gpio 4))) := by decide

/-- D1-4, D1-5. -/
theorem test_load_refused_by_check :
    retOf (exec (.load 0 .sec (.atomic 0x50 [1])) (start 30 1)) = some (.error (.invalidOperation .tag)) ∧
    retOf (exec (.load 0 .pri (.foci ⟨.s0, .later, 1, .infinite, [zeros 7]⟩ 1)) (start 30 1))
      = some (.error (.invalidOperation .recordWidth)) := by decide

theorem test_enable : (laneOf (exec (.enable 0 false) (start 30 1)) 0).map (·.enabled) = some false := by decide

/-- D2-1, D2-2. -/
theorem test_requiredSize_mod :
    retOf (exec (.requiredSize 0 .pri) (with1 30 (slots 30 (.mod (modOp .s0 .later 1 .infinite [1, 2, 3]) 0 false) .null)))
      = some (.size 18) ∧
    retOf (exec (.requiredSize 0 .pri) (with1 30 (slots 30 (.mod (modOp .s0 .later 1 .infinite [1, 2, 3]) 2 false) .null)))
      = some (.size 6) := by decide

/-- D2-4, D2-5, D2-7. -/
theorem test_requiredSize_other :
    retOf (exec (.requiredSize 0 .pri) (with1 30 (slots 30 (.foci ⟨.s0, .later, 1, .infinite, [zeros 8, zeros 8]⟩ 0 1 false) .null)))
      = some (.size 12) ∧
    retOf (exec (.requiredSize 0 .sec) (with1 30 (slots 30 .null (.atomic 0x60 [1] false)))) = some (.size 2) ∧
    retOf (exec (.requiredSize 0 .pri) (start 30 1)) = some (.size 0) := by decide

/-- D3-5: three samples and the pad byte. -/
theorem test_packMod :
    retOf (exec (.packMod 0 .pri (zeros 30) 0 30) (with1 30 (slots 30 (.mod (modOp .s1 .later 10 .infinite [1, 2, 3]) 0 false) .null)))
      = some (.packed ([0x10, 0x0B, 0x03, 0x00, 0x0A, 0x00, 0xFF, 0xFF, 0, 0, 0, 0, 0, 0, 0, 0, 1, 2, 3, 0] ++ zeros 10) 20) := by
  decide

/-- D3-3. -/
theorem test_packMod_budget :
    retOf (exec (.packMod 0 .pri (zeros 30) 0 17) (with1 30 (slots 30 (.mod (modOp .s1 .later 10 .infinite [1, 2, 3]) 0 false) .null)))
      = some (.error (.insufficientBuffer 18 17)) := by decide

/-- D4-2, its second frame, with one record left: no padding. -/
theorem test_packFoci :
    retOf (exec (.packFoci 0 .pri (zeros 30) 0 30) (with1 30 (slots 30
      (.foci ⟨.s1, .later, 2, .finite 3, [zeros 8, [1, 2, 3, 4, 5, 6, 7, 8]]⟩ 0x1000 1 false) .null)))
      = some (.packed ([0x40, 0x0A, 0x01, 0x00, 1, 2, 3, 4, 5, 6, 7, 8] ++ zeros 18) 12) := by decide

/-- D5-1, D5-4. -/
theorem test_packAtomic :
    retOf (exec (.packAtomic 0 .pri (zeros 30) 0 30) (with1 30 (slots 30 (.atomic 0x60 [1] false) .null)))
      = some (.packed ([0x60, 0x01] ++ zeros 28) 2) ∧
    retOf (exec (.packAtomic 0 .pri (zeros 30) 0 30) (with1 30 (slots 30 (.atomic 0x60 [1] true) .null)))
      = some (.error (.invalidOperation .packedAfterDone)) := by decide

/-- D6-3: an exact fit, offset 0x12. -/
theorem test_issue_exact_fit :
    (laneOf (exec .issue (with1 20 (slots 20 (.atomic 0x30 (zeros 17) false) (.atomic 0x60 [1] false)))) 0).map (·.txbuf)
      = some ([0x01, 0x00, 0x12, 0x00, 0x30] ++ zeros 17 ++ [0x60, 0x01]) := by decide

/-- D6-5: device 1's error; the id keeps its increment and device 0's slot is back. -/
theorem test_issue_error :
    (after (exec .issue { start 17 2 with lanes :=
        [slots 17 (.atomic 0x60 [1] false) .null, slots 17 (.mod (modOp .s0 .later 10 .infinite [1, 2]) 0 false) .null] })).map
      (fun t => (t.ret, t.msgId, t.lanes.map (fun l => (l.pri.done, l.txbuf))))
      = some (.error (.insufficientBuffer 18 17), 0x01, [(false, zeros 21), (false, zeros 21)]) := by decide

/-- D7-1 and a successful SEND. -/
theorem test_send :
    retOf (exec (.send false) { start 30 1 with linkOpen := false }) = some (.error .linkNotOpen) ∧
    (laneOf (exec (.send false) (with1 2 { Lane.reset 2 with txbuf := [1, 0, 0, 0, 0x60, 1] })) 0).map (·.wire)
      = some [1, 0, 0, 0, 0x60, 1] := by decide

/-- P1 frame 1 on the wire, with one sample pair: acknowledged as (01, 00); D8-1 for the zero frame right after reset. -/
theorem test_deliver :
    (devOf (exec (.deliver 0) (with1 18 { Lane.reset 18 with
        wire := [0x01, 0, 0, 0, 0x10, 0x01, 0x02, 0x00, 0x0A, 0x00, 0xFF, 0xFF, 0, 0, 0, 0, 0, 0, 0, 0, 0x00, 0x01] }))).map
      (fun v => (v.ack, (v.reasm.get .mod .s0).count)) = some (⟨1, 0⟩, 2) ∧
    devOf (exec (.deliver 0) (start 18 1)) = some Device.reset := by decide

/-- D8-6, D8-12. -/
theorem test_devRx :
    (devOf (exec (.devRx 0 (frameOf 30 [0x0A, 0x00, 0x1E, 0x00])) (start 30 1))).map (·.ack) = some ⟨0x0A, 0x04⟩ ∧
    (devOf (exec (.devRx 0 (frameOf 30 [0x10, 0, 0, 0, 0x10, 0x01, 0x0C, 0x00]))
      { start 30 1 with params := { pn 30 with modMax := 10 } })).map (·.ack) = some ⟨0x10, 0x05⟩ := by decide

/-- D7-4, D7-5. -/
theorem test_receive :
    (laneOf (exec (.receive false [.ok]) (with1 30 { Lane.reset 30 with rx := { Device.reset with ack := ⟨3, 0⟩ } })) 0).map
      (fun l => (l.rxValid, l.rxBuf)) = some (true, (3, 0)) ∧
    (laneOf (exec (.receive false [.none 7 8]) (with1 30 { Lane.reset 30 with rxValid := true })) 0).map (·.rxValid)
      = some false := by decide

/-- Two devices, message id 05, with the given enables and records. -/
def twoAcks (e0 e1 v0 v1 : Bool) (r0 r1 : Byte × Byte) : State :=
  { start 4 2 with
    msgId := 5
    lanes := [{ Lane.reset 4 with enabled := e0, rxValid := v0, rxBuf := r0 },
              { Lane.reset 4 with enabled := e1, rxValid := v1, rxBuf := r1 }] }

/-- D9-4, D9-5, D9-6. -/
theorem test_match_errors :
    retOf (exec .matchAcks (twoAcks true true false true (0, 0) (5, 5))) = some (.verdict (.fwError 5 1)) ∧
    retOf (exec .matchAcks (twoAcks true true true true (5, 3) (5, 5))) = some (.verdict (.fwError 3 0)) ∧
    retOf (exec .matchAcks (twoAcks true true true true (4, 5) (5, 0))) = some (.verdict .pending) := by decide

/-- D9-1, D9-2, D9-7, D9-8. -/
theorem test_match_acks :
    retOf (exec .matchAcks (twoAcks true true true true (5, 0) (5, 0))) = some (.verdict .allAcked) ∧
    retOf (exec .matchAcks (twoAcks true true true true (5, 0) (4, 0))) = some (.verdict .pending) ∧
    retOf (exec .matchAcks (twoAcks true false true true (5, 0) (0x99, 7))) = some (.verdict .allAcked) ∧
    retOf (exec .matchAcks (twoAcks false false true true (9, 9) (9, 9))) = some (.verdict .allAcked) := by decide

/-- D10-1. -/
theorem test_sendDatagram_closed :
    (after (exec (.sendDatagram [⟨true, .null, .null⟩] 1) { start 30 1 with linkOpen := false })).map
      (fun t => (t.session, t.callResult, t.msgId)) = some (.failed, .error .linkNotOpen, 0) := by decide

/-- D10-6: the first LOAD of the call fails it, and no ISSUE runs. -/
theorem test_sendDatagram_load_error :
    (after (step { start 30 1 with
        hostPc := .setup [.load 0 .pri (.mod (modOp .s0 (.gpio 4) 1 .infinite [1])), .load 0 .sec .null]
        queue := [.host ⟨false, [], false⟩] })).map (fun t => (t.session, t.callResult, t.msgId, t.hostPc))
      = some (.failed, .error (.invalidTransition (.gpio 4)), 0, .idle) := by decide

/-! ## Witnesses: encodings and the step -/

/-- The default ATOMIC_TAGS. -/
abbrev tags5 : List Byte := [0x11, 0x30, 0x31, 0x42, 0x60]

theorem witness_SlotDecodeOfEncode :
    (0x00 : Byte) ∉ tags5 ∧ (0x10 : Byte) ∉ tags5 ∧ (0x40 : Byte) ∉ tags5 ∧
    (∀ tag body, Slot.atomic 0x60 [0x01] = .atomic tag body → tag ∈ tags5) ∧
    (∀ tag body, Slot.modCont ⟨⟨true, false, .s1, 15⟩, 0xFFFF⟩ [] = .atomic tag body → tag ∈ tags5) := by
  refine ⟨by decide, by decide, by decide, ?_, fun _ _ h => Slot.noConfusion h⟩
  intro tag body h
  injection h with h
  subst h; decide

theorem witness_SlotEncodeOfDecode :
    decodeSlot tags5 [0x40, 0xF6, 0x34, 0x12] = .ok (.fociCont ⟨⟨true, true, .s0, 15⟩, 0x1234⟩ []) := by decide

theorem witness_SlotDecodeRefusesByName :
    (0x00 : Byte) ∉ tags5 ∧ (0x10 : Byte) ∉ tags5 ∧ (0x40 : Byte) ∉ tags5 ∧
    decodeSlot tags5 (0x10 :: 0x01 :: zeros 13) = .error (.shortHeader .mod true ⟨false, false, .s0, 0⟩) ∧
    decodeSlot tags5 (0x40 :: 0x01 :: zeros 21) = .error (.shortHeader .foci true ⟨false, false, .s0, 0⟩) ∧
    decodeSlot tags5 [0x10, 0x02, 0x01] = .error (.shortHeader .mod false ⟨true, false, .s0, 0⟩) := by decide

theorem witness_InstrDecodeOfEncode :
    (0x00 : Byte) ∉ tags5 ∧ (0x10 : Byte) ∉ tags5 ∧ (0x40 : Byte) ∉ tags5 ∧
    (∀ t ∈ ([0x11, 0x30, 0x31, 0x42, 0x60] : List Byte), t ∈ tags5) ∧
    (Slot.atomic 0x42 [9]).toInstr 3 = some (.atomic42 3 [9]) ∧ encode (.atomic42 3 [9]) = some [0x42, 9] := by decide

theorem witness_FrameAndAckRoundTrip :
    decodeFrame [1, 2, 3, 4] = some ⟨1, 2, 0x0403, []⟩ ∧ encode (.ack 0 ⟨5, 3⟩) = some [5, 3] ∧
    decodeAck [5, 3] = some ⟨5, 3⟩ := by decide

theorem witness_RepeatCountRoundTrip :
    (LoopBehavior.finite 1).inDomain .mod = true ∧ (LoopBehavior.finite 0xFFFF).inDomain .mod = true ∧
    (LoopBehavior.finite 0xFFFFFFFF).inDomain .foci = true ∧ LoopBehavior.infinite.inDomain .foci = true := by decide

theorem witness_TransitionModeRoundTrip :
    TransitionMode.gpio 3 ≠ .later ∧ (∀ pin, TransitionMode.gpio 3 = .gpio pin → pin < 4) ∧
    TransitionMode.ext ≠ .later ∧ (∀ pin, TransitionMode.ext = .gpio pin → pin < 4) :=
  ⟨nofun, fun pin h => by injection h with h; omega, nofun, nofun⟩

theorem witness_StepRunsTheNextCommand :
    ({ start 30 1 with queue := [.cmd .issue, .linkClose] } : State).queue = .cmd .issue :: [.linkClose] := rfl

/-- A state about to deliver the frame `bs` to its one device. -/
def delivering (n : Nat) (bs : List Byte) : State :=
  { with1 n { Lane.reset n with wire := frameOf n bs } with queue := [.cmd (.deliver 0)] }

/-- A deployment that adds the ATOMIC tag 0x77. -/
def withTag77 (s : State) : State := { s with params := { s.params with atomicTags := 0x77 :: tags5 } }

theorem witness_StepRunsTheDecodedSlot :
    (let s := delivering 4 [1, 0, 0, 0, 0x60, 1]
     ∃ l f, s.queue = .cmd (.deliver 0) :: [] ∧ s.lanes[0]? = some l ∧ decodeFrame l.wire = some f ∧
      f.msgId ≠ l.rx.ack.id ∧ f.offset = 0 ∧
      decodeInstr s.params.atomicTags 0 f.payload = some (.atomic60 0 [1, 0, 0])) ∧
    (let s := withTag77 (delivering 4 [1, 0, 0, 0, 0x77, 1])
     ∃ l f, s.queue = .cmd (.deliver 0) :: [] ∧ s.lanes[0]? = some l ∧ decodeFrame l.wire = some f ∧
      f.msgId ≠ l.rx.ack.id ∧ f.offset = 0 ∧ f.payload = 0x77 :: [1, 0, 0] ∧ (0x77 : Byte) ∈ s.params.atomicTags ∧
      (0x77 : Byte) ≠ 0x00) :=
  ⟨⟨_, ⟨1, 0, 0, [0x60, 1, 0, 0]⟩, rfl, rfl, by decide⟩, ⟨_, ⟨1, 0, 0, [0x77, 1, 0, 0]⟩, rfl, rfl, by decide⟩⟩

/-- A whole-payload slot with an added tag; slot two of one byte at the last offset, 3. -/
theorem witness_StepRunsEverySlotOfANewFrame :
    (let s := withTag77 (delivering 4 [1, 0, 0, 0, 0x77, 1])
     ∃ l f, s.queue = .cmd (.deliver 0) :: [] ∧ s.lanes[0]? = some l ∧ decodeFrame l.wire = some f ∧
      f.payload.length = s.params.n ∧ 1 ≤ s.params.n ∧ f.msgId ≠ l.rx.ack.id ∧ f.offset = 0) ∧
    (let s := delivering 4 [1, 0, 3, 0, 0x60, 1]
     ∃ l f, s.queue = .cmd (.deliver 0) :: [] ∧ s.lanes[0]? = some l ∧ decodeFrame l.wire = some f ∧
      f.payload.length = s.params.n ∧ 1 ≤ s.params.n ∧ f.msgId ≠ l.rx.ack.id ∧ f.offset ≠ 0 ∧
      f.offset.toNat < s.params.n) :=
  ⟨⟨_, ⟨1, 0, 0, [0x77, 1, 0, 0]⟩, rfl, rfl, by decide⟩, ⟨_, ⟨1, 0, 3, [0x60, 1, 0, 0]⟩, rfl, rfl, by decide⟩⟩

/-- Each case of `SlotRun`: an instruction; an added tag; an unknown tag; no flags byte; a header cut short. -/
theorem witness_SlotRun :
    let s := withTag77 (start 4 1)
    let l := slots 4 .null .null
    SlotRun s 0 [0x00, 9] { s with ret := .slotErr 0 } 0 ∧
    SlotRun s 0 [0x77, 9] (withLane s 0 { l with rx := consumedDevice l.rx 0x77 [9] } (.slotErr 0)) 0 ∧
    SlotRun s 0 [0x78, 9] { s with ret := .slotErr 1 } 1 ∧ SlotRun s 0 [0x40] { s with ret := .slotErr 4 } 4 ∧
    SlotRun s 0 [0x10, 0x1B, 9] (withLane s 0 { l with rx := abortedDevice l.rx .mod .s1 } (.slotErr 3)) 3 :=
  ⟨.instr (.empty 0 [9]) _ _ rfl rfl rfl, .addedTag 0x77 [9] (slots 4 .null .null) rfl (by decide) (by decide) rfl,
    .unknownTag 0x78 [9] rfl (by decide) (by decide), .noFlags 0x40 rfl (by decide) (by decide),
    .shortHeader .mod 0x1B [9] (slots 4 .null .null) 3 rfl (by decide) (by decide) rfl rfl⟩

/-- Slot one gives an error, so slot two does not run. -/
theorem witness_StepRunsEverySlotOfANewFrame_error :
    let s := delivering 7 [1, 0, 6, 0, 0x10, 0, 0, 0]
    ∃ l f, s.lanes[0]? = some l ∧ decodeFrame l.wire = some f ∧ f.msgId ≠ l.rx.ack.id ∧ f.offset ≠ 0 ∧
      f.offset.toNat < s.params.n ∧ f.payload.length = s.params.n ∧
      decodeInstr s.params.atomicTags 0 (f.payload.take f.offset.toNat)
        = some (.modCont 0 ⟨⟨false, false, .s0, 0⟩, 0⟩ [0, 0]) ∧
      retOf (exec (.modCont 0 ⟨⟨false, false, .s0, 0⟩, 0⟩ [0, 0]) s) = some (.slotErr 0x04) :=
  ⟨_, ⟨1, 0, 6, [0x10, 0, 0, 0, 0, 0, 0]⟩, rfl, by decide⟩

theorem witness_StepPlaysTheOtherTurns :
    (start 30 1).queue = [] ∧ ({ start 30 1 with queue := [.linkOpen] } : State).queue = .linkOpen :: [] ∧
    ({ start 30 1 with queue := [.linkClose] } : State).queue = .linkClose :: [] ∧
    ({ start 30 1 with queue := [.parse 0] } : State).queue = .parse 0 :: [] ∧ ((start 30 1).lanes[0]?).isSome = true :=
  ⟨rfl, rfl, rfl, rfl, rfl⟩

theorem witness_ResetsTouchTheirOwnSide :
    (after (exec .reset (with1 30 lane14))).isSome = true ∧
    ({ with1 30 lane14 with queue := [.resetHost] } : State).queue = .resetHost :: [] ∧
    ({ with1 30 lane14 with queue := [.resetDev 0] } : State).queue = .resetDev 0 :: [] ∧
    (with1 30 lane14).lanes[0]? = some lane14 := ⟨rfl, rfl, rfl, rfl⟩

/-! ## Witnesses: slot formats and frames -/

theorem witness_EmptySlotDoesNothing : 0 < (start 30 1).lanes.length := by decide

/-- An odd sample count with its pad byte, at `MAX`; and a fragment with `END` at `MIN`. -/
theorem witness_ModFirstStartsAStream :
    let s : State := { start 30 1 with params := { pn 30 with modMin := 3, modMax := 5 } }
    s.lanes[0]? = some (slots 30 .null .null) ∧
    (let h : ModFirst := ⟨⟨false, false, .s0, 0⟩, 5, 9, 10, 0xFFFF, 0⟩
     h.flags.resv = 0 ∧ (h.flags.trans = true → h.flags.last = true ∧ tmValid h.modeCode h.value = true) ∧
     1 ≤ h.size.toNat ∧ h.size.toNat + h.size.toNat % 2 ≤ (zeros 6).length ∧ h.size.toNat ≤ s.params.modMax ∧
     (h.flags.last = true → s.params.modMin ≤ h.size.toNat)) ∧
    (let h : ModFirst := ⟨⟨true, true, .s1, 0⟩, 3, 2, 10, 0, 3⟩
     h.flags.resv = 0 ∧ (h.flags.trans = true → h.flags.last = true ∧ tmValid h.modeCode h.value = true) ∧
     1 ≤ h.size.toNat ∧ h.size.toNat + h.size.toNat % 2 ≤ (zeros 4).length ∧ h.size.toNat ≤ s.params.modMax ∧
     (h.flags.last = true → s.params.modMin ≤ h.size.toNat)) := by decide

theorem witness_ModContAppends :
    let s : State := { with1 30 lane14 with params := { pn 30 with modMin := 15, modMax := 15 } }
    let la : Latch := ⟨10, 0xFFFF, 0, 0, 0⟩
    let h : Cont := ⟨⟨true, true, .s0, 0⟩, 1⟩
    s.lanes[0]? = some lane14 ∧ lane14.rx.reasm.get .mod h.flags.seg = ⟨true, 14, la⟩ ∧
    h.flags.resv = 0 ∧ (h.flags.trans = true → h.flags.last = true ∧ tmValid la.modeCode la.value = true) ∧
    1 ≤ h.size.toNat ∧ h.size.toNat + h.size.toNat % 2 ≤ (zeros 2).length ∧ 14 + h.size.toNat ≤ s.params.modMax ∧
    (h.flags.last = true → s.params.modMin ≤ 14 + h.size.toNat) := by decide

theorem witness_FociFirstStartsAStream :
    let s : State := { start 30 1 with params := { pn 30 with fociMin := 2, fociMax := 2 } }
    let h : FociFirst := ⟨⟨true, true, .s1, 0⟩, 2, 0xF0, 10, 0xBEEF, 0xFFFFFFFF, 3, 0⟩
    s.lanes[0]? = some (slots 30 .null .null) ∧ h.flags.resv = 0 ∧
    (h.flags.trans = true → h.flags.last = true ∧ tmValid h.modeCode h.value = true) ∧
    1 ≤ h.size.toNat ∧ h.size.toNat * s.params.fociRecBytes ≤ (zeros 16).length ∧ h.size.toNat ≤ s.params.fociMax ∧
    (h.flags.last = true → s.params.fociMin ≤ h.size.toNat) := by decide

/-- A lane whose device has one record of a focus payload in stream (FOCI, S1). -/
def laneFoci : Lane :=
  { slots 30 .null .null with rx := { Device.reset with
      ack := ⟨1, 0⟩
      reasm := Device.reset.reasm.set .foci .s1 ⟨true, 1, ⟨2, 2, 0, 0, 0x1000⟩⟩
      segbuf := Device.reset.segbuf.set .foci .s1 ((List.range 8).map (fun i => (i, BitVec.ofNat 8 i))) } }

theorem witness_FociContAppends :
    let s : State := { with1 30 laneFoci with params := { pn 30 with fociMin := 2, fociMax := 2 } }
    let la : Latch := ⟨2, 2, 0, 0, 0x1000⟩
    let h : Cont := ⟨⟨true, false, .s1, 0⟩, 1⟩
    s.lanes[0]? = some laneFoci ∧ laneFoci.rx.reasm.get .foci h.flags.seg = ⟨true, 1, la⟩ ∧
    h.flags.resv = 0 ∧ (h.flags.trans = true → h.flags.last = true ∧ tmValid la.modeCode la.value = true) ∧
    1 ≤ h.size.toNat ∧ h.size.toNat * s.params.fociRecBytes ≤ (zeros 8).length ∧ 1 + h.size.toNat ≤ s.params.fociMax ∧
    (h.flags.last = true → s.params.fociMin ≤ 1 + h.size.toNat) := by decide

/-- Each of the two bad flag bytes. -/
theorem witness_BadFlagsAbort :
    (∃ v l, fragView (.modFirst 0 ⟨⟨false, true, .s0, 0⟩, 1, 0, 0, 0, 0⟩ []) = some v ∧ (start 30 1).lanes[v.d]? = some l ∧
      (v.flags.resv ≠ 0 ∨ (v.flags.trans = true ∧ v.flags.last = false))) ∧
    (∃ v l, fragView (.fociCont 0 ⟨⟨true, true, .s1, 8⟩, 1⟩ []) = some v ∧ (start 30 1).lanes[v.d]? = some l ∧
      (v.flags.resv ≠ 0 ∨ (v.flags.trans = true ∧ v.flags.last = false))) :=
  ⟨⟨_, _, rfl, rfl, by decide⟩, ⟨_, _, rfl, rfl, by decide⟩⟩

/-- Size 0, and one byte short, for both kinds. -/
theorem witness_ShortOrEmptyFragmentsAbort :
    (∃ v l, fragView (.modCont 0 ⟨⟨true, true, .s0, 0⟩, 0⟩ [1, 2]) = some v ∧ (start 30 1).lanes[v.d]? = some l ∧
      v.flags.resv = 0 ∧ (v.flags.trans = true → v.flags.last = true) ∧ v.n = 0) ∧
    (∃ v l, fragView (.modFirst 0 ⟨⟨true, true, .s0, 0⟩, 3, 0, 0, 0, 0⟩ [1, 2, 3]) = some v ∧ (start 30 1).lanes[v.d]? = some l ∧
      v.flags.resv = 0 ∧ (v.flags.trans = true → v.flags.last = true) ∧ v.k = .mod ∧ v.tail.length < v.n + v.n % 2) ∧
    (∃ v l, fragView (.fociCont 0 ⟨⟨true, true, .s0, 0⟩, 1⟩ (zeros 7)) = some v ∧ (start 30 1).lanes[v.d]? = some l ∧
      v.flags.resv = 0 ∧ (v.flags.trans = true → v.flags.last = true) ∧ v.k = .foci ∧
      v.tail.length < v.n * (pn 30).fociRecBytes) :=
  ⟨⟨_, _, rfl, rfl, by decide⟩, ⟨_, _, rfl, rfl, by decide⟩, ⟨_, _, rfl, rfl, by decide⟩⟩

theorem witness_ContinuationNeedsAStart :
    ∃ v l, fragView (.fociCont 0 ⟨⟨true, true, .s0, 0⟩, 1⟩ (zeros 8)) = some v ∧ (start 30 1).lanes[v.d]? = some l ∧
      v.hdr = none ∧ (l.rx.reasm.get v.k v.flags.seg).active = false ∧ v.flags.resv = 0 ∧
      (v.flags.trans = true → v.flags.last = true) ∧ v.n ≠ 0 ∧
      (if v.k = .mod then v.n + v.n % 2 else v.n * (pn 30).fociRecBytes) ≤ v.tail.length :=
  ⟨_, _, rfl, rfl, rfl, by decide⟩

/-- GPIO(4); one unit above `MAX`; one unit below `MIN` at `END`. -/
theorem witness_BadTransitionOrSizeAborts :
    let s : State := { with1 30 lane14 with params := { pn 30 with modMin := 3, modMax := 15 } }
    (∃ v l hdr, fragView (.modFirst 0 ⟨⟨true, true, .s1, 0⟩, 2, 2, 10, 0, 4⟩ [1, 2]) = some v ∧ s.lanes[v.d]? = some l ∧
      v.hdr = some hdr ∧ v.flags.resv = 0 ∧ (v.flags.trans = true → v.flags.last = true) ∧ v.n ≠ 0 ∧
      v.n + v.n % 2 ≤ v.tail.length ∧ v.flags.trans = true ∧ tmValid hdr.modeCode hdr.value = false) ∧
    (∃ v l hdr, fragView (.modCont 0 ⟨⟨false, false, .s0, 0⟩, 2⟩ [1, 2]) = some v ∧ s.lanes[v.d]? = some l ∧
      v.hdr = none ∧ l.rx.reasm.get v.k v.flags.seg = ⟨true, 14, hdr⟩ ∧ v.flags.resv = 0 ∧ v.flags.trans = false ∧
      v.n ≠ 0 ∧ v.n + v.n % 2 ≤ v.tail.length ∧ s.params.modMax < 14 + v.n) ∧
    (∃ v l hdr, fragView (.modFirst 0 ⟨⟨true, false, .s1, 0⟩, 2, 2, 10, 0, 4⟩ [1, 2]) = some v ∧ s.lanes[v.d]? = some l ∧
      v.hdr = some hdr ∧ v.flags.resv = 0 ∧ v.flags.trans = false ∧ v.n ≠ 0 ∧ v.n + v.n % 2 ≤ v.tail.length ∧
      v.flags.last = true ∧ 0 + v.n < s.params.modMin) :=
  ⟨⟨_, _, _, rfl, rfl, rfl, by decide⟩, ⟨_, _, _, rfl, rfl, rfl, rfl, by decide⟩, ⟨_, _, _, rfl, rfl, rfl, by decide⟩⟩

/-- A tag present, a tag absent, and a frame with an added tag. -/
theorem witness_AtomicSlotsGoToTheConsumer :
    (with1 30 lane20).lanes[0]? = some lane20 ∧
    ((0x31 : Byte), Instr.atomic31 0 [1]) ∈ [((0x11 : Byte), Instr.atomic11 0 [1]), (0x30, .atomic30 0 [1]),
      (0x31, .atomic31 0 [1]), (0x42, .atomic42 0 [1]), (0x60, .atomic60 0 [1])] ∧
    (0x31 : Byte) ∈ (with1 30 lane20).params.atomicTags ∧
    (0x31 : Byte) ∉ ({ with1 30 lane20 with params := { pn 30 with atomicTags := [] } } : State).params.atomicTags ∧
    (let s := withTag77 (start 4 1)
     let f : Frame := ⟨1, 0, 0, [0x77, 1, 2, 3]⟩
     s.lanes[0]? = some (slots 4 .null .null) ∧ f.payload.length = s.params.n ∧ f.msgId ≠ (slots 4 .null .null).rx.ack.id ∧
     f.offset = 0 ∧ f.payload = 0x77 :: [1, 2, 3] ∧ (0x77 : Byte) ∈ s.params.atomicTags ∧ (0x77 : Byte) ≠ 0x00) := by decide

/-- A table's first line that names the slot, by tag, by bytes and by state; and a slot that no line names. -/
theorem witness_AtomicSlotsGoToTheConsumer_table :
    let c : Consumer := ⟨[⟨some 1, none, none, .accepted, some 2⟩, ⟨none, some 0x60, some [1], .code ⟨0x10, by decide⟩, some 1⟩],
      .accepted, 0⟩
    c.consume 0x60 [1] = (.code ⟨0x10, by decide⟩, { c with state := 1 }) ∧
    (c.consume 0x60 [1]).2.consume 0x60 [1] = (.accepted, { c with state := 2 }) ∧
    c.consume 0x60 [2] = (.accepted, c) := by decide

theorem witness_DuplicateFramesAreIgnored :
    (start 4 1).lanes[0]? = some (slots 4 .null .null) ∧
    ((0x00 : Byte) :: [9, 0, 0, 0x60, 1, 0, 0]).length = 4 + (start 4 1).params.n ∧
    (0x00 : Byte) = (slots 4 .null .null).rx.ack.id ∧ (0x01 : Byte) ≠ (slots 4 .null .null).rx.ack.id := by decide

/-- The offset is exactly `N = 4`. -/
theorem witness_OffsetOutOfRangeDecodesNothing :
    (start 4 1).lanes[0]? = some (slots 4 .null .null) ∧ (zeros 4).length = (start 4 1).params.n ∧
    (0x01 : Byte) ≠ (slots 4 .null .null).rx.ack.id ∧ (4 : Byte).toNat + 256 * (0 : Byte).toNat ≠ 0 ∧
    (start 4 1).params.n ≤ (4 : Byte).toNat + 256 * (0 : Byte).toNat := by decide

theorem witness_UndecodableSlotsAreAcknowledged :
    (start 3 1).lanes[0]? = some (slots 3 .null .null) ∧ (start 1 1).lanes[0]? = some (slots 1 .null .null) ∧
    (0x01 : Byte) ≠ (slots 3 .null .null).rx.ack.id ∧ ([0x77, 0, 0] : List Byte).length = (start 3 1).params.n ∧
    decodeSlot tags5 [0x77, 0, 0] = .error (.unknownTag 0x77) ∧
    ([0x40] : List Byte).length = (start 1 1).params.n ∧ decodeSlot tags5 [0x40] = .error (.noFlags .foci) ∧
    decodeSlot tags5 [0x10, 0x04, 0] = .error (.shortHeader .mod false ⟨false, true, .s0, 0⟩) ∧
    decodeSlot tags5 [0x10, 0x06, 0] = .error (.shortHeader .mod false ⟨true, true, .s0, 0⟩) := by decide

/-- D8-14: slot one of a two-slot frame. D8-9: slot two after a good slot one, shorter than its header. -/
theorem witness_UndecodableSlotsAreAcknowledged_two :
    (let f : Frame := ⟨0x05, 0, 2, [0x77, 0x00, 0x60, 0x01]⟩
     f.offset ≠ 0 ∧ f.offset.toNat < (start 4 1).params.n ∧ f.payload.length = (start 4 1).params.n ∧
     decodeSlot tags5 (f.payload.take f.offset.toNat) = .error (.unknownTag 0x77)) ∧
    (let f : Frame := ⟨0x0D, 0, 2, [0x60, 0x01, 0x10, 0x01]⟩
     f.offset ≠ 0 ∧ f.offset.toNat < (start 4 1).params.n ∧ f.payload.length = (start 4 1).params.n ∧
     decodeInstr tags5 0 (f.payload.take f.offset.toNat) = some (.atomic60 0 [0x01]) ∧
     retOf (exec (.atomic60 0 [0x01]) (start 4 1)) = some (.slotErr 0x00) ∧
     ((laneOf (exec (.atomic60 0 [0x01]) (start 4 1)) 0)).isSome = true ∧
     decodeSlot tags5 (f.payload.drop f.offset.toNat) = .error (.shortHeader .mod true ⟨false, false, .s0, 0⟩)) := by decide

theorem witness_DeliverDevRxAndFrameAgree :
    (start 4 1).lanes[0]? = some (slots 4 .null .null) ∧ (slots 4 .null .null).wire.length = 4 + (start 4 1).params.n ∧
    (⟨1, 0, 2, zeros 4⟩ : Frame).payload.length = (start 4 1).params.n := by decide

theorem witness_RepeatedDeliveryIsHarmless : (after (exec (.deliver 0) (start 4 1))).isSome = true := by decide

theorem witness_AckParseReturnsTheRecord : (start 30 1).lanes[0]? = some (slots 30 .null .null) := by decide

/-! ## Witnesses: codec -/

/-- A repeated finite operation on GPIO pin 3, and one LOAD rejects; a record of the right width and one of the wrong one. -/
theorem witness_LoadBindsOrRaises :
    let s : State := { start 30 1 with params := { pn 30 with notOk := [(.ext, .s1)] } }
    s.lanes[0]? = some (slots 30 .null .null) ∧ s.session ≠ .sending ∧ s.session ≠ .awaitingAck ∧
    (Operation.mod (modOp .s0 (.gpio 4) 1 (.finite 1) [1])).inDomain = true ∧ (4 ≤ 4) ∧
    ((modOp .s1 .ext 1 (.finite 1) [1]).mode, (modOp .s1 .ext 1 (.finite 1) [1]).seg) ∈ s.params.notOk ∧
    ((modOp .s0 (.gpio 3) 1 (.finite 1) [1]).mode, (modOp .s0 (.gpio 3) 1 (.finite 1) [1]).seg) ∉ s.params.notOk ∧
    (∃ r ∈ [zeros 7], r.length ≠ s.params.fociRecBytes) ∧ (∀ r ∈ [zeros 8], r.length = s.params.fociRecBytes) ∧
    (0x60 : Byte) ∈ s.params.atomicTags ∧ (0x50 : Byte) ∉ s.params.atomicTags ∧
    loadedSlot s.params (.atomic 0x60 [1]) = .ok (.atomic 0x60 [1] false) ∧
    loadedSlot s.params (.atomic 0x50 [1]) = .error (.invalidOperation .tag) := by decide

theorem witness_LoadBindsOrRaises_pin : ∀ pin, (modOp .s0 (.gpio 3) 1 (.finite 1) [1]).mode = .gpio pin → pin < 4 :=
  fun pin h => by simp only [modOp, TransitionMode.gpio.injEq] at h; omega

theorem witness_RefusalsAreByName :
    ({ start 30 1 with session := .awaitingAck } : State).session = .awaitingAck ∧
    ({ start 30 1 with hostPc := .setup [] } : State).hostPc = .setup [] ∧ (start 30 1).hostPc = .idle ∧
    (start 30 1).session ≠ .sending ∧ (start 30 1).session ≠ .awaitingAck ∧ 0 < (start 30 1).lanes.length ∧
    (start 30 1).lanes.length ≤ 1 ∧ ([] : List DeviceCall).length ≠ (start 30 1).lanes.length ∧
    ([] : List RxDraw).length ≠ (start 30 1).lanes.length ∧
    (Operation.mod (modOp .s0 .later 1 (.finite 0) [1])).inDomain = false ∧
    (Operation.mod (modOp .s0 .later 1 (.finite 65536) [1])).inDomain = false := by decide

theorem witness_EnableSetsTheBit : (start 30 1).lanes[0]? = some (slots 30 .null .null) := by decide

theorem witness_RequiredSizeReturnsTheMinimum :
    let l := slots 30 (.mod (modOp .s0 .later 1 .infinite [1]) 0 false) (.atomic 0x60 [] false)
    let l' := slots 30 (.foci ⟨.s0, .later, 1, .infinite, [zeros 8, zeros 8]⟩ 7 1 false) .null
    (with1 30 l).lanes[0]? = some l ∧ l.op .pri = .mod (modOp .s0 .later 1 .infinite [1]) 0 false ∧
    l.op .sec = .atomic 0x60 [] false ∧ (with1 30 l').lanes[0]? = some l' ∧
    l'.op .pri = .foci ⟨.s0, .later, 1, .infinite, [zeros 8, zeros 8]⟩ 7 1 false ∧ (l'.op .sec).done = true := by decide

/-- The first fragment with exactly 18 bytes, and the last sample, odd, with exactly 6. -/
theorem witness_PackModWritesTheNextFragment :
    let o := modOp .s1 (.gpio 3) 10 (.finite 0xFFFF) [1, 2, 3]
    let s : State := { start 20 1 with params := { pn 20 with modMin := 3, modMax := 3 } }
    (∀ l, l = slots 20 (.mod o 0 false) .null → ({ s with lanes := [l] } : State).lanes[0]? = some l ∧ l.op .pri = .mod o 0 false) ∧
    o.rep.inDomain .mod = true ∧ (∀ u ∈ o.data, u.length = 1) ∧ (zeros 20).length = s.params.n ∧ 2 + 18 ≤ s.params.n ∧
    18 ≤ 18 ∧ o.data.length ≤ s.params.modMax ∧ 2 = min (o.data.length - 0) (min (2 * ((18 - 16) / 2)) 254) ∧
    ¬ 0 + 2 = o.data.length ∧
    6 ≤ 6 ∧ 1 = min (o.data.length - 2) (min (2 * ((6 - 4) / 2)) 0xFFFE) ∧ 2 + 1 = o.data.length ∧ s.params.modMin ≤ o.data.length :=
  ⟨fun _ h => by subst h; exact ⟨rfl, rfl⟩, by decide⟩

/-- The first fragment with exactly `24 + FOCI_REC_BYTES` bytes. -/
theorem witness_PackFociWritesTheNextFragment :
    let o : StreamOp := ⟨.s1, .later, 10, .finite 0xFFFFFFFF, [zeros 8]⟩
    let l := slots 32 (.foci o 7 0 false) .null
    let s := with1 32 l
    s.lanes[0]? = some l ∧ l.op .pri = .foci o 7 0 false ∧ o.rep.inDomain .foci = true ∧ 1 ≤ s.params.fociRecBytes ∧
    (∀ u ∈ o.data, u.length = s.params.fociRecBytes) ∧ (zeros 32).length = s.params.n ∧ 0 + 32 ≤ s.params.n ∧
    24 + s.params.fociRecBytes ≤ 32 ∧ o.data.length ≤ s.params.fociMax ∧
    1 = min (o.data.length - 0) (min ((32 - 24) / s.params.fociRecBytes) 255) ∧ s.params.fociMin ≤ o.data.length := by decide

theorem witness_PackAtomicWritesWholeOrNothing :
    let l := slots 30 (.atomic 0x60 [1] false) (.atomic 0x60 [1] true)
    (with1 30 l).lanes[0]? = some l ∧ l.op .pri = .atomic 0x60 [1] false ∧ l.op .sec = .atomic 0x60 [1] true ∧
    (zeros 30).length = (with1 30 l).params.n ∧ 28 + 2 ≤ (with1 30 l).params.n := by decide

/-- Done; of another kind; above `MAX`; one byte short; the last fragment of a payload below `MIN`. -/
theorem witness_PackErrorsInOrder :
    let o := modOp .s0 .later 10 .infinite [1, 2]
    let l := slots 30 (.mod o 0 false) .null
    let s : State := { with1 30 l with params := { pn 30 with modMin := 3, modMax := 3 } }
    let big : State := { with1 30 l with params := { pn 30 with modMax := 1 } }
    s.lanes[0]? = some l ∧ (zeros 30).length = s.params.n ∧ 12 + 18 ≤ s.params.n ∧ (l.op .sec).done = true ∧
    l.op .pri = streamSlot .mod o 0 0 false ∧ Kind.foci ≠ .mod ∧ big.params.modMax < o.data.length ∧
    o.data.length ≤ s.params.modMax ∧ 17 < 16 + 2 ∧ 16 + 2 ≤ 18 ∧ o.data.length < s.params.modMin ∧ 0 ≤ o.data.length ∧
    o.data.length - 0 ≤ 2 * ((18 - 16) / 2) ∧ o.data.length - 0 ≤ 254 ∧
    (slots 30 (.atomic 0x60 [1] false) .null).op .pri = .atomic 0x60 [1] false := by decide

theorem witness_WrongSizedBuffersStop :
    0 < (start 30 1).lanes.length ∧
    Instr.packFoci 0 .pri [] 1 30 ∈ [Instr.packMod 0 .pri [] 1 30, .packFoci 0 .pri [] 1 30, .packAtomic 0 .pri [] 1 30] ∧
    (start 30 1).params.n < 1 + 30 ∧ 0 + 30 ≤ (start 30 1).params.n ∧ (zeros 29).length < (start 30 1).params.n ∧
    (start 30 1).params.n < (zeros 31).length ∧ (zeros 33).length < 4 + (start 30 1).params.n ∧
    4 + (start 30 1).params.n < (zeros 35).length := by decide

/-- `L = n1` and `L = n1 + 1`, at the smallest budget of each kind. -/
theorem witness_FragmentCountOfAPayload :
    1 ≤ (pn 30).fociRecBytes ∧ 1 ≤ (modOp .s0 .later 1 .infinite [1, 2]).data.length ∧
    2 = min (2 * ((18 - 16) / 2)) 254 ∧ 14 = min (2 * ((18 - 4) / 2)) 0xFFFE ∧ 18 ≤ 18 ∧
    (modOp .s0 .later 1 .infinite [1, 2]).data.length ≤ 2 ∧ ¬ (modOp .s0 .later 1 .infinite [1, 2, 3]).data.length ≤ 2 ∧
    1 = min ((32 - 24) / (pn 30).fociRecBytes) 255 ∧ 3 = min ((32 - 4) / (pn 30).fociRecBytes) 0xFFFF ∧
    24 + (pn 30).fociRecBytes ≤ 32 := by decide

/-! ## Witnesses: batch, link, matcher, loop -/

/-- Two devices: one primary that fits and one device not enabled. -/
def batch2 : State :=
  { start 20 2 with lanes := [slots 20 (.atomic 0x30 (zeros 17) false) (.atomic 0x60 [1] false), Lane.reset 20] }

theorem witness_IssuePacksEveryDevice :
    ∃ ls : List Lane, ls.length = batch2.lanes.length ∧
      ∀ (d : Nat) (l : Lane), batch2.lanes[d]? = some l →
        ∃ l', ls[d]? = some l' ∧ packDevice batch2.params (batch2.msgId + 1) l = .ok l' := by
  refine ⟨[{ slots 20 (.atomic 0x30 (zeros 17) true) (.atomic 0x60 [1] true) with
      txbuf := [0x01, 0x00, 0x12, 0x00, 0x30] ++ zeros 17 ++ [0x60, 0x01] },
    { Lane.reset 20 with txbuf := 0x01 :: zeros 23 }], rfl, ?_⟩
  intro d l h
  match d with
  | 0 => injection h with h; subst h; exact ⟨_, rfl, by decide⟩
  | 1 => injection h with h; subst h; exact ⟨_, rfl, by decide⟩
  | _ + 2 => exact absurd h (by simp [batch2])

theorem witness_IssueSucceedsWithinTheBounds :
    ∀ l ∈ batch2.lanes, l.enabled = true → ∀ ix, (l.op ix).done = false →
      match l.op ix with
      | .null => True
      | .mod o _ _ => batch2.params.modMin ≤ o.data.length ∧ o.data.length ≤ batch2.params.modMax ∧ 18 ≤ batch2.params.n
      | .foci o _ _ _ => batch2.params.fociMin ≤ o.data.length ∧ o.data.length ≤ batch2.params.fociMax ∧
          24 + batch2.params.fociRecBytes ≤ batch2.params.n
      | .atomic _ body _ => 1 + body.length ≤ batch2.params.n := by
  intro l hl he ix hd
  simp only [batch2, List.mem_cons, List.not_mem_nil, or_false] at hl
  rcases hl with rfl | rfl
  · cases ix
    · show 1 + (zeros 17).length ≤ 20
      decide
    · show 1 + ([1] : List Byte).length ≤ 20
      decide
  · exact absurd he (by decide)

/-- D6-5: device 1 fails, device 0 does not. -/
def failing2 : State :=
  { start 17 2 with lanes :=
      [slots 17 (.atomic 0x60 [1] false) .null, slots 17 (.mod (modOp .s0 .later 10 .infinite [1, 2]) 0 false) .null] }

theorem witness_IssueErrorRestoresEverySlot :
    ∃ l, failing2.lanes[1]? = some l ∧
      packDevice failing2.params (failing2.msgId + 1) l = .error (.insufficientBuffer 18 17) ∧
      ∀ (d' : Nat) (l' : Lane), d' < 1 → failing2.lanes[d']? = some l' →
        ∃ l'', packDevice failing2.params (failing2.msgId + 1) l' = .ok l'' := by
  refine ⟨_, rfl, by decide, ?_⟩
  intro d' l' hd h
  obtain rfl : d' = 0 := by omega
  injection h with h; subst h
  exact ⟨{ slots 17 (.atomic 0x60 [1] true) .null with txbuf := [0x01, 0, 0, 0, 0x60, 0x01] ++ zeros 15 }, by decide⟩

/-- Each branch: not enabled; both done; an exact fit; one byte short; the secondary alone; errors of either. -/
theorem witness_DualSlotMultiplexing :
    (Lane.reset 20).enabled = false ∧ (slots 20 .null .null).pri.done = true ∧ (slots 20 .null .null).sec.done = true ∧
    (let p := OpSlot.atomic 0x30 (zeros 17) false
     let q := OpSlot.atomic 0x60 [1] false
     p.done = false ∧ q.done = false ∧ packSlot (pn 20) p 20 = .ok (0x30 :: zeros 17, .atomic 0x30 (zeros 17) true) ∧
     requiredSize (pn 20) q ≤ 20 - (0x30 :: zeros 17).length ∧ 19 - (0x30 :: zeros 17).length < requiredSize (pn 19) q ∧
     packSlot (pn 20) q 2 = .ok ([0x60, 1], .atomic 0x60 [1] true) ∧
     packSlot (pn 1) q 1 = .error (.insufficientBuffer 2 1)) ∧
    packSlot { pn 40 with modMax := 1 } (.mod (modOp .s0 .later 1 .infinite [1, 2]) 0 false) 38 = .error (.sizeOutOfRange 2) := by
  decide

/-- A pack command of each kind on a slot of its kind, in a window that ends at the payload's end. -/
theorem witness_DualSlotMultiplexing_pack :
    let l := slots 30 (.foci ⟨.s0, .later, 1, .infinite, [zeros 8]⟩ 7 0 false) (.atomic 0x60 [1] false)
    (with1 30 l).lanes[0]? = some l ∧ (zeros 30).length = (with1 30 l).params.n ∧ 28 + 2 ≤ (with1 30 l).params.n ∧
    (∃ k o ss sent done, l.op .pri = streamSlot k o ss sent done ∧ packInstr k 0 .pri (zeros 30) 28 2
      = .packFoci 0 .pri (zeros 30) 28 2) ∧
    (∃ tag body done, l.op .sec = .atomic tag body done) ∧
    packSlot (pn 30) (l.op .pri) 2 = .error (.insufficientBuffer 32 2) ∧
    packSlot (pn 30) (l.op .sec) 2 = .ok ([0x60, 1], .atomic 0x60 [1] true) :=
  ⟨rfl, by decide, by decide, ⟨.foci, ⟨.s0, .later, 1, .infinite, [zeros 8]⟩, 7, 0, false, rfl, rfl⟩, ⟨0x60, [1], false, rfl⟩,
    by decide, by decide⟩

theorem witness_SendCopiesEveryFrame :
    (start 30 1).linkOpen = true ∧ ({ start 30 1 with linkOpen := false } : State).linkOpen = false := by decide

theorem witness_ReceiveSamplesEachDevice :
    ([.ok, .none 1 2] : List RxDraw).length = (start 30 2).lanes.length ∧ (start 30 2).linkOpen = true ∧
    ({ start 30 2 with linkOpen := false } : State).linkOpen = false ∧ ([.ok, .none 1 2] : List RxDraw)[0]? = some .ok ∧
    ([.ok, .none 1 2] : List RxDraw)[1]? = some (.none 1 2) ∧ ((start 30 2).lanes[1]?).isSome = true := by decide

/-- A call on two devices whose second one is not enabled, and its six host steps. -/
def calls2 : List DeviceCall :=
  [⟨true, .mod (modOp .s0 .later 1 .infinite [1, 2]), .null⟩, ⟨false, .mod (modOp .s0 .later 1 (.finite 0) []), .null⟩]

def quiet (n : Nat) : List HostDraw := List.replicate n ⟨false, [], false⟩

theorem witness_CallStartsSending :
    let s : State := { start 30 2 with queue := (quiet 6).map .host }
    let ls := [slots 30 (.mod (modOp .s0 .later 1 .infinite [1, 2]) 0 false) .null, { slots 30 .null .null with enabled := false }]
    s.session ≠ .sending ∧ s.session ≠ .awaitingAck ∧ (∀ todo, s.hostPc ≠ .setup todo) ∧ s.linkOpen = true ∧
    1 ≤ s.lanes.length ∧ calls2.length = s.lanes.length ∧
    (∀ c ∈ calls2, c.enabled = true → c.pri.inDomain = true ∧ c.sec.inDomain = true) ∧
    s.queue = (quiet 6).map .host ++ [] ∧ (quiet 6).length = 3 * s.lanes.length ∧ ls.length = s.lanes.length ∧
    (∀ (d : Nat) (c : DeviceCall) (l : Lane), calls2[d]? = some c → s.lanes[d]? = some l →
      ∃ l', ls[d]? = some l' ∧ CallLoaded s.params c l l') := by
  refine ⟨by decide, by decide, nofun, by decide, by decide, by decide, by decide, by decide, by decide, by decide, ?_⟩
  intro d c l hc hl
  match d with
  | 0 =>
    injection hc with hc; injection hl with hl; subst hc; subst hl
    exact ⟨_, rfl, .mod (modOp .s0 .later 1 .infinite [1, 2]) 0 false, .null, rfl, nofun, fun _ => ⟨rfl, rfl⟩⟩
  | 1 =>
    injection hc with hc; injection hl with hl; subst hc; subst hl
    exact ⟨_, rfl, .null, .null, rfl, fun _ => ⟨rfl, rfl⟩, nofun⟩
  | _ + 2 => exact absurd hc (by simp [calls2])

/-- A closed link; and three devices of which the middle one's primary, or secondary, fails to load. -/
theorem witness_CallFailsBeforeAnyBatch :
    let good : Operation := .atomic 0x60 [1]
    let bad : Operation := .atomic 0x50 [1]
    let s : State := { start 30 3 with queue := (quiet 6).map .host }
    let l := slots 30 .null .null
    let l1 := { l with pri := .atomic 0x60 [1] false }
    let calls (p q : Operation) : List DeviceCall := [⟨true, good, .null⟩, ⟨true, p, q⟩, ⟨true, good, good⟩]
    s.session ≠ .sending ∧ s.session ≠ .awaitingAck ∧ (∀ todo, s.hostPc ≠ .setup todo) ∧ s.linkOpen = true ∧
    ({ s with linkOpen := false } : State).linkOpen = false ∧
    (∀ x ∈ [(bad, good), (good, bad)], (calls x.1 x.2).length = s.lanes.length ∧
      (∀ c ∈ calls x.1 x.2, c.enabled = true → c.pri.inDomain = true ∧ c.sec.inDomain = true)) ∧
    loadedSlot s.params bad = .error (.invalidOperation .tag) ∧ loadedSlot s.params good = .ok (.atomic 0x60 [1] false) ∧
    CallLoaded s.params ⟨true, good, .null⟩ l l1 ∧ s.queue = (quiet 5).map .host ++ [.host ⟨false, [], false⟩] ∧
    s.queue = (quiet 6).map .host ++ [] ∧ (quiet 5).length = 3 * 1 + 2 ∧ (quiet 6).length = 3 * 1 + 3 ∧
    (after (exec (.sendDatagram (calls good bad) 1) s)).isSome = true := by
  refine ⟨by decide, by decide, nofun, by decide, by decide, by decide, by decide, by decide,
    ⟨_, _, rfl, nofun, fun _ => ⟨rfl, rfl⟩⟩, ?_⟩
  decide

/-- A host-loop step with nothing failing and the timeout event taken. -/
def draw (io timeout : Bool) : HostDraw := ⟨io, [.ok], timeout⟩

/-- A call in flight at `pc`. -/
def inCall (ses : Session) (pc : HostPc) (tz : Bool) (w : HostDraw) : State :=
  { start 4 1 with session := ses, hostPc := pc, tz := tz, queue := [.host w] }

/-- ENABLE and LOAD with more to come, a last LOAD, and a LOAD that fails. -/
theorem witness_LoopLoadsIssuesAndSends_setup :
    let s : State := start 4 1
    retOf (exec (.enable 0 true) s) = some .ok ∧ retOf (exec (.load 0 .sec .null) s) = some .ok ∧
    retOf (exec (.load 0 .pri (.atomic 0x50 [])) s) = some (.error (.invalidOperation .tag)) ∧
    (inCall .idle (.setup [.enable 0 true, .load 0 .sec .null]) false (draw false false)).hostPc
      = .setup (.enable 0 true :: [.load 0 .sec .null]) := by decide

/-- ISSUE succeeding and failing; SEND failing, with `tz` 0 and 1, under both policies, with work left and without. -/
theorem witness_LoopLoadsIssuesAndSends :
    (inCall .sending .issue false (draw false false)).queue = .host (draw false false) :: [] ∧
    retOf (exec .issue { inCall .sending .issue false (draw false false) with queue := [] }) = some .ok ∧
    retOf (exec .issue { inCall .sending .issue false (draw false false) with
      queue := [], lanes := [slots 4 (.atomic 0x60 (zeros 4) false) .null] }) = some (.error (.insufficientBuffer 5 4)) ∧
    retOf (exec (.send true) { inCall .sending .send true (draw true false) with queue := [] }) = some (.error .linkIo) ∧
    retOf (exec (.send false) { inCall .sending .send true (draw false false) with queue := [] }) = some .ok ∧
    (pn 4).tzPolicy = .allFragments ∧ Params.default.tzPolicy = .oneSend ∧
    (after (exec (.send false) { inCall .sending .send true (draw false false) with queue := [] })).map State.allDone = some true ∧
    (after (exec (.send false) { inCall .sending .send true (draw false false) with
      queue := [], lanes := [slots 4 (.atomic 0x60 [] false) .null] })).map State.allDone = some false := by decide

/-- RECEIVE succeeding and failing; each verdict. -/
theorem witness_LoopReceivesAndMatches :
    let m (acked : Bool) (e : Byte) (pri : OpSlot) : State :=
      { inCall .awaitingAck .matching false (draw false true) with
        queue := [], lanes := [{ slots 4 pri .null with rxValid := acked, rxBuf := (0, e) }] }
    (inCall .awaitingAck .receive false (draw false false)).hostPc = .receive ∧
    retOf (exec (.receive false [.ok]) { inCall .awaitingAck .receive false (draw false false) with queue := [] }) = some .ok ∧
    retOf (exec (.receive true [.ok]) { inCall .awaitingAck .receive false (draw true false) with queue := [] })
      = some (.error .linkIo) ∧
    retOf (exec .matchAcks (m true 3 .null)) = some (.verdict (.fwError 3 0)) ∧
    retOf (exec .matchAcks (m true 0 .null)) = some (.verdict .allAcked) ∧ (m true 0 .null).allDone = true ∧
    (m true 0 (.atomic 0x60 [] false)).allDone = false ∧
    retOf (exec .matchAcks (m false 0 .null)) = some (.verdict .pending) := by decide

/-! ## Witnesses: the invariant -/

theorem paramsOk_pn (n : Nat) (h : 1 ≤ n ∧ n ≤ 0xFFFF) : ParamsOk (pn n) :=
  ⟨h.1, h.2, by show 1 ≤ 1; decide, by show 1 ≤ 65536; decide, by show 1 ≤ 1; decide, by show 1 ≤ 65536; decide, by show 1 ≤ 8; decide,
    by show tagNone ∉ tags5; decide, by show tagMod ∉ tags5; decide, by show tagFoci ∉ tags5; decide⟩

theorem streamStateOk_reset (p : Params) (k : Kind) (s : Segment) :
    StreamStateOk p k (Device.reset.reasm.get k s) (Device.reset.segbuf.get k s) := by
  have h1 : Device.reset.reasm.get k s = Reasm.reset := Streams.get_all _ k s
  have h2 : Device.reset.segbuf.get k s = [] := Streams.get_all _ k s
  rw [h1, h2]
  exact ⟨Nat.zero_le _, nofun, List.Pairwise.nil, nofun, fun a h => absurd h (by simp [Reasm.reset]), fun _ => by decide,
    fun _ => rfl⟩

/-- A state with one lane that is sound. -/
theorem inv_with1 (n : Nat) (l : Lane) (h : 1 ≤ n ∧ n ≤ 0xFFFF) (hl : LaneOk (pn n) l) : Inv (with1 n l) :=
  ⟨paramsOk_pn n h, Nat.le_refl 1, fun m hm => by rw [List.mem_singleton.mp hm]; exact hl,
    ⟨⟨nofun, fun h => h.elim nofun nofun⟩, ⟨nofun, fun h => h.elim nofun nofun⟩, nofun⟩⟩

/-- Two samples in a frame of 18 payload bytes. -/
def tinyOp : StreamOp := modOp .s0 (.gpio 3) 10 (.finite 2) [0x55, 0x66]

def tinyLane : Lane := slots 18 (.mod tinyOp 0 false) .null

theorem tinyLane_ok : LaneOk (pn 18) tinyLane where
  pri_ok := ⟨by decide, by decide, fun pin h => by simp only [tinyOp, modOp, TransitionMode.gpio.injEq] at h; subst h; decide,
    by decide, by decide, by decide, by decide⟩
  sec_ok := trivial
  txbuf_ok := ⟨by decide, by decide, by decide⟩
  wire_ok := ⟨by decide, by decide, by decide⟩
  rx_ok := streamStateOk_reset _

theorem tiny_inv : Inv (with1 18 tinyLane) := inv_with1 18 tinyLane (by decide) tinyLane_ok

theorem witness_IssuedFramesAreWellShaped :
    Inv (with1 18 tinyLane) ∧ retOf (exec .issue (with1 18 tinyLane)) = some .ok ∧
    (with1 18 tinyLane).lanes[0]? = some tinyLane ∧ (laneOf (exec .issue (with1 18 tinyLane)) 0).isSome = true :=
  ⟨tiny_inv, by decide, rfl, by decide⟩

theorem witness_InvariantHoldsAfterReset : ParamsOk (pn 1) ∧ ParamsOk (pn 0xFFFF) :=
  ⟨paramsOk_pn 1 (by decide), paramsOk_pn 0xFFFF (by decide)⟩

theorem inv_queue {s : State} (h : Inv s) (q : List Turn) : Inv { s with queue := q } :=
  ⟨h.params_ok, h.devices, h.lanes_ok, ⟨h.session_ok.sending, h.session_ok.awaiting, h.session_ok.no_tz⟩⟩

theorem inv_msgId {s : State} (h : Inv s) (id : Byte) : Inv { s with msgId := id } :=
  ⟨h.params_ok, h.devices, h.lanes_ok, ⟨h.session_ok.sending, h.session_ok.awaiting, h.session_ok.no_tz⟩⟩

theorem witness_EveryStepKeepsTheInvariant :
    Inv { with1 18 tinyLane with queue := [.cmd .issue] } ∧
    (after (step { with1 18 tinyLane with queue := [.cmd .issue] })).map (·.msgId) = some 1 :=
  ⟨inv_queue tiny_inv _, by decide⟩

/-- The three faults. -/
theorem witness_OwnCommandsNeverFault :
    Inv { with1 18 tinyLane with queue := [.cmd (.frame 0 ⟨1, 0, 0, zeros 17⟩)] } ∧
    step { with1 18 tinyLane with queue := [.cmd (.frame 0 ⟨1, 0, 0, zeros 17⟩)] } = .fault .memOutside ∧
    step { with1 18 tinyLane with queue := [.cmd (.devRx 0 (zeros 21))] } = .fault .memOutside ∧
    step { with1 18 tinyLane with queue := [.cmd (.packMod 0 .pri (zeros 18) 1 18)] } = .fault .packBudget ∧
    step { with1 18 tinyLane with queue := [.cmd (.packMod 0 .pri (zeros 17) 0 18)] } = .fault .memOutside :=
  ⟨inv_queue tiny_inv _, rfl, rfl, rfl, rfl⟩

theorem witness_OnlyTheNamedCommandsWrite :
    ∃ t l', exec .issue (with1 18 tinyLane) = .next t ∧ (with1 18 tinyLane).lanes[0]? = some tinyLane ∧
      t.lanes[0]? = some l' ∧ t.msgId ≠ (with1 18 tinyLane).msgId ∧ l'.pri ≠ tinyLane.pri ∧ l'.txbuf ≠ tinyLane.txbuf :=
  ⟨_, _, rfl, rfl, rfl, by decide, by decide, by decide⟩

theorem witness_OperationsAreConsumedMonotonically :
    ∃ t l', exec .issue (with1 18 tinyLane) = .next t ∧ (with1 18 tinyLane).lanes[0]? = some tinyLane ∧
      t.lanes[0]? = some l' ∧ Instr.issue ≠ .reset ∧ (∀ op, Instr.issue ≠ .load 0 .pri op) :=
  ⟨_, _, rfl, rfl, rfl, nofun, nofun⟩

/-- Three samples in frames of 18 payload bytes: two fragments. -/
def twoPart : StreamOp := modOp .s0 .later 10 .infinite [1, 2, 3]

/-- The second batch of `twoPart`: two samples have arrived. -/
def twoPartLane : Lane :=
  { slots 18 (.mod twoPart 2 false) .null with rx := { Device.reset with
      ack := ⟨1, 0⟩
      reasm := Device.reset.reasm.set .mod .s0 ⟨true, 2, latchOf .mod twoPart 0⟩
      segbuf := Device.reset.segbuf.set .mod .s0 [(0, 1), (1, 2)] } }

theorem twoPartLane_ok : LaneOk (pn 18) twoPartLane where
  pri_ok := ⟨by decide, by decide, fun pin h => by simp [twoPart, modOp] at h, by decide, by decide, by decide, by decide⟩
  sec_ok := trivial
  txbuf_ok := ⟨by decide, by decide, by decide⟩
  wire_ok := ⟨by decide, by decide, by decide⟩
  rx_ok := fun k s => by
    cases k <;> cases s
    · exact ⟨by decide, by decide, by decide, by decide, by decide, by decide, by decide⟩
    · exact streamStateOk_reset (pn 18) .mod .s1
    · exact streamStateOk_reset (pn 18) .foci .s0
    · exact streamStateOk_reset (pn 18) .foci .s1

/-- One focus record in the secondary beside an ATOMIC primary of one byte, in frames of 40 payload bytes. -/
def recordOp : StreamOp := ⟨.s1, .immediate, 10, .finite 3, [[1, 2, 3, 4, 5, 6, 7, 8]]⟩

def recordLane : Lane := slots 40 (.atomic 0x30 [] false) (.foci recordOp 340000 0 false)

theorem recordLane_ok : LaneOk (pn 40) recordLane where
  pri_ok := by show (0x30 : Byte) ∈ tags5; decide
  sec_ok := ⟨by decide, by decide, fun pin h => by simp [recordOp] at h, by decide, by decide, by decide, by decide⟩
  txbuf_ok := ⟨by decide, by decide, by decide⟩
  wire_ok := ⟨by decide, by decide, by decide⟩
  rx_ok := streamStateOk_reset _

/-- A first and only fragment; a last one on an active stream; a focus payload in the secondary of a two-slot frame. -/
theorem witness_OneBatchDeliversItsFragment :
    (Inv (with1 18 tinyLane) ∧ (with1 18 tinyLane).lanes[0]? = some tinyLane ∧ tinyLane.enabled = true ∧
      tinyLane.op .pri = streamSlot .mod tinyOp 0 0 false ∧ OffStream .mod tinyOp.seg (tinyLane.op (otherSlot .pri)) ∧
      (tinyLane.op (otherSlot .pri)).done = true ∧
      (with1 18 tinyLane).msgId + 1 ≠ tinyLane.rx.ack.id ∧ (batchRound 0 (with1 18 tinyLane)).isSome = true) ∧
    (let s : State := { with1 18 twoPartLane with msgId := 1 }
     Inv s ∧ s.lanes[0]? = some twoPartLane ∧ twoPartLane.enabled = true ∧ twoPartLane.op .pri = streamSlot .mod twoPart 0 2 false ∧
      OffStream .mod twoPart.seg (twoPartLane.op (otherSlot .pri)) ∧ s.msgId + 1 ≠ twoPartLane.rx.ack.id ∧
      twoPartLane.rx.reasm.get .mod twoPart.seg = ⟨true, 2, latchOf .mod twoPart 0⟩ ∧ (batchRound 0 s).isSome = true) ∧
    (let s : State := with1 40 recordLane
     Inv s ∧ s.lanes[0]? = some recordLane ∧ recordLane.enabled = true ∧
      recordLane.op .sec = streamSlot .foci recordOp 340000 0 false ∧ OffStream .foci recordOp.seg (recordLane.op (otherSlot .sec)) ∧
      (recordLane.op (otherSlot .sec)).done = false ∧ s.msgId + 1 ≠ recordLane.rx.ack.id ∧
      ((batchRound 0 s).bind (·.lanes[0]?)).map (fun l => (l.txbuf.take 5, l.rx.ack.err)) = some ([1, 0, 1, 0, 0x30], 0x00)) :=
  ⟨⟨tiny_inv, rfl, rfl, rfl, trivial, rfl, by decide, by decide⟩,
    ⟨inv_msgId (inv_with1 18 twoPartLane (by decide) twoPartLane_ok) 1, rfl, rfl, rfl, trivial, by decide, rfl, by decide⟩,
    ⟨inv_with1 40 recordLane (by decide) recordLane_ok, rfl, rfl, rfl, trivial, rfl, by decide, by decide⟩⟩

/-- One batch, and one batch more after the operation is done; and the focus payload in the secondary, received without error. -/
theorem witness_WholePayloadRoundTrip :
    (Inv (with1 18 tinyLane) ∧ (with1 18 tinyLane).lanes[0]? = some tinyLane ∧ tinyLane.enabled = true ∧
      tinyLane.op .pri = streamSlot .mod tinyOp 0 0 false ∧ OffStream .mod tinyOp.seg (tinyLane.op (otherSlot .pri)) ∧
      (with1 18 tinyLane).msgId + 1 ≠ tinyLane.rx.ack.id ∧ (tinyLane.op (otherSlot .pri)).done = true ∧
      ((batchRounds 0 1 (with1 18 tinyLane)).bind (·.lanes[0]?)).map (·.pri) = some (streamSlot .mod tinyOp 0 2 true) ∧
      ((batchRounds 0 2 (with1 18 tinyLane)).bind (·.lanes[0]?)).map (·.pri) = some (streamSlot .mod tinyOp 0 2 true)) ∧
    (let s := with1 40 recordLane
     Inv s ∧ s.lanes[0]? = some recordLane ∧ recordLane.enabled = true ∧
      recordLane.op .sec = streamSlot .foci recordOp 340000 0 false ∧ OffStream .foci recordOp.seg (recordLane.op (otherSlot .sec)) ∧
      s.msgId + 1 ≠ recordLane.rx.ack.id ∧
      (∀ (m : Nat) (u : State) (m' : Lane), 1 ≤ m → m ≤ 1 → batchRounds 0 m s = some u → u.lanes[0]? = some m' →
        m'.rx.ack.err = 0x00) ∧
      ((batchRounds 0 1 s).bind (·.lanes[0]?)).map (·.sec) = some (streamSlot .foci recordOp 340000 1 true)) := by
  refine ⟨⟨tiny_inv, rfl, rfl, rfl, trivial, by decide, rfl, by decide, by decide⟩,
    inv_with1 40 recordLane (by decide) recordLane_ok, rfl, rfl, rfl, trivial, by decide, ?_, by decide⟩
  intro m u m' h1 h2 hu hm
  obtain rfl : m = 1 := by omega
  have h : ((batchRounds 0 1 (with1 40 recordLane)).bind (·.lanes[0]?)).map (·.rx.ack.err) = some 0x00 := by decide
  rw [hu] at h
  simpa [hm] using h

end Sys2Proof.Tests
end

namespace Sys2Proof.Machine

open Sys2Proof

/-! # What one instruction can do

`LaneStep` lists once everything an instruction can do to one device's lane, and `InstrStep` what it can do to the state.
`exec_instrStep` shows that every completed instruction is such a step; what the steps keep is then proved by cases on them. -/

/-- RESET's share of a lane (spec/70_reset_and_hazards.md R310): the host's, the link's and the device's together. -/
def resetLane (p : Params) (l : Lane) : Lane :=
  { resetLinkLane p (resetHostLane p l) with rx := resetDevice l.rx }

/-- The next state of RESET, lane by lane. -/
theorem execReset_eq (s : State) :
    execReset s = .next { resetHost s with lanes := s.lanes.map (resetLane s.params), ret := .ok } := by
  simp only [execReset, resetHost, List.map_map]
  rfl

/-- A slot format as an instruction runs its slot on its own device. -/
theorem exec_of_toInstr {sl : Slot} {d : Nat} {i : Instr} (s : State) (h : sl.toInstr d = some i) :
    exec i s = s.onDevice d (runSlot s.params sl) := by
  cases sl with
  | atomic tag body =>
    simp only [Slot.toInstr] at h
    split_ifs at h <;> cases h <;> subst tag <;> rfl
  | _ => cases h; rfl

/-- What an instruction can do to device `d`'s lane `l` when it completes: the instruction, and the lane after it. `p` are the
parameters, `id` the message id that an ISSUE gives its frames. -/
inductive LaneStep (p : Params) (id : Byte) (d : Nat) (l : Lane) : Instr → Lane → Prop where
  | same {i : Instr} : LaneStep p id d l i l
  | slot {i : Instr} (sl : Slot) : sl.toInstr d = some i → LaneStep p id d l i { l with rx := (runSlot p sl l.rx).1 }
  | frame {i : Instr} (f : Frame) : (i = .deliver d ∨ (∃ B, i = .devRx d B) ∨ i = .frame d f) →
      LaneStep p id d l i { l with rx := rxFrame p f l.rx }
  | load {k : SlotIx} {op : Operation} {o : OpSlot} : operandOk op = true → loadedSlot p op = .ok o →
      LaneStep p id d l (.load d k op) (l.setOp k o)
  | enable (b : Bool) : LaneStep p id d l (.enable d b) { l with enabled := b }
  | pack {i : Instr} {k : SlotIx} {buf : List Byte} {base budget : Nat} {bs : List Byte} {o : OpSlot} :
      (i = .packMod d k buf base budget ∨ i = .packFoci d k buf base budget ∨ i = .packAtomic d k buf base budget) →
      packSlot p (l.op k) budget = .ok (bs, o) → LaneStep p id d l i (l.setOp k o)
  | issue {l' : Lane} : packDevice p id l = .ok l' → LaneStep p id d l .issue l'
  | send (io : Bool) : LaneStep p id d l (.send io) { l with wire := l.txbuf }
  | receive (io : Bool) (draws : List RxDraw) (draw : RxDraw) :
      LaneStep p id d l (.receive io draws) (receiveLane draw l)
  | reset : LaneStep p id d l .reset (resetLane p l)

/-- The send loop's registers are the same in both states (spec/44_host_session.md R260). -/
structure SameControl (s t : State) : Prop where
  session_eq    : t.session = s.session
  tz_eq         : t.tz = s.tz
  callResult_eq : t.callResult = s.callResult
  hostPc_eq     : t.hostPc = s.hostPc

/-- What an instruction can do to the state when it completes. -/
structure InstrStep (i : Instr) (s t : State) : Prop where
  params_eq   : t.params = s.params
  linkOpen_eq : t.linkOpen = s.linkOpen
  queue_eq    : t.queue = s.queue
  length_eq   : t.lanes.length = s.lanes.length
  control     : SameControl s t ∨ i = .reset ∨ ∃ calls timeout, i = .sendDatagram calls timeout
  msgId       : t.msgId = s.msgId ∨ i = .issue ∨ i = .reset
  lane        : ∀ d l l', s.lanes[d]? = some l → t.lanes[d]? = some l' →
    LaneStep s.params (s.msgId + 1) d l i l'

/-! ## The shapes of a next state -/

/-- Only the returned value changed. -/
theorem InstrStep.of_ret (i : Instr) (s : State) (r : Ret) : InstrStep i s { s with ret := r } :=
  ⟨rfl, rfl, rfl, rfl, .inl ⟨rfl, rfl, rfl, rfl⟩, .inl rfl, fun _ _ _ hl hl' => by
    cases hl.symm.trans hl'; exact .same⟩

/-- One device's lane was replaced. -/
theorem InstrStep.of_withLane {i : Instr} {s : State} {d : Nat} {l l' : Lane} (r : Ret) (hl : s.lanes[d]? = some l)
    (h : LaneStep s.params (s.msgId + 1) d l i l') : InstrStep i s (withLane s d l' r) where
  params_eq := rfl
  linkOpen_eq := rfl
  queue_eq := rfl
  length_eq := by simp
  control := .inl ⟨rfl, rfl, rfl, rfl⟩
  msgId := .inl rfl
  lane := by
    intro e m m' hm hm'
    by_cases he : d = e
    · subst e
      cases hl.symm.trans hm
      cases (withLane_getElem? s d l' l r hl).symm.trans hm'
      exact h
    · rw [withLane_getElem?_ne s d e l' r he, hm] at hm'
      cases hm'
      exact .same

/-- Every lane was replaced by its image. -/
theorem laneStep_of_map {i : Instr} {s : State} {f : Lane → Lane}
    (h : ∀ d l, LaneStep s.params (s.msgId + 1) d l i (f l)) (d : Nat) (l l' : Lane) (hl : s.lanes[d]? = some l)
    (hl' : (s.lanes.map f)[d]? = some l') : LaneStep s.params (s.msgId + 1) d l i l' := by
  rw [List.getElem?_map, hl] at hl'
  cases hl'
  exact h d l

/-! ## Each instruction -/

/-- An instruction that is a slot format. -/
theorem instrStep_of_toInstr {sl : Slot} {d : Nat} {i : Instr} {s t : State} (hi : sl.toInstr d = some i)
    (h : exec i s = .next t) : InstrStep i s t := by
  rw [exec_of_toInstr s hi] at h
  obtain ⟨l, hl, rfl⟩ := onDevice_next.mp h
  exact .of_withLane _ hl (.slot sl hi)

theorem execLoad_instrStep {d : Nat} {k : SlotIx} {op : Operation} {s t : State} (h : execLoad d k op s = .next t) :
    InstrStep (.load d k op) s t := by
  obtain ⟨l, hl, h⟩ := onLane_next.mp h
  split_ifs at h with hf hop
  cases ho : loadedSlot s.params op with
  | error e =>
    obtain rfl : t = _ := by simpa [ho] using h
    exact .of_ret _ s _
  | ok o =>
    obtain rfl : t = _ := by simpa [ho] using h
    exact .of_withLane _ hl (.load (by simpa using hop) ho)

theorem execEnable_instrStep {d : Nat} {b : Bool} {s t : State} (h : execEnable d b s = .next t) :
    InstrStep (.enable d b) s t := by
  obtain ⟨l, hl, h⟩ := onLane_next.mp h
  obtain rfl : t = _ := by simpa using h
  exact .of_withLane _ hl (.enable b)

/-- A slot of another kind is never packed. -/
theorem wrongKind_ne_ok (o : OpSlot) (r : List Byte × OpSlot) : wrongKind o ≠ .next (.ok r) := by
  cases h : o.done <;> simp [wrongKind, h]

/-- A pack command whose pack is that of ISSUE wherever it succeeds. -/
theorem packInto_instrStep {i : Instr} {d : Nat} {k : SlotIx} {buf : List Byte} {base budget : Nat} {s t : State}
    {pack : OpSlot → Host.Outcome (Except HostError (List Byte × OpSlot)) Fault Refusal}
    (hi : i = .packMod d k buf base budget ∨ i = .packFoci d k buf base budget ∨ i = .packAtomic d k buf base budget)
    (hpack : ∀ o r, pack o = .next (.ok r) → packSlot s.params o budget = .ok r)
    (h : s.packInto d k buf base budget pack = .next t) : InstrStep i s t := by
  obtain ⟨-, -, l, hl, ⟨e, -, rfl⟩ | ⟨bs, o, ho, rfl⟩⟩ := packInto_next.mp h
  · exact .of_ret i s _
  · exact .of_withLane _ hl (.pack hi (hpack _ _ ho))

theorem execIssue_instrStep {s t : State} (h : execIssue s = .next t) : InstrStep .issue s t := by
  obtain ⟨e, -, rfl⟩ | ⟨ls, hls, rfl⟩ := execIssue_next.mp h
  · exact ⟨rfl, rfl, rfl, rfl, .inl ⟨rfl, rfl, rfl, rfl⟩, .inr (.inl rfl), fun _ _ _ hl hl' => by
      cases hl.symm.trans hl'; exact .same⟩
  · have hall := packAll_ok.mp hls
    refine ⟨rfl, rfl, rfl, hall.length_eq.symm, .inl ⟨rfl, rfl, rfl, rfl⟩, .inr (.inl rfl), fun d l l' hl hl' => .issue ?_⟩
    obtain ⟨h1, rfl⟩ := List.getElem?_eq_some_iff.mp hl
    obtain ⟨h2, rfl⟩ := List.getElem?_eq_some_iff.mp hl'
    exact hall.get h1 h2

theorem execSend_instrStep {io : Bool} {s t : State} (h : execSend io s = .next t) : InstrStep (.send io) s t := by
  obtain ⟨e, -, rfl⟩ | ⟨-, rfl⟩ := execSend_next.mp h
  · exact .of_ret _ s _
  · exact ⟨rfl, rfl, rfl, by simp, .inl ⟨rfl, rfl, rfl, rfl⟩, .inl rfl, laneStep_of_map fun _ _ => .send io⟩

theorem execReceive_instrStep {io : Bool} {draws : List RxDraw} {s t : State} (h : execReceive io draws s = .next t) :
    InstrStep (.receive io draws) s t := by
  obtain ⟨hlen, ⟨e, -, rfl⟩ | ⟨-, rfl⟩⟩ := execReceive_next.mp h
  · exact .of_ret _ s _
  · refine ⟨rfl, rfl, rfl, by simp [hlen], .inl ⟨rfl, rfl, rfl, rfl⟩, .inl rfl, fun d l l' hl hl' => ?_⟩
    obtain ⟨draw, m, -, hm, rfl⟩ := List.getElem?_zipWith_eq_some.mp hl'
    cases hl.symm.trans hm
    exact .receive io draws draw

theorem execReset_instrStep {s t : State} (h : execReset s = .next t) : InstrStep .reset s t := by
  cases (execReset_eq s).symm.trans h
  exact ⟨rfl, rfl, rfl, by simp, .inr (.inl rfl), .inr (.inr rfl), laneStep_of_map fun _ _ => .reset⟩

theorem execSendDatagram_instrStep {calls : List DeviceCall} {timeout : Nat} {s t : State}
    (h : execSendDatagram calls timeout s = .next t) : InstrStep (.sendDatagram calls timeout) s t := by
  obtain ⟨-, -, -, ⟨-, rfl⟩ | ⟨-, rfl⟩⟩ := execSendDatagram_next.mp h <;>
  exact ⟨by simp, by simp, by simp, by simp, .inr (.inr ⟨_, _, rfl⟩), .inl (by simp), fun _ _ _ hl hl' => by
    simp only [State.failCall_lanes, afterSetup_lanes] at hl'
    cases hl.symm.trans hl'
    exact .same⟩

/-- Every instruction that completes is one of the steps above. -/
theorem exec_instrStep {i : Instr} {s t : State} (h : exec i s = .next t) : InstrStep i s t := by
  cases i with
  | empty d r => exact instrStep_of_toInstr (sl := .empty r) rfl h
  | modFirst d hd tl => exact instrStep_of_toInstr (sl := .modFirst hd tl) rfl h
  | modCont d hd tl => exact instrStep_of_toInstr (sl := .modCont hd tl) rfl h
  | fociFirst d hd tl => exact instrStep_of_toInstr (sl := .fociFirst hd tl) rfl h
  | fociCont d hd tl => exact instrStep_of_toInstr (sl := .fociCont hd tl) rfl h
  | atomic11 d b => exact instrStep_of_toInstr (sl := .atomic 0x11 b) rfl h
  | atomic30 d b => exact instrStep_of_toInstr (sl := .atomic 0x30 b) rfl h
  | atomic31 d b => exact instrStep_of_toInstr (sl := .atomic 0x31 b) rfl h
  | atomic42 d b => exact instrStep_of_toInstr (sl := .atomic 0x42 b) rfl h
  | atomic60 d b => exact instrStep_of_toInstr (sl := .atomic 0x60 b) rfl h
  | frame d f =>
    obtain ⟨-, l, hl, rfl⟩ := execFrame_next.mp h
    exact .of_withLane _ hl (.frame f (.inr (.inr rfl)))
  | devRx d B =>
    obtain ⟨-, l, f, hl, -, rfl⟩ := execDevRx_next.mp h
    exact .of_withLane _ hl (.frame f (.inr (.inl ⟨B, rfl⟩)))
  | deliver d =>
    obtain ⟨l, f, hl, -, rfl⟩ := execDeliver_next.mp h
    exact .of_withLane _ hl (.frame f (.inl rfl))
  | ack d a =>
    obtain ⟨l, -, h⟩ := onLane_next.mp h
    cases h
    exact .of_ret _ s _
  | requiredSize d k =>
    obtain ⟨l, -, h⟩ := onLane_next.mp h
    cases h
    exact .of_ret _ s _
  | matchAcks =>
    cases h
    exact .of_ret _ s _
  | reset => exact execReset_instrStep h
  | load d k op => exact execLoad_instrStep h
  | enable d b => exact execEnable_instrStep h
  | packMod d k buf base budget =>
    rw [exec, execPackMod] at h
    refine packInto_instrStep (.inl rfl) (fun o r ho => ?_) h
    cases o with
    | mod op sent done => exact Host.Outcome.next.inj ho
    | _ => exact absurd ho (wrongKind_ne_ok _ r)
  | packFoci d k buf base budget =>
    rw [exec, execPackFoci] at h
    refine packInto_instrStep (.inr (.inl rfl)) (fun o r ho => ?_) h
    cases o with
    | foci op ss sent done => exact Host.Outcome.next.inj ho
    | _ => exact absurd ho (wrongKind_ne_ok _ r)
  | packAtomic d k buf base budget =>
    rw [exec, execPackAtomic] at h
    refine packInto_instrStep (.inr (.inr rfl)) (fun o r ho => ?_) h
    cases o with
    | atomic tag body done => exact Host.Outcome.next.inj ho
    | _ => exact absurd ho (wrongKind_ne_ok _ r)
  | issue => exact execIssue_instrStep h
  | send io => exact execSend_instrStep h
  | receive io draws => exact execReceive_instrStep h
  | sendDatagram calls timeout => exact execSendDatagram_instrStep h

end Sys2Proof.Machine

namespace Sys2Proof.Machine

open Sys2Proof

/-! # What packing does to a device's slots

`OpSlot.Consumed o o'`: from `o` to `o'` the slot keeps its operation, its cursor does not fall and its `done` latch stays set
(spec/10_state.md R25). -/

/-- The slot holds the same operation, consumed no less (spec/10_state.md R25). -/
inductive OpSlot.Consumed : OpSlot → OpSlot → Prop where
  | null : Consumed .null .null
  | mod {o : StreamOp} {sent sent' : Nat} {done done' : Bool} : sent ≤ sent' → (done = true → done' = true ∧ sent' = sent) →
      Consumed (.mod o sent done) (.mod o sent' done')
  | foci {o : StreamOp} {ss : U32} {sent sent' : Nat} {done done' : Bool} : sent ≤ sent' →
      (done = true → done' = true ∧ sent' = sent) → Consumed (.foci o ss sent done) (.foci o ss sent' done')
  | atomic {tag : Byte} {body : List Byte} {done done' : Bool} : (done = true → done' = true) →
      Consumed (.atomic tag body done) (.atomic tag body done')

theorem OpSlot.Consumed.refl (o : OpSlot) : OpSlot.Consumed o o := by
  cases o with
  | null => exact .null
  | mod o sent done => exact .mod (Nat.le_refl _) fun h => ⟨h, rfl⟩
  | foci o ss sent done => exact .foci (Nat.le_refl _) fun h => ⟨h, rfl⟩
  | atomic tag body done => exact .atomic id

/-- A pack only consumes its slot. -/
theorem packSlot_consumed {p : Params} {o o' : OpSlot} {budget : Nat} {bs : List Byte}
    (h : packSlot p o budget = .ok (bs, o')) : o.Consumed o' := by
  obtain ⟨op, sent, sent', done', rfl, rfl, hp⟩ | ⟨op, ss, sent, sent', done', rfl, rfl, hp⟩ | ⟨tag, body, rfl, rfl, -, -⟩ :=
    packSlot_ok h
  · obtain ⟨-, -, -, hs, -⟩ := packStream_ok.mp hp
    exact .mod (by omega) nofun
  · obtain ⟨-, -, -, hs, -⟩ := packStream_ok.mp hp
    exact .foci (by omega) nofun
  · exact .atomic nofun

/-- What `PACK_DEVICE` does when it succeeds (spec/41_dual_slot_packer.md R180 to R185): the frame it writes with the slots it
advanced, one case for each way to fill the frame. -/
theorem packDevice_ok {p : Params} {id : Byte} {l l' : Lane} (h : packDevice p id l = .ok l') :
    ((l.enabled = false ∨ (l.pri.done = true ∧ l.sec.done = true)) ∧ l' = { l with txbuf := batchFrame p id 0 [] }) ∨
    (∃ bs o, l.enabled = true ∧ l.pri.done = false ∧ packSlot p l.pri p.n = .ok (bs, o) ∧
      l' = { l with txbuf := batchFrame p id 0 bs, pri := o }) ∨
    (∃ bs o bs2 o2, l.enabled = true ∧ l.pri.done = false ∧ l.sec.done = false ∧ packSlot p l.pri p.n = .ok (bs, o) ∧
      requiredSize p l.sec ≤ p.n - bs.length ∧ packSlot p l.sec (p.n - bs.length) = .ok (bs2, o2) ∧
      l' = { l with txbuf := batchFrame p id bs.length (bs ++ bs2), pri := o, sec := o2 }) ∨
    (∃ bs o, l.enabled = true ∧ l.pri.done = true ∧ l.sec.done = false ∧ packSlot p l.sec p.n = .ok (bs, o) ∧
      l' = { l with txbuf := batchFrame p id 0 bs, sec := o }) := by
  unfold packDevice at h
  split_ifs at h with hen hpri hsec
  · cases h
    exact .inl ⟨.inl (by simpa using hen), rfl⟩
  · split at h
    · cases h
    · rename_i bs o ho
      split_ifs at h with hfit
      · split at h
        · cases h
        · rename_i bs2 o2 ho2
          cases h
          simp only [Bool.and_eq_true, Bool.not_eq_true', decide_eq_true_eq] at hfit
          exact .inr (.inr (.inl ⟨bs, o, bs2, o2, by simpa using hen, by simpa using hpri, hfit.1, ho, hfit.2, ho2, rfl⟩))
      · cases h
        exact .inr (.inl ⟨bs, o, by simpa using hen, by simpa using hpri, ho, rfl⟩)
  · split at h
    · cases h
    · rename_i bs o ho
      cases h
      exact .inr (.inr (.inr ⟨bs, o, by simpa using hen, by simpa using hpri, by simpa using hsec, ho, rfl⟩))
  · cases h
    exact .inl ⟨.inr ⟨by simpa using hpri, by simpa using hsec⟩, rfl⟩

/-- ISSUE writes a lane's frame and slots, and only consumes the slots. -/
theorem packDevice_frame {p : Params} {id : Byte} {l l' : Lane} (h : packDevice p id l = .ok l') :
    ∃ tx pri sec, l' = { l with txbuf := tx, pri := pri, sec := sec } ∧ l.pri.Consumed pri ∧ l.sec.Consumed sec := by
  obtain ⟨-, rfl⟩ | ⟨bs, o, -, -, ho, rfl⟩ | ⟨bs, o, bs2, o2, -, -, -, ho, -, ho2, rfl⟩ | ⟨bs, o, -, -, -, ho, rfl⟩ :=
    packDevice_ok h
  · exact ⟨_, _, _, rfl, .refl _, .refl _⟩
  · exact ⟨_, _, _, rfl, packSlot_consumed ho, .refl _⟩
  · exact ⟨_, _, _, rfl, packSlot_consumed ho, packSlot_consumed ho2⟩
  · exact ⟨_, _, _, rfl, .refl _, packSlot_consumed ho⟩

/-! # The turns that are no instruction, and RESET -/

/-- The record the host reads of device `d` is the one in `RXBUF[d]` (spec/43_ack_matcher.md R240; log entry 27). -/
theorem parseTurn_eq {s : State} {d : Nat} {l : Lane} (h : s.lanes[d]? = some l) :
    parseTurn d s = .next { s with ret := .parsed l.ackParse } := by
  simp only [parseTurn, onLane_some _ h, exec, execAck, State.returns_eq_next, Lane.ackParse]

/-- Settles O12: each turn is the head of the queue, run on the rest. -/
theorem stepPlaysTheOtherTurns : Obligations.StepPlaysTheOtherTurns := by
  intro s rest
  refine ⟨fun h => ?_, fun h => ?_, fun h => ?_, fun d l h hl => ?_⟩
  · rw [step, nextTurn, h]
  · rw [step_cons h]; rfl
  · rw [step_cons h]; rfl
  · rw [step_cons h]
    exact parseTurn_eq (s := { s with queue := rest }) hl

/-- Settles O13: RESET always completes, and every lane after it is `resetLane` of the lane before it. -/
theorem resetSetsTheResetValues : Obligations.ResetSetsTheResetValues := by
  intro s
  refine ⟨_, execReset_eq s, rfl, rfl, rfl, by simp, fun d l hl => ?_⟩
  rw [List.getElem?_map, Option.map_eq_some_iff] at hl
  obtain ⟨l0, -, rfl⟩ := hl
  refine ⟨rfl, rfl, rfl, rfl, rfl, rfl, rfl, rfl, rfl, fun k seg => ?_⟩
  have hreset : (resetLane s.params l0).rx.reasm.get k seg = Reasm.reset := Streams.get_all _ k seg
  rw [hreset]
  exact ⟨rfl, rfl⟩

/-! # Who may write what -/

/-- The slots of a lane change only by LOAD, the packs, ISSUE and RESET. -/
theorem LaneStep.ops_written {p : Params} {id : Byte} {d : Nat} {l l' : Lane} {i : Instr} (h : LaneStep p id d l i l')
    (hne : l'.pri ≠ l.pri ∨ l'.sec ≠ l.sec) :
    i = .reset ∨ i = .issue ∨ (∃ k op, i = .load d k op) ∨
      (∃ k buf b n, i = .packMod d k buf b n ∨ i = .packFoci d k buf b n ∨ i = .packAtomic d k buf b n) := by
  cases h with
  | load => exact .inr (.inr (.inl ⟨_, _, rfl⟩))
  | pack hi _ => exact .inr (.inr (.inr ⟨_, _, _, _, hi⟩))
  | issue => exact .inr (.inl rfl)
  | reset => exact .inl rfl
  | receive io draws draw => cases draw <;> simp [receiveLane] at hne
  | same | slot | frame | enable | send => simp at hne

/-- The device's state changes only by its own wire formats and RESET. EMPTY is none of them: it writes nothing. -/
theorem LaneStep.rx_written {p : Params} {id : Byte} {d : Nat} {l l' : Lane} {i : Instr} (h : LaneStep p id d l i l')
    (hne : l'.rx ≠ l.rx) :
    i = .reset ∨ i = .deliver d ∨ (∃ B, i = .devRx d B) ∨ (∃ f, i = .frame d f) ∨ (∃ v, fragView i = some v ∧ v.d = d) ∨
      ∃ b, i = .atomic11 d b ∨ i = .atomic30 d b ∨ i = .atomic31 d b ∨ i = .atomic42 d b ∨ i = .atomic60 d b := by
  cases h with
  | reset => exact .inl rfl
  | frame f hi =>
    obtain hi | hi | hi := hi
    · exact .inr (.inl hi)
    · exact .inr (.inr (.inl hi))
    · exact .inr (.inr (.inr (.inl ⟨f, hi⟩)))
  | slot sl hi =>
    cases sl with
    | empty rest => exact absurd rfl hne
    | atomic tag body =>
      simp only [Slot.toInstr] at hi
      split_ifs at hi <;> cases hi <;> simp
    | _ => cases hi; exact .inr (.inr (.inr (.inr (.inl ⟨_, rfl, rfl⟩))))
  | issue hd =>
    obtain ⟨_, _, _, rfl, -⟩ := packDevice_frame hd
    exact absurd rfl hne
  | receive io draws draw => cases draw <;> simp [receiveLane] at hne
  | same | load | enable | pack | send => simp at hne

/-- The other registers of a lane, each written by its own command and RESET. -/
theorem LaneStep.registers_written {p : Params} {id : Byte} {d : Nat} {l l' : Lane} {i : Instr}
    (h : LaneStep p id d l i l') :
    (l'.enabled ≠ l.enabled → i = .reset ∨ ∃ b, i = .enable d b) ∧ (l'.txbuf ≠ l.txbuf → i = .issue ∨ i = .reset) ∧
    (l'.wire ≠ l.wire → (∃ io, i = .send io) ∨ i = .reset) ∧
    ((l'.rxValid ≠ l.rxValid ∨ l'.rxBuf ≠ l.rxBuf) → (∃ io draws, i = .receive io draws) ∨ i = .reset) := by
  cases h with
  | issue hd =>
    obtain ⟨_, _, _, rfl, -⟩ := packDevice_frame hd
    simp
  | receive io draws draw => cases draw <;> simp [receiveLane]
  | same | slot | frame | load | enable | pack | send | reset => simp

/-- Settles O57, by cases on what the instruction did to the state and to the lane. -/
theorem onlyTheNamedCommandsWrite : Obligations.OnlyTheNamedCommandsWrite := by
  intro i s t d l l' h hl hl'
  have hs := exec_instrStep h
  have hlane := hs.lane d l l' hl hl'
  obtain ⟨henabled, htxbuf, hwire, hrecord⟩ := hlane.registers_written
  refine ⟨hs.params_eq, hs.linkOpen_eq, hs.queue_eq, hs.length_eq, fun hne => ?_, fun hne => hs.msgId.resolve_left hne,
    henabled, hlane.ops_written, htxbuf, hwire, hrecord, hlane.rx_written⟩
  obtain ⟨hsession, htz, hresult, hpc⟩ | hi := hs.control
  · simp [hsession, htz, hresult, hpc] at hne
  · exact hi

/-! # Operations are consumed monotonically -/

/-- A lane step but RESET and a LOAD of the slot only consumes the slot. -/
theorem LaneStep.consumed {p : Params} {id : Byte} {d : Nat} {l l' : Lane} {i : Instr} {k : SlotIx}
    (h : LaneStep p id d l i l') (hreset : i ≠ .reset) (hload : ∀ op, i ≠ .load d k op) :
    (l.op k).Consumed (l'.op k) := by
  cases h with
  | @load k' op o _ _ =>
    have hk : k' ≠ k := fun hk => hload op (by rw [hk])
    rw [Lane.op_setOp_ne _ _ _ _ hk]
    exact .refl _
  | @pack _ k' _ _ _ _ _ _ ho =>
    by_cases hk : k' = k
    · subst k'
      rw [Lane.op_setOp]
      exact packSlot_consumed ho
    · rw [Lane.op_setOp_ne _ _ _ _ hk]
      exact .refl _
  | issue hd =>
    obtain ⟨_, _, _, rfl, hpri, hsec⟩ := packDevice_frame hd
    cases k with
    | pri => exact hpri
    | sec => exact hsec
  | reset => exact absurd rfl hreset
  | receive io draws draw => cases draw <;> cases k <;> exact .refl _
  | same | slot | frame | enable | send => cases k <;> exact .refl _

/-- Settles O58: the slot before the instruction is `Consumed` by the slot after it. -/
theorem operationsAreConsumedMonotonically : Obligations.OperationsAreConsumedMonotonically := by
  intro i s t d k l l' h hl hl' hreset hload
  have hc := ((exec_instrStep h).lane d l l' hl hl').consumed hreset hload
  revert hc
  generalize l.op k = o, l'.op k = o'
  intro hc
  cases hc with
  | null => rfl
  | mod hle hdone => exact ⟨_, _, rfl, hle, hdone⟩
  | foci hle hdone => exact ⟨_, _, rfl, hle, hdone⟩
  | atomic hdone => exact ⟨_, rfl, hdone⟩

end Sys2Proof.Machine

namespace Sys2Proof.Machine

open Sys2Proof

/-! # The invariant: the device's streams -/

/-- Every stream of a device is sound (spec/10_state.md R30, R31). -/
def DeviceOk (p : Params) (dev : Device) : Prop := ∀ k s, StreamStateOk p k (dev.reasm.get k s) (dev.segbuf.get k s)

/-- The fields a header latches have a MOD stream's widths (spec/30_encoding.md R100; log entry 17). -/
def LatchOk (k : Kind) (h : Latch) : Prop := k = .mod → h.repWire.toNat < 65536 ∧ h.soundSpeed = 0

/-- A stream at count 0 is sound over any sound buffer. -/
theorem StreamStateOk.inactive {p : Params} {k : Kind} {st : Reasm} {m : Memory} (h : StreamStateOk p k st m) :
    StreamStateOk p k ⟨false, 0, st.latch⟩ m where
  count_le := Nat.zero_le _
  count_pos := nofun
  mem_wf := h.mem_wf
  mem_bound := h.mem_bound
  written := fun a ha => absurd ha (by simp)
  rep_width := h.rep_width
  no_speed := h.no_speed

/-- `n` units written at unit offset `base`, which the count has reached, leave the stream sound with count `base + n`. -/
theorem StreamStateOk.extended {p : Params} {k : Kind} {st : Reasm} {m : Memory} {hdr : Latch} {base n : Nat} {bs : List Byte}
    (active : Bool) (h : StreamStateOk p k st m) (hbase : base ≤ st.count) (hn : n ≠ 0) (hmax : base + n ≤ unitsMax p k)
    (hbs : bs.length = n * unitBytes p k) (hhdr : LatchOk k hdr) :
    StreamStateOk p k ⟨active, base + n, hdr⟩ (m.writeBytes (base * unitBytes p k) bs) where
  count_le := hmax
  count_pos := fun _ => by simp only; omega
  mem_wf := m.writeBytes_wf h.mem_wf _ _
  mem_bound := by
    intro c hc
    obtain hc | ⟨-, hc⟩ := Memory.mem_writeBytes m _ _ c hc
    · exact h.mem_bound c hc
    · rw [hbs, ← Nat.add_mul] at hc
      exact Nat.lt_of_lt_of_le hc (Nat.mul_le_mul_right _ hmax)
  written := by
    intro a ha
    rw [Memory.read_writeBytes]
    split
    · rename_i hin
      rw [List.getElem?_eq_getElem (by omega)]
      rfl
    · rename_i hout
      refine h.written a (Nat.lt_of_lt_of_le ?_ (Nat.mul_le_mul_right _ hbase))
      rw [hbs, ← Nat.add_mul] at hout
      simp only at ha
      omega
  rep_width := fun hk => (hhdr hk).1
  no_speed := fun hk => (hhdr hk).2

/-- A device is sound when one stream of it is and the others are those of a sound device. -/
theorem DeviceOk.of_stream {p : Params} {dev dev' : Device} {k : Kind} {seg : Segment} (h : DeviceOk p dev)
    (hst : StreamStateOk p k (dev'.reasm.get k seg) (dev'.segbuf.get k seg))
    (hne : ∀ k' s', (k', s') ≠ (k, seg) →
      dev'.reasm.get k' s' = dev.reasm.get k' s' ∧ dev'.segbuf.get k' s' = dev.segbuf.get k' s') : DeviceOk p dev' := by
  intro k' s'
  by_cases hks : (k', s') = (k, seg)
  · cases hks
    exact hst
  · obtain ⟨h1, h2⟩ := hne k' s' hks
    rw [h1, h2]
    exact h k' s'

theorem abortedDevice_ok {p : Params} {dev : Device} (h : DeviceOk p dev) (k : Kind) (seg : Segment) :
    DeviceOk p (abortedDevice dev k seg) := by
  refine h.of_stream (k := k) (seg := seg) ?_ fun k' s' hne => ⟨Streams.get_set_ne _ _ _ _ _ _ hne, rfl⟩
  have hget : (abortedDevice dev k seg).reasm.get k seg = ⟨false, 0, (dev.reasm.get k seg).latch⟩ := Streams.get_set _ _ _ _
  rw [hget]
  exact (h k seg).inactive

/-- A fragment's payload holds its units (spec/30_encoding.md R108). -/
theorem units_le_payloadBytes (p : Params) (k : Kind) (n : Nat) : n * unitBytes p k ≤ payloadBytes p k n := by
  unfold payloadBytes roundUpEven
  split <;> omega

/-- An accepted fragment's writes keep every stream sound. -/
theorem acceptFragment_ok {p : Params} {k : Kind} {f : FragFlags} {n : Nat} {new : Option Latch} {tail : List Byte}
    {dev : Device} {hdr : Latch} {base : Nat} (h : DeviceOk p dev) (hnew : ∀ hd, new = some hd → LatchOk k hd)
    (hc : checkFragment p k f n new tail.length (dev.reasm.get k f.seg) = .ok (hdr, base)) :
    DeviceOk p (acceptFragment p k f n hdr base tail dev) := by
  obtain ⟨-, hn, hroom, -, hhdr, hbase, -, hmax, -⟩ := checkFragment_ok.mp hc
  have hst := h k f.seg
  have hle : base ≤ (dev.reasm.get k f.seg).count := by rw [hbase]; split <;> omega
  have hlatch : LatchOk k hdr := by
    cases new with
    | some hd => rw [hhdr]; exact hnew hd rfl
    | none => rw [hhdr]; exact fun hk => ⟨hst.rep_width hk, hst.no_speed hk⟩
  have hbs : (tail.take (n * unitBytes p k)).length = n * unitBytes p k := by
    have := units_le_payloadBytes p k n
    simp only [List.length_take]
    omega
  refine h.of_stream (k := k) (seg := f.seg) ?_ fun k' s' hne =>
    ⟨Streams.get_set_ne _ _ _ _ _ _ hne, Streams.get_set_ne _ _ _ _ _ _ hne⟩
  simp only [acceptFragment, Streams.get_set]
  exact hst.extended _ hle hn hmax hbs hlatch

theorem runFragment_ok {p : Params} {k : Kind} {f : FragFlags} {n : Nat} {new : Option Latch} {tail : List Byte} {dev : Device}
    (h : DeviceOk p dev) (hnew : ∀ hd, new = some hd → LatchOk k hd) : DeviceOk p (runFragment p k f n new tail dev).1 := by
  obtain ⟨e, -, hr⟩ | ⟨hdr, base, hc, hr⟩ := runFragment_cases p k f n new tail dev
  · rw [hr]
    exact abortedDevice_ok h k f.seg
  · rw [hr]
    exact acceptFragment_ok h hnew hc

/-- Every slot format keeps every stream sound. -/
theorem runSlot_ok {p : Params} {dev : Device} (sl : Slot) (h : DeviceOk p dev) : DeviceOk p (runSlot p sl dev).1 := by
  cases sl with
  | empty rest => exact h
  | modFirst hd tail =>
    refine runFragment_ok h fun _ hsome _ => ?_
    cases hsome
    exact ⟨by simpa using Nat.mod_lt_of_lt hd.rep.isLt, rfl⟩
  | modCont hd tail => exact runFragment_ok h nofun
  | fociFirst hd tail => exact runFragment_ok h fun _ _ => nofun
  | fociCont hd tail => exact runFragment_ok h nofun
  | atomic tag body =>
    obtain ⟨-, hr⟩ | ⟨-, hr⟩ := slotAtomic_cases p tag body dev
    · rw [runSlot, hr]
      exact h
    · rw [runSlot, hr]
      exact h

theorem rejectSlot_ok {p : Params} {dev : Device} (r : SlotReject) (h : DeviceOk p dev) :
    DeviceOk p (rejectSlot r dev).1 := by
  cases r with
  | shortHeader k first f => exact abortedDevice_ok h k f.seg
  | noTag | unknownTag | noFlags => exact h

theorem rxSlot_ok {p : Params} {dev : Device} (B : List Byte) (h : DeviceOk p dev) : DeviceOk p (rxSlot p B dev).1 := by
  unfold rxSlot
  split
  · exact runSlot_ok _ h
  · exact rejectSlot_ok _ h

theorem rxSlots_ok {p : Params} {dev : Device} (f : Frame) (h : DeviceOk p dev) : DeviceOk p (rxSlots p f dev).1 := by
  unfold rxSlots
  split
  · exact rxSlot_ok _ h
  · dsimp only
    split
    · exact rxSlot_ok _ (rxSlot_ok _ h)
    · exact rxSlot_ok _ h

/-- Every frame keeps every stream sound, whatever its bytes are. -/
theorem rxFrame_ok {p : Params} {dev : Device} (f : Frame) (h : DeviceOk p dev) : DeviceOk p (rxFrame p f dev) := by
  obtain ⟨-, hr⟩ | ⟨-, -, -, hr⟩ | ⟨-, -, hr⟩ := rxFrame_cases p f dev
  · rw [hr]
    exact h
  · rw [hr]
    exact h
  · rw [hr]
    exact rxSlots_ok f h

theorem resetDevice_ok (p : Params) (dev : Device) : DeviceOk p (resetDevice dev) := by
  intro k s
  have hreasm : (resetDevice dev).reasm.get k s = Reasm.reset := Streams.get_all _ k s
  have hseg : (resetDevice dev).segbuf.get k s = [] := Streams.get_all _ k s
  rw [hreasm, hseg]
  exact ⟨Nat.zero_le _, nofun, List.Pairwise.nil, nofun, fun a ha => absurd ha (by simp [Reasm.reset]), fun _ => by decide,
    fun _ => rfl⟩

/-! # The invariant: operation slots -/

/-- What LOAD puts in a slot is sound (spec/40_fragment_codec.md R140). -/
theorem loadedSlot_ok {p : Params} {op : Operation} {o : OpSlot} (hop : operandOk op = true)
    (h : loadedSlot p op = .ok o) : SlotOk p o := by
  have hpin : ∀ so : StreamOp, transitionRejected p so = false → ∀ pin, so.mode = .gpio pin → pin < gpioPins := by
    intro so hr pin hm
    simp only [transitionRejected, hm, Bool.or_eq_false_iff, decide_eq_false_iff_not] at hr
    omega
  cases op with
  | null => cases h; trivial
  | mod so =>
    simp only [loadedSlot] at h
    split_ifs at h with hr
    cases h
    simp only [operandOk, Operation.inDomain, Bool.and_eq_true, List.all_eq_true, beq_iff_eq] at hop
    exact ⟨hop.1, hop.2, hpin so (by simpa using hr), Nat.zero_le _, nofun, fun _ _ => rfl, fun hne => absurd rfl hne⟩
  | foci so ss =>
    simp only [loadedSlot] at h
    split_ifs at h with hr hw
    cases h
    simp only [List.any_eq_true, bne_iff_ne, not_exists, not_and, not_not] at hw
    exact ⟨hop, hw, hpin so (by simpa using hr), Nat.zero_le _, nofun, fun _ _ => rfl, fun hne => absurd rfl hne⟩
  | atomic tag body =>
    simp only [loadedSlot] at h
    split_ifs at h with ht
    cases h
    exact ht

/-- A pack takes no more units than remain. -/
theorem unitCount_le (p : Params) (k : Kind) (o : StreamOp) (sent budget : Nat) :
    unitCount p k o sent budget ≤ o.data.length - sent :=
  Nat.min_le_left _ _

/-- A streaming pack advances a sound operation to a sound one (spec/40_fragment_codec.md R150). -/
theorem StreamOk.packed {p : Params} {k : Kind} {ss : U32} {o : StreamOp} {sent budget : Nat} {bs : List Byte} {sent' : Nat}
    {done' : Bool} (h : StreamOk p k o sent false) (hp : packStream p k ss o sent false budget = .ok (bs, sent', done')) :
    StreamOk p k o sent' done' := by
  obtain ⟨-, hmax, -, hsent, rfl, -, -⟩ := packStream_ok.mp hp
  have hle := unitCount_le p k o sent budget
  have hsent_le := h.sent_le
  refine ⟨h.rep_ok, h.units_ok, h.pin_ok, by omega, fun hd => by simpa using hd, fun hd heq => ?_, fun _ => ?_⟩
  · simp [heq] at hd
  · by_cases h0 : sent = 0
    · exact hmax h0
    · exact h.max_ok h0

theorem packSlot_keeps_slotOk {p : Params} {o o' : OpSlot} {budget : Nat} {bs : List Byte} (h : SlotOk p o)
    (hp : packSlot p o budget = .ok (bs, o')) : SlotOk p o' := by
  obtain ⟨op, sent, sent', done', rfl, rfl, hps⟩ | ⟨op, ss, sent, sent', done', rfl, rfl, hps⟩ | ⟨tag, body, rfl, rfl, -, -⟩ :=
    packSlot_ok hp
  · exact StreamOk.packed h hps
  · exact StreamOk.packed h hps
  · exact h

/-! # The invariant: frame buffers -/

/-- The bytes of a fragment: its header, then its payload. -/
theorem encodeSlot_fragmentSlot_length (k : Kind) (ss : U32) (o : StreamOp) (sent n : Nat) :
    (encodeSlot (fragmentSlot k ss o sent n)).length = k.header (sent == 0) + (fragmentPayload k o sent n).length := by
  unfold fragmentSlot
  cases k <;> cases (sent == 0) <;> simp [encodeSlot, Kind.header, Kind.firstHeader, contHeader] <;> omega

/-- The bytes of units that all have one width. -/
theorem flatten_length_of_width {w : Nat} {us : List (List Byte)} (h : ∀ u ∈ us, u.length = w) :
    us.flatten.length = us.length * w := by
  rw [List.length_flatten, List.eq_replicate_of_mem (a := w) (l := us.map List.length) (by simpa using h)]
  simp

/-- A fragment's payload has the bytes R108 gives it. -/
theorem fragmentPayload_length {p : Params} {k : Kind} {o : StreamOp} {sent n : Nat}
    (hw : ∀ u ∈ o.data, u.length = unitBytes p k) (hn : n ≤ o.data.length - sent) :
    (fragmentPayload k o sent n).length = payloadBytes p k n := by
  have hlen : ((o.data.drop sent).take n).flatten.length = n * unitBytes p k := by
    rw [flatten_length_of_width fun u hu => hw u (List.mem_of_mem_drop (List.mem_of_mem_take hu))]
    simp [hn]
  simp only [fragmentPayload, payloadBytes, List.length_append, hlen, roundUpEven]
  cases padEven k
  · simp
  · by_cases hodd : n * unitBytes p k % 2 = 1
    · simp [hodd]
    · simp [hodd]
      omega

/-- The payload of the units that fit a window fits it, padding included (spec/40_fragment_codec.md R152). -/
theorem payloadBytes_unitCount_le (p : Params) (k : Kind) (o : StreamOp) (sent budget : Nat) :
    payloadBytes p k (unitCount p k o sent budget) ≤ budget - k.header (sent == 0) := by
  unfold payloadBytes unitCount
  generalize budget - k.header (sent == 0) = room
  cases k with
  | mod =>
    simp only [padEven, if_true, unitBytes, Nat.div_one, Nat.mul_one, evenFloor, roundUpEven]
    omega
  | foci =>
    simp only [padEven, Bool.false_eq_true, if_false]
    refine le_trans (Nat.mul_le_mul_right _ ?_) (Nat.div_mul_le_self room (unitBytes p .foci))
    omega

/-- A streaming pack writes no more bytes than its window has. -/
theorem packStream_length_le {p : Params} {k : Kind} {ss : U32} {o : StreamOp} {sent budget : Nat} {bs : List Byte} {sent' : Nat}
    {done' : Bool} (h : StreamOk p k o sent false) (hp : packStream p k ss o sent false budget = .ok (bs, sent', done')) :
    bs.length ≤ budget := by
  obtain ⟨-, -, hneed, -, -, -, rfl⟩ := packStream_ok.mp hp
  rw [encodeSlot_fragmentSlot_length, fragmentPayload_length h.units_ok (unitCount_le _ _ _ _ _)]
  have hpay := payloadBytes_unitCount_le p k o sent budget
  unfold streamNeed at hneed
  omega

theorem packSlot_length_le {p : Params} {o o' : OpSlot} {budget : Nat} {bs : List Byte} (h : SlotOk p o)
    (hp : packSlot p o budget = .ok (bs, o')) : bs.length ≤ budget := by
  obtain ⟨op, sent, sent', done', rfl, rfl, hps⟩ | ⟨op, ss, sent, sent', done', rfl, rfl, hps⟩ |
    ⟨tag, body, rfl, rfl, rfl, hle⟩ := packSlot_ok hp
  · exact packStream_length_le h hps
  · exact packStream_length_le h hps
  · rw [List.length_cons]
    omega

/-- An undone slot needs room (spec/40_fragment_codec.md R145). -/
theorem requiredSize_pos {p : Params} {o : OpSlot} (h : o.done = false) : 1 ≤ requiredSize p o := by
  have hneed : ∀ k sent, 1 ≤ streamNeed p k sent := fun k sent => by
    unfold streamNeed
    cases k <;> cases (sent == 0) <;> simp [Kind.header, Kind.firstHeader, contHeader] <;> omega
  cases o with
  | null => cases h
  | mod o sent done => simp only [requiredSize, h]; exact hneed .mod sent
  | foci o ss sent done => simp only [requiredSize, h]; exact hneed .foci sent
  | atomic tag body done => simp only [requiredSize, h]; exact Nat.le_add_right 1 _

/-- A batch's frame has the shape of spec/41_dual_slot_packer.md R188. -/
theorem batchFrame_ok {p : Params} {id : Byte} {o : Nat} {slots : List Byte} (hn : p.n ≤ 0xFFFF) (ho : o < p.n)
    (hs : slots.length ≤ p.n) : FrameOk p (batchFrame p id o slots) where
  length_eq := by
    simp only [batchFrame, encodeFrame, fillPayload, zeros, List.length_append, List.length_cons, List.length_nil,
      List.length_replicate, leBytes_length]
    omega
  resv_eq := rfl
  offset_lt := by
    have hread : memRead (batchFrame p id o slots) 2 2 = leNat (leBytes 2 (BitVec.ofNat 16 o).toNat) :=
      memRead_middle [id, 0x00] (leBytes 2 (BitVec.ofNat 16 o).toNat) (fillPayload p slots)
    rw [hread, leNat_leBytes, BitVec.toNat_ofNat]
    omega

/-- An all-zero frame is an empty batch's frame. -/
theorem zeros_frame_ok {p : Params} (hp : ParamsOk p) : FrameOk p (zeros (4 + p.n)) := by
  have heq : zeros (4 + p.n) = batchFrame p 0 0 [] := by
    simp only [batchFrame, encodeFrame, fillPayload, zeros, Nat.add_comm 4, List.replicate_succ]
    rfl
  rw [heq]
  exact batchFrame_ok hp.n_le hp.n_pos (Nat.zero_le _)

end Sys2Proof.Machine

namespace Sys2Proof.Machine

open Sys2Proof

/-! # The invariant: lanes -/

theorem LaneOk.op_ok {p : Params} {l : Lane} (h : LaneOk p l) (k : SlotIx) : SlotOk p (l.op k) := by
  cases k with
  | pri => exact h.pri_ok
  | sec => exact h.sec_ok

theorem LaneOk.setOp {p : Params} {l : Lane} (h : LaneOk p l) (k : SlotIx) {o : OpSlot} (ho : SlotOk p o) :
    LaneOk p (l.setOp k o) := by
  cases k with
  | pri => exact { h with pri_ok := ho }
  | sec => exact { h with sec_ok := ho }

theorem LaneOk.withRx {p : Params} {l : Lane} (h : LaneOk p l) {dev : Device} (hdev : DeviceOk p dev) :
    LaneOk p { l with rx := dev } :=
  { h with rx_ok := hdev }

/-- ISSUE keeps a lane sound: what it packs fits the frame, and a secondary goes after a primary only below `N`
(spec/41_dual_slot_packer.md R182, R188). -/
theorem packDevice_keeps_laneOk {p : Params} {id : Byte} {l l' : Lane} (hp : ParamsOk p) (h : LaneOk p l)
    (hl : packDevice p id l = .ok l') : LaneOk p l' := by
  obtain ⟨-, rfl⟩ | ⟨bs, o, -, -, ho, rfl⟩ | ⟨bs, o, bs2, o2, -, -, hsec, ho, hfit, ho2, rfl⟩ | ⟨bs, o, -, -, -, ho, rfl⟩ :=
    packDevice_ok hl
  · exact { h with txbuf_ok := batchFrame_ok hp.n_le hp.n_pos (Nat.zero_le _) }
  · exact { h with
      txbuf_ok := batchFrame_ok hp.n_le hp.n_pos (packSlot_length_le h.pri_ok ho)
      pri_ok := packSlot_keeps_slotOk h.pri_ok ho }
  · have hroom := requiredSize_pos (p := p) hsec
    have hlen2 := packSlot_length_le h.sec_ok ho2
    exact { h with
      txbuf_ok := batchFrame_ok hp.n_le (by omega) (by rw [List.length_append]; omega)
      pri_ok := packSlot_keeps_slotOk h.pri_ok ho
      sec_ok := packSlot_keeps_slotOk h.sec_ok ho2 }
  · exact { h with
      txbuf_ok := batchFrame_ok hp.n_le hp.n_pos (packSlot_length_le h.sec_ok ho)
      sec_ok := packSlot_keeps_slotOk h.sec_ok ho }

/-- Everything an instruction can do to a lane keeps it sound. -/
theorem LaneStep.keeps_laneOk {p : Params} {id : Byte} {d : Nat} {l l' : Lane} {i : Instr} (hp : ParamsOk p)
    (h : LaneOk p l) (hs : LaneStep p id d l i l') : LaneOk p l' := by
  cases hs with
  | same => exact h
  | slot sl _ => exact h.withRx (runSlot_ok sl h.rx_ok)
  | frame f _ => exact h.withRx (rxFrame_ok f h.rx_ok)
  | load hop ho => exact h.setOp _ (loadedSlot_ok hop ho)
  | enable b => exact { h with }
  | pack _ ho => exact h.setOp _ (packSlot_keeps_slotOk (h.op_ok _) ho)
  | issue hd => exact packDevice_keeps_laneOk hp h hd
  | send io => exact { h with wire_ok := h.txbuf_ok }
  | receive io draws draw => cases draw <;> exact { h with }
  | reset => exact ⟨trivial, trivial, zeros_frame_ok hp, zeros_frame_ok hp, resetDevice_ok p l.rx⟩

/-! # The invariant: the send loop's place -/

/-- The places of the loop outside its batches: no call is in flight there. -/
theorem SessionOk.of_no_batch {s : State} (hs1 : s.session ≠ .sending) (hs2 : s.session ≠ .awaitingAck)
    (hpc : s.hostPc = .idle ∨ ∃ todo, s.hostPc = .setup todo) : SessionOk s := by
  obtain hpc | ⟨todo, hpc⟩ := hpc <;>
  exact ⟨by simp [hs1, hpc], by simp [hs2, hpc], fun h => absurd h hs2⟩

/-- Before an ISSUE or SEND the loop is `Sending`. -/
theorem SessionOk.of_sending {s : State} (hs : s.session = .sending) (hpc : s.hostPc = .issue ∨ s.hostPc = .send) :
    SessionOk s := by
  obtain hpc | hpc := hpc <;>
  exact ⟨by simp [hs, hpc], by simp [hs, hpc], by simp [hs]⟩

/-- Before a RECEIVE or MATCH it is `AwaitingAck`, with `tz = 0`. -/
theorem SessionOk.of_awaiting {s : State} (hs : s.session = .awaitingAck) (htz : s.tz = false)
    (hpc : s.hostPc = .receive ∨ s.hostPc = .matching) : SessionOk s := by
  obtain hpc | hpc := hpc <;>
  exact ⟨by simp [hs, hpc], by simp [hs, hpc], fun _ => htz⟩

theorem SessionOk.of_same {s t : State} (h : SessionOk s) (hst : SameControl s t) : SessionOk t := by
  obtain ⟨hsession, htz, -, hpc⟩ := hst
  refine ⟨?_, ?_, ?_⟩
  · rw [hsession, hpc]; exact h.sending
  · rw [hsession, hpc]; exact h.awaiting
  · rw [hsession, htz]; exact h.no_tz

theorem failCall_sessionOk (s : State) (e : HostError) : SessionOk (s.failCall e) :=
  .of_no_batch nofun nofun (.inl rfl)

theorem endCall_sessionOk (s : State) : SessionOk s.endCall :=
  .of_no_batch nofun nofun (.inl rfl)

/-- A loop at its ENABLEs and LOADs goes on with them or with the first batch. -/
theorem afterSetup_sessionOk {s : State} (todo : List SetupCmd) (h1 : s.session ≠ .sending) (h2 : s.session ≠ .awaitingAck) :
    SessionOk (afterSetup todo s) := by
  cases todo with
  | nil => exact .of_sending rfl (.inl rfl)
  | cons c todo => exact .of_no_batch h1 h2 (.inr ⟨c :: todo, rfl⟩)

theorem afterSend_sessionOk {s : State} (h : s.session = .sending) : SessionOk (afterSend s) := by
  unfold afterSend
  split_ifs with htz hend
  · exact endCall_sessionOk s
  · exact .of_sending h (.inl rfl)
  · exact .of_awaiting rfl (by simpa using htz) (.inl rfl)

theorem afterMatch_sessionOk {s : State} (timeout : Bool) (h : s.session = .awaitingAck) (htz : s.tz = false) :
    SessionOk (afterMatch timeout s) := by
  unfold afterMatch
  cases s.verdict with
  | fwError c d => exact failCall_sessionOk s _
  | allAcked =>
    dsimp only
    split
    · exact endCall_sessionOk s
    · exact .of_sending rfl (.inl rfl)
  | pending =>
    dsimp only
    split
    · exact failCall_sessionOk s _
    · exact .of_awaiting h htz (.inl rfl)

/-- What the loop does after a command changes neither a parameter nor a lane. -/
theorem afterSend_frame (s : State) : (afterSend s).params = s.params ∧ (afterSend s).lanes = s.lanes := by
  unfold afterSend
  split_ifs <;> exact ⟨rfl, rfl⟩

theorem afterMatch_frame (timeout : Bool) (s : State) :
    (afterMatch timeout s).params = s.params ∧ (afterMatch timeout s).lanes = s.lanes := by
  unfold afterMatch
  cases s.verdict with
  | fwError c d => exact ⟨rfl, rfl⟩
  | allAcked => dsimp only; split <;> exact ⟨rfl, rfl⟩
  | pending => dsimp only; split <;> exact ⟨rfl, rfl⟩

/-- Every completed instruction keeps the loop's place in agreement with `SESSION`: only RESET and a call's start move either. -/
theorem exec_keeps_sessionOk {i : Instr} {s t : State} (h : SessionOk s) (ht : exec i s = .next t) : SessionOk t := by
  obtain hsame | rfl | ⟨calls, timeout, rfl⟩ := (exec_instrStep ht).control
  · exact h.of_same hsame
  · cases (execReset_eq s).symm.trans ht
    exact .of_no_batch nofun nofun (.inl rfl)
  · obtain ⟨hrun, -, -, ⟨-, rfl⟩ | ⟨-, rfl⟩⟩ := execSendDatagram_next.mp ht
    · exact failCall_sessionOk s _
    · obtain ⟨h1, h2, -⟩ := State.callRunning_eq_false.mp hrun
      exact (afterSetup_sessionOk (s := { s with tz := timeout == 0 }) _ h1 h2).of_same ⟨rfl, rfl, rfl, rfl⟩

/-! # The invariant: every step -/

/-- The parameters and the lanes decide all of the invariant but the loop's place. -/
theorem Inv.of_same_lanes {s t : State} (h : Inv s) (hp : t.params = s.params) (hl : t.lanes = s.lanes)
    (hs : SessionOk t) : Inv t where
  params_ok := by rw [hp]; exact h.params_ok
  devices := by rw [hl]; exact h.devices
  lanes_ok := by rw [hp, hl]; exact h.lanes_ok
  session_ok := hs

/-- Every completed instruction keeps the invariant, lane by lane. -/
theorem exec_keeps_inv {i : Instr} {s t : State} (h : Inv s) (ht : exec i s = .next t) : Inv t := by
  have hstep := exec_instrStep ht
  refine ⟨hstep.params_eq ▸ h.params_ok, hstep.length_eq ▸ h.devices, fun l' hl' => ?_, exec_keeps_sessionOk h.session_ok ht⟩
  obtain ⟨d, hd, rfl⟩ := List.mem_iff_getElem.mp hl'
  have hd0 : d < s.lanes.length := hstep.length_eq ▸ hd
  rw [hstep.params_eq]
  exact (hstep.lane d _ _ (List.getElem?_eq_getElem hd0) (List.getElem?_eq_getElem hd)).keeps_laneOk h.params_ok
    (h.lanes_ok _ (List.getElem_mem hd0))

/-- A command of the loop keeps the invariant when the loop goes on soundly after it: a command the loop gives leaves `SESSION`, `tz`
and the loop's place as they were, and its error ends the call. -/
theorem thenLoop_keeps_inv {i : Instr} {s t : State} {k : State → State} (h : Inv s)
    (hi : i ≠ .reset ∧ ∀ calls timeout, i ≠ .sendDatagram calls timeout) (ht : thenLoop (exec i s) k = .next t)
    (hframe : ∀ u, (k u).params = u.params ∧ (k u).lanes = u.lanes) (hk : ∀ u, SameControl s u → SessionOk (k u)) : Inv t := by
  obtain ⟨u, hu, ⟨e, -, rfl⟩ | ⟨-, rfl⟩⟩ := thenLoop_next.mp ht
  · exact (exec_keeps_inv h hu).of_same_lanes rfl rfl (failCall_sessionOk u e)
  · obtain hsame | hreset | ⟨calls, timeout, hcall⟩ := (exec_instrStep hu).control
    · exact (exec_keeps_inv h hu).of_same_lanes (hframe u).1 (hframe u).2 (hk u hsame)
    · exact absurd hreset hi.1
    · exact absurd hcall (hi.2 calls timeout)

/-- The instruction an ENABLE or LOAD of the loop is (spec/44_host_session.md R262). -/
theorem SetupCmd.run_eq_exec (c : SetupCmd) (s : State) :
    ∃ i : Instr, c.run s = exec i s ∧ i ≠ .reset ∧ ∀ calls timeout, i ≠ .sendDatagram calls timeout := by
  cases c with
  | enable d b => exact ⟨.enable d b, rfl, nofun, nofun⟩
  | load d k op => exact ⟨.load d k op, rfl, nofun, nofun⟩

/-- The loop's own turns keep the invariant, whatever their draws are. -/
theorem hostTurn_keeps_inv {w : HostDraw} {s t : State} (h : Inv s) (ht : hostTurn w s = .next t) : Inv t := by
  have hsession := h.session_ok
  cases hpc : s.hostPc with
  | idle =>
    rw [hostTurn_idle hpc] at ht
    cases ht
    exact h
  | setup todo =>
    have h1 : s.session ≠ .sending := fun hs => by simpa [hpc] using hsession.sending.mp hs
    have h2 : s.session ≠ .awaitingAck := fun hs => by simpa [hpc] using hsession.awaiting.mp hs
    cases todo with
    | nil =>
      simp only [hostTurn, hpc] at ht
      cases ht
      exact h.of_same_lanes rfl rfl (afterSetup_sessionOk [] h1 h2)
    | cons c todo =>
      obtain ⟨i, hrun, hi⟩ := c.run_eq_exec s
      rw [hostTurn_setup hpc, hrun] at ht
      exact thenLoop_keeps_inv h hi ht (fun u => ⟨afterSetup_params todo u, afterSetup_lanes todo u⟩) fun u hu =>
        afterSetup_sessionOk todo (hu.session_eq ▸ h1) (hu.session_eq ▸ h2)
  | issue =>
    rw [hostTurn_issue hpc] at ht
    exact thenLoop_keeps_inv (i := .issue) h ⟨nofun, nofun⟩ ht (fun _ => ⟨rfl, rfl⟩) fun u hu =>
      .of_sending (hu.session_eq.trans (hsession.sending.mpr (.inl hpc))) (.inr rfl)
  | send =>
    rw [hostTurn_send hpc] at ht
    exact thenLoop_keeps_inv (i := .send w.io) h ⟨nofun, nofun⟩ ht afterSend_frame fun u hu =>
      afterSend_sessionOk (hu.session_eq.trans (hsession.sending.mpr (.inr hpc)))
  | receive =>
    have haw := hsession.awaiting.mpr (.inl hpc)
    rw [hostTurn_receive hpc] at ht
    exact thenLoop_keeps_inv (i := .receive w.io w.rx) h ⟨nofun, nofun⟩ ht (fun _ => ⟨rfl, rfl⟩) fun u hu =>
      .of_awaiting (hu.session_eq.trans haw) (hu.tz_eq.trans (hsession.no_tz haw)) (.inr rfl)
  | matching =>
    have haw := hsession.awaiting.mpr (.inr hpc)
    rw [hostTurn_matching hpc] at ht
    exact thenLoop_keeps_inv (i := .matchAcks) h ⟨nofun, nofun⟩ ht (afterMatch_frame w.timeout) fun u hu =>
      afterMatch_sessionOk w.timeout (hu.session_eq.trans haw) (hu.tz_eq.trans (hsession.no_tz haw))

/-- RESET_HOST alone (spec/70_reset_and_hazards.md R310). -/
theorem resetHost_keeps_inv {s : State} (h : Inv s) : Inv (resetHost s) := by
  refine ⟨h.params_ok, by simpa [resetHost] using h.devices, fun l' hl' => ?_, .of_no_batch nofun nofun (.inl rfl)⟩
  obtain ⟨l, hl, rfl⟩ := List.mem_map.mp hl'
  have hok := h.lanes_ok l hl
  exact ⟨trivial, trivial, zeros_frame_ok h.params_ok, hok.wire_ok, hok.rx_ok⟩

/-- RESET_DEV alone (spec/70_reset_and_hazards.md R323). -/
theorem resetDev_keeps_inv {d : Nat} {s t : State} (h : Inv s) (ht : resetDev d s = .next t) : Inv t := by
  obtain ⟨l, hl, ht⟩ := onLane_next.mp ht
  cases ht
  refine ⟨h.params_ok, by simpa using h.devices, fun m hm => ?_, h.session_ok.of_same ⟨rfl, rfl, rfl, rfl⟩⟩
  obtain hm | rfl := List.mem_or_eq_of_mem_set hm
  · exact h.lanes_ok m hm
  · exact (h.lanes_ok l (List.mem_of_getElem? hl)).withRx (resetDevice_ok s.params l.rx)

/-- Every turn keeps the invariant. -/
theorem runTurn_keeps_inv {turn : Turn} {s t : State} (h : Inv s) (ht : runTurn turn s = .next t) : Inv t := by
  cases turn with
  | cmd i => exact exec_keeps_inv h ht
  | parse d =>
    obtain ⟨l, -, ht⟩ := onLane_next.mp ht
    exact exec_keeps_inv h ht
  | host w => exact hostTurn_keeps_inv h ht
  | linkOpen | linkClose =>
    cases ht
    exact h.of_same_lanes rfl rfl (h.session_ok.of_same ⟨rfl, rfl, rfl, rfl⟩)
  | resetHost =>
    cases ht
    exact resetHost_keeps_inv h
  | resetDev d => exact resetDev_keeps_inv h ht

/-- Settles O55: a step plays one turn on the state whose queue has moved past it, and the queue is no part of the invariant. -/
theorem everyStepKeepsTheInvariant : Obligations.EveryStepKeepsTheInvariant := by
  intro s t h ht
  cases hq : s.queue with
  | nil =>
    rw [step, nextTurn, hq] at ht
    cases ht
    exact h
  | cons turn rest =>
    rw [step_cons hq] at ht
    have hmoved : Inv { s with queue := rest } := h.of_same_lanes rfl rfl (h.session_ok.of_same ⟨rfl, rfl, rfl, rfl⟩)
    exact runTurn_keeps_inv hmoved ht

end Sys2Proof.Machine

namespace Sys2Proof.Machine

open Sys2Proof

/-! # SEND and RECEIVE (spec/20_memory.md R65, R67) -/

/-- A closed link is judged before the I/O draw. -/
theorem linkError_closed {s : State} (io : Bool) (h : s.linkOpen = false) : s.linkError io = some .linkNotOpen := by
  simp [State.linkError, h]

theorem linkError_io {s : State} {io : Bool} (h : s.linkOpen = true) (hio : io = true) : s.linkError io = some .linkIo := by
  simp [State.linkError, h, hio]

/-- Settles O47, from SEND's next states and the order of the link's errors. -/
theorem sendCopiesEveryFrame : Obligations.SendCopiesEveryFrame := by
  intro s io
  refine ⟨fun hclosed => ?_, fun hopen hio => ?_, fun hopen hio => ?_⟩
  · exact execSend_next.mpr (.inl ⟨_, linkError_closed io hclosed, rfl⟩)
  · exact execSend_next.mpr (.inl ⟨_, linkError_io hopen hio, rfl⟩)
  · exact ⟨_, execSend_next.mpr (.inr ⟨linkError_none.mpr ⟨hopen, hio⟩, rfl⟩), by simp, fun d l hl => by simp [hl]⟩

/-- A device's lane after a RECEIVE is its own draw applied to its own lane. -/
theorem receiveLanes_getElem? {draws : List RxDraw} {ls : List Lane} {d : Nat} {w : RxDraw} {l : Lane}
    (hw : draws[d]? = some w) (hl : ls[d]? = some l) :
    (List.zipWith receiveLane draws ls)[d]? = some (receiveLane w l) :=
  List.getElem?_zipWith_eq_some.mpr ⟨w, l, hw, hl, rfl⟩

/-- Settles O48: the link's errors as for SEND, then `receiveLane` of each device's draw. -/
theorem receiveSamplesEachDevice : Obligations.ReceiveSamplesEachDevice := by
  intro s io draws hlen
  refine ⟨fun hclosed => ?_, fun hopen hio => ?_, fun hopen hio => ?_⟩
  · exact execReceive_next.mpr ⟨hlen, .inl ⟨_, linkError_closed io hclosed, rfl⟩⟩
  · exact execReceive_next.mpr ⟨hlen, .inl ⟨_, linkError_io hopen hio, rfl⟩⟩
  · refine ⟨_, execReceive_next.mpr ⟨hlen, .inr ⟨linkError_none.mpr ⟨hopen, hio⟩, rfl⟩⟩, by simp [hlen], fun d l hl => ?_⟩
    exact ⟨fun hw => receiveLanes_getElem? hw hl, fun b0 b1 hw => receiveLanes_getElem? hw hl⟩

/-! # One processing of a frame (spec/20_memory.md R66, spec/42_frame_deserializer.md R200) -/

/-- A frame's bytes, the slot-two offset little-endian (spec/30_encoding.md R90). -/
theorem encodeFrame_eq (f : Frame) :
    encodeFrame f = [f.msgId, f.resv, BitVec.ofNat 8 (f.offset.toNat % 256), BitVec.ofNat 8 (f.offset.toNat / 256)]
      ++ f.payload := by
  have hlow : BitVec.ofNat 8 (f.offset.toNat % 256) = BitVec.ofNat 8 f.offset.toNat := by
    apply BitVec.eq_of_toNat_eq
    simp
  rw [hlow]
  rfl

/-- A frame's bytes are read back as its fields (spec/30_encoding.md R90). -/
theorem decodeFrame_encodeFrame (f : Frame) : decodeFrame (encodeFrame f) = some f := by
  have hlen : ¬ (encodeFrame f).length < 4 := by simp [encodeFrame]
  have hid : memRead (encodeFrame f) 0 1 = f.msgId.toNat := memRead_one _ _ _ rfl
  have hresv : memRead (encodeFrame f) 1 1 = f.resv.toNat := memRead_one _ _ _ rfl
  have hfield : leNat (leBytes 2 f.offset.toNat) = f.offset.toNat :=
    (leNat_leBytes 2 _).trans (Nat.mod_eq_of_lt f.offset.isLt)
  have hoff : memRead (encodeFrame f) 2 2 = f.offset.toNat :=
    (memRead_middle [f.msgId, f.resv] (leBytes 2 f.offset.toNat) f.payload).trans hfield
  have hpay : (encodeFrame f).drop 4 = f.payload := rfl
  rw [decodeFrame, if_neg hlen, hid, hresv, hoff, hpay]
  simp

/-- Settles O29: each of the three runs `rxFrame` on the fields of the frame it is given. -/
theorem deliverDevRxAndFrameAgree : Obligations.DeliverDevRxAndFrameAgree := by
  intro s d l hl
  refine ⟨fun hwire => ?_, fun f hpay => ?_⟩
  · obtain ⟨f, hf, -⟩ := decodeFrame_some (B := l.wire) (by omega)
    have hdeliver := execDeliver_next.mpr ⟨l, f, hl, hf, rfl⟩
    have hdevRx := execDevRx_next.mpr ⟨hwire, l, f, hl, hf, rfl⟩
    exact ⟨hdeliver.trans hdevRx.symm, _, hdeliver⟩
  · have hframe := execFrame_next.mpr ⟨hpay, l, hl, rfl⟩
    have hlen : (encodeFrame f).length = 4 + s.params.n := by simp [encodeFrame, hpay]; omega
    have hdevRx := execDevRx_next.mpr ⟨hlen, l, f, hl, decodeFrame_encodeFrame f, rfl⟩
    rw [← encodeFrame_eq]
    exact ⟨hframe.trans hdevRx.symm, _, hframe⟩

/-! # The duplicate filter (spec/20_memory.md R68, spec/42_frame_deserializer.md R201) -/

theorem rxFrame_of_duplicate {p : Params} {f : Frame} {dev : Device} (h : f.msgId = dev.ack.id) : rxFrame p f dev = dev :=
  if_pos h

/-- After a frame, new or not, the device's last id is the frame's. -/
theorem rxFrame_ack_id (p : Params) (f : Frame) (dev : Device) : (rxFrame p f dev).ack.id = f.msgId := by
  obtain ⟨hdup, h⟩ | ⟨-, -, -, h⟩ | ⟨-, -, h⟩ := rxFrame_cases p f dev
  · rw [h, hdup]
  · rw [h]
  · rw [h]

/-- So the frame's second processing is that of a duplicate. -/
theorem rxFrame_rxFrame (p : Params) (f : Frame) (dev : Device) : rxFrame p f (rxFrame p f dev) = rxFrame p f dev :=
  rxFrame_of_duplicate (rxFrame_ack_id p f dev).symm

/-- Settles O30: DELIVER leaves the wire as it was, so the second one processes the same frame. -/
theorem repeatedDeliveryIsHarmless : Obligations.RepeatedDeliveryIsHarmless := by
  intro s t d ht
  obtain ⟨l, f, hl, hf, rfl⟩ := execDeliver_next.mp ht
  refine execDeliver_next.mpr ⟨_, f, withLane_getElem? s d _ l _ hl, hf, ?_⟩
  rw [withLane_params, rxFrame_rxFrame, withLane_withLane]

/-! # The device's fetch (spec/42_frame_deserializer.md R200, R206, R225, R229) -/

/-- A new frame with no slot two: its whole payload is slot one, and its id is acknowledged with slot one's error. -/
theorem rxFrame_of_wholePayload (p : Params) {f : Frame} {dev : Device} (hnew : f.msgId ≠ dev.ack.id) (h0 : f.offset = 0) :
    rxFrame p f dev = { (rxSlot p f.payload dev).1 with ack := ⟨f.msgId, (rxSlot p f.payload dev).2⟩ } := by
  simp [rxFrame, rxSlots, hnew, h0]

theorem rxSlot_of_decode {p : Params} {B : List Byte} {sl : Slot} (h : decodeSlot p.atomicTags B = .ok sl) (dev : Device) :
    rxSlot p B dev = runSlot p sl dev := by
  rw [rxSlot, h]

/-- Bytes are an instruction exactly when they are a slot that is one. -/
theorem decodeInstr_some {tags : List Byte} {d : Nat} {B : List Byte} {i : Instr} :
    decodeInstr tags d B = some i ↔ ∃ sl, decodeSlot tags B = .ok sl ∧ sl.toInstr d = some i := by
  unfold decodeInstr
  cases decodeSlot tags B <;> simp

theorem decodeSlot_atomic {tags : List Byte} {tag : Byte} (body : List Byte) (hmem : tag ∈ tags) (h0 : tag ≠ tagNone) :
    decodeSlot tags (tag :: body) = .ok (.atomic tag body) := by
  rw [decodeSlot, if_neg h0, if_pos hmem]

theorem runSlot_atomic {p : Params} {tag : Byte} (body : List Byte) (dev : Device) (hmem : tag ∈ p.atomicTags) :
    runSlot p (.atomic tag body) dev = (consumedDevice dev tag body, (dev.consumer.consume tag body).1.toByte) := by
  obtain ⟨-, h⟩ | ⟨hnot, -⟩ := slotAtomic_cases p tag body dev
  · exact h
  · exact absurd hmem hnot

/-- A delivery step of a new frame whose whole payload is the slot `sl` runs `sl` on the device and acknowledges its error. -/
theorem step_deliver_wholePayload {s : State} {d : Nat} {rest : List Turn} {l : Lane} {f : Frame} {sl : Slot}
    (hq : s.queue = .cmd (.deliver d) :: rest) (hl : s.lanes[d]? = some l) (hf : decodeFrame l.wire = some f)
    (hnew : f.msgId ≠ l.rx.ack.id) (h0 : f.offset = 0) (hsl : decodeSlot s.params.atomicTags f.payload = .ok sl) :
    step s = .next (withLane { s with queue := rest } d { l with rx :=
      { (runSlot s.params sl l.rx).1 with ack := ⟨f.msgId, (runSlot s.params sl l.rx).2⟩ } } .ok) := by
  rw [step_cons hq]
  refine execDeliver_next.mpr ⟨l, f, hl, hf, ?_⟩
  rw [rxFrame_of_wholePayload _ hnew h0, rxSlot_of_decode hsl]

/-- Settles O10: a delivery step runs the decoded slot, which is what the instruction does (`exec_of_toInstr`) and, for a tag
of `ATOMIC_TAGS`, the consumer. -/
theorem stepRunsTheDecodedSlot : Obligations.StepRunsTheDecodedSlot := by
  intro s d rest l f hq hl hf hnew h0
  refine ⟨fun i hi => ?_, fun tag body hpay hmem htag => ?_⟩
  · obtain ⟨sl, hsl, hinstr⟩ := decodeInstr_some.mp hi
    have hexec := exec_of_toInstr { s with queue := rest } hinstr
    refine ⟨_, _, _, hexec.trans (onDevice_next.mpr ⟨l, hl, rfl⟩), withLane_getElem? _ d _ l _ hl, rfl, ?_⟩
    rw [step_deliver_wholePayload hq hl hf hnew h0 hsl, withLane_withLane]
  · have hsl : decodeSlot s.params.atomicTags f.payload = .ok (.atomic tag body) :=
      hpay ▸ decodeSlot_atomic body hmem htag
    rw [step_deliver_wholePayload hq hl hf hnew h0 hsl, runSlot_atomic body l.rx hmem]

end Sys2Proof.Machine

namespace Sys2Proof.Machine

open Sys2Proof

/-! # Little-endian fields of a byte string (spec/20_memory.md R61)

`ofNat_memRead_field` reads a written field back, `field_append_drop` writes a read field back. Both are for a field of any
width `w` of whole bytes, so that every header is taken apart field by field. -/

theorem two_pow_bits {n w : Nat} (hw : w = 8 * n) : 2 ^ w = 256 ^ n := by
  rw [hw, Nat.pow_mul]

/-- A read of `n` bytes fits in a word of `n` bytes. -/
theorem toNat_ofNat_memRead (B : List Byte) (a : Nat) {n w : Nat} (hw : w = 8 * n) :
    (BitVec.ofNat w (memRead B a n)).toNat = memRead B a n := by
  have hlt : memRead B a n < 256 ^ n :=
    (leNat_lt _).trans_le (Nat.pow_le_pow_right (by decide) (List.length_take_le _ _))
  rw [BitVec.toNat_ofNat, two_pow_bits hw, Nat.mod_eq_of_lt hlt]

/-- A field that stands at `a` is read back. -/
theorem ofNat_memRead_field {B T : List Byte} {a n w : Nat} {x : BitVec w} (hw : w = 8 * n)
    (h : B.drop a = leBytes n x.toNat ++ T) : BitVec.ofNat w (memRead B a n) = x := by
  have hx : x.toNat < 256 ^ n := two_pow_bits hw ▸ x.isLt
  have htake : (leBytes n x.toNat ++ T).take n = leBytes n x.toNat := List.take_left' (leBytes_length _ _)
  rw [memRead, h, htake, leNat_leBytes, Nat.mod_eq_of_lt hx, BitVec.ofNat_toNat, BitVec.setWidth_eq]

/-- A byte that stands at `a` is read back. -/
theorem ofNat_memRead_byte {B : List Byte} {a : Nat} {b : Byte} (h : B[a]? = some b) :
    BitVec.ofNat 8 (memRead B a 1) = b := by
  rw [memRead_one B a b h, BitVec.ofNat_toNat, BitVec.setWidth_eq]

/-- A field read at `a`, written out before the bytes that follow it, gives the bytes from `a` on. -/
theorem field_append_drop {B : List Byte} {a n w : Nat} (hw : w = 8 * n) (h : a + n ≤ B.length) :
    leBytes n (BitVec.ofNat w (memRead B a n)).toNat ++ B.drop (a + n) = B.drop a := by
  have hlen : ((B.drop a).take n).length = n := by
    rw [List.length_take, List.length_drop]
    omega
  have hbytes : leBytes n (memRead B a n) = (B.drop a).take n := by
    have := leBytes_leNat ((B.drop a).take n)
    rwa [hlen] at this
  rw [toNat_ofNat_memRead B a hw, hbytes, ← List.drop_drop, List.take_append_drop]

/-- The same for a byte. -/
theorem byte_cons_drop {B : List Byte} {a : Nat} (h : a + 1 ≤ B.length) :
    BitVec.ofNat 8 (memRead B a 1) :: B.drop (a + 1) = B.drop a := by
  have ha : a < B.length := h
  rw [List.drop_eq_getElem_cons ha, ofNat_memRead_byte (List.getElem?_eq_getElem ha)]

/-! # Headers written and read back (spec/30_encoding.md R100, R104, R106) -/

theorem readModFirst_encodeSlot (h : ModFirst) (tail : List Byte) :
    readModFirst (encodeSlot (.modFirst h tail)) h.flags = .modFirst h tail := by
  have hsize : BitVec.ofNat 8 (memRead (encodeSlot (.modFirst h tail)) 2 1) = h.size := ofNat_memRead_byte rfl
  have hcode : BitVec.ofNat 8 (memRead (encodeSlot (.modFirst h tail)) 3 1) = h.modeCode := ofNat_memRead_byte rfl
  have hfreq : BitVec.ofNat 16 (memRead (encodeSlot (.modFirst h tail)) 4 2) = h.freqDiv := ofNat_memRead_field rfl rfl
  have hrep : BitVec.ofNat 16 (memRead (encodeSlot (.modFirst h tail)) 6 2) = h.rep := ofNat_memRead_field rfl rfl
  have hvalue : BitVec.ofNat 64 (memRead (encodeSlot (.modFirst h tail)) 8 8) = h.value := ofNat_memRead_field rfl rfl
  have htail : (encodeSlot (.modFirst h tail)).drop 16 = tail := rfl
  rw [readModFirst, hsize, hcode, hfreq, hrep, hvalue, htail]

theorem readFociFirst_encodeSlot (h : FociFirst) (tail : List Byte) :
    readFociFirst (encodeSlot (.fociFirst h tail)) h.flags = .fociFirst h tail := by
  have hsize : BitVec.ofNat 8 (memRead (encodeSlot (.fociFirst h tail)) 2 1) = h.size := ofNat_memRead_byte rfl
  have hcode : BitVec.ofNat 8 (memRead (encodeSlot (.fociFirst h tail)) 3 1) = h.modeCode := ofNat_memRead_byte rfl
  have hfreq : BitVec.ofNat 16 (memRead (encodeSlot (.fociFirst h tail)) 4 2) = h.freqDiv := ofNat_memRead_field rfl rfl
  have hresv : BitVec.ofNat 16 (memRead (encodeSlot (.fociFirst h tail)) 6 2) = h.resv := ofNat_memRead_field rfl rfl
  have hsound : BitVec.ofNat 32 (memRead (encodeSlot (.fociFirst h tail)) 8 4) = h.soundSpeed := ofNat_memRead_field rfl rfl
  have hrep : BitVec.ofNat 32 (memRead (encodeSlot (.fociFirst h tail)) 12 4) = h.rep := ofNat_memRead_field rfl rfl
  have hvalue : BitVec.ofNat 64 (memRead (encodeSlot (.fociFirst h tail)) 16 8) = h.value := ofNat_memRead_field rfl rfl
  have htail : (encodeSlot (.fociFirst h tail)).drop 24 = tail := rfl
  rw [readFociFirst, hsize, hcode, hfreq, hresv, hsound, hrep, hvalue, htail]

/-- The same for a continuation of either kind, whose header is read with no regard to its tag (R106). -/
theorem readCont_encoded (tag fl : Byte) (h : Cont) (tail : List Byte) :
    readCont (tag :: fl :: (leBytes 2 h.size.toNat ++ tail)) h.flags = h := by
  have hsize : BitVec.ofNat 16 (memRead (tag :: fl :: (leBytes 2 h.size.toNat ++ tail)) 2 2) = h.size :=
    ofNat_memRead_field rfl rfl
  rw [readCont, hsize]

/-! # A slot decoded from its encoding (spec/30_encoding.md R96 to R110) -/

/-- A streaming tag that is in no other class leaves its slot to the kind's fragment decoder. -/
theorem decodeSlot_streamTag {tags : List Byte} {k : Kind} (rest : List Byte) (htag : k.tag ∉ tags) :
    decodeSlot tags (k.tag :: rest) = decodeFragment k (k.tag :: rest) := by
  have hnone : k.tag ≠ tagNone := by cases k <;> decide
  rw [decodeSlot, if_neg hnone, if_neg htag]
  cases k with
  | mod => exact if_pos rfl
  | foci => exact (if_neg (by decide)).trans (if_pos rfl)

/-- With a flags byte, the `BEGIN` bit chooses the form, and the header of that form must fit. -/
theorem decodeFragment_cons_cons (k : Kind) (tag fl : Byte) (rest : List Byte) :
    decodeFragment k (tag :: fl :: rest) =
      if (tag :: fl :: rest).length < k.header (beginOf fl) then .error (.shortHeader k (beginOf fl) (flagsOf fl))
      else .ok (readFragment k (beginOf fl) (tag :: fl :: rest) (flagsOf fl)) := by
  have htwo : ¬ (tag :: fl :: rest).length < 2 := by simp
  have hfl : BitVec.ofNat 8 (memRead (tag :: fl :: rest) 1 1) = fl := ofNat_memRead_byte rfl
  simp only [decodeFragment, if_neg htwo, hfl]

/-- A fragment of a streaming kind, at least as long as the header of its form, decodes to the slot its form is read as. -/
theorem decodeSlot_fragment {tags : List Byte} {k : Kind} {first : Bool} {f : FragFlags} {rest : List Byte} {s : Slot}
    (htag : k.tag ∉ tags) (hlen : k.header first ≤ (k.tag :: f.toByte first :: rest).length)
    (hread : readFragment k first (k.tag :: f.toByte first :: rest) f = s) :
    decodeSlot tags (k.tag :: f.toByte first :: rest) = .ok s := by
  rw [decodeSlot_streamTag _ htag, decodeFragment_cons_cons, beginOf_toByte, flagsOf_toByte, if_neg (Nat.not_lt.mpr hlen), hread]

/-- Settles O1: a streaming slot is read in the form its flags byte names, its header field by field. -/
theorem slotDecodeOfEncode : Obligations.SlotDecodeOfEncode := by
  intro tags s hnone hmod hfoci hatomic
  cases s with
  | empty rest => rfl
  | atomic tag body =>
    have hmem := hatomic tag body rfl
    exact decodeSlot_atomic body hmem fun h0 => hnone (by rwa [h0] at hmem)
  | modFirst h tail =>
    exact decodeSlot_fragment (k := .mod) hmod (Nat.le_add_left _ tail.length) (readModFirst_encodeSlot h tail)
  | fociFirst h tail =>
    exact decodeSlot_fragment (k := .foci) hfoci (Nat.le_add_left _ tail.length) (readFociFirst_encodeSlot h tail)
  | modCont h tail =>
    have hread := congrArg (Slot.modCont · tail) (readCont_encoded tagMod (h.flags.toByte false) h tail)
    exact decodeSlot_fragment (k := .mod) hmod (Nat.le_add_left _ tail.length) hread
  | fociCont h tail =>
    have hread := congrArg (Slot.fociCont · tail) (readCont_encoded tagFoci (h.flags.toByte false) h tail)
    exact decodeSlot_fragment (k := .foci) hfoci (Nat.le_add_left _ tail.length) hread

/-! # A slot encoded from its decoding -/

/-- What the fragment decoder read: the flags byte is that of the form it chose, and the form's header fits. -/
theorem decodeFragment_ok {k : Kind} {tag : Byte} {rest : List Byte} {s : Slot}
    (h : decodeFragment k (tag :: rest) = .ok s) :
    ∃ first f rest', rest = f.toByte first :: rest' ∧ k.header first ≤ (tag :: rest).length ∧
      s = readFragment k first (tag :: rest) f := by
  cases rest with
  | nil => exact nomatch h
  | cons fl rest' =>
    rw [decodeFragment_cons_cons] at h
    split_ifs at h with hshort
    exact ⟨beginOf fl, flagsOf fl, rest', by rw [toByte_flagsOf], Nat.not_lt.mp hshort, (Except.ok.inj h).symm⟩

/-- What the slot decoder read: an empty slot, an ATOMIC slot, or a fragment. -/
theorem decodeSlot_ok {tags B : List Byte} {s : Slot} (h : decodeSlot tags B = .ok s) :
    (∃ rest, B = tagNone :: rest ∧ s = .empty rest) ∨ (∃ tag body, B = tag :: body ∧ tag ∈ tags ∧ s = .atomic tag body) ∨
    (∃ k first f rest, B = k.tag :: FragFlags.toByte first f :: rest ∧ Kind.header k first ≤ B.length ∧
      s = readFragment k first B f) := by
  cases B with
  | nil => exact nomatch h
  | cons tag rest =>
    rw [decodeSlot] at h
    split_ifs at h with hnone hmem hmod hfoci
    · exact .inl ⟨rest, by rw [hnone], (Except.ok.inj h).symm⟩
    · exact .inr (.inl ⟨tag, rest, rfl, hmem, (Except.ok.inj h).symm⟩)
    · obtain ⟨first, f, rest', hrest, hlen, hs⟩ := decodeFragment_ok h
      exact .inr (.inr ⟨.mod, first, f, rest', by rw [hmod, hrest]; rfl, hlen, hs⟩)
    · obtain ⟨first, f, rest', hrest, hlen, hs⟩ := decodeFragment_ok h
      exact .inr (.inr ⟨.foci, first, f, rest', by rw [hfoci, hrest]; rfl, hlen, hs⟩)

theorem encodeSlot_readModFirst {B rest : List Byte} {f : FragFlags} (hB : B = tagMod :: f.toByte true :: rest)
    (hlen : 16 ≤ B.length) : encodeSlot (readModFirst B f) = B := by
  simp only [readModFirst, encodeSlot, List.append_assoc, List.cons_append, List.nil_append]
  rw [field_append_drop (a := 8) rfl hlen, field_append_drop (a := 6) rfl (by omega), field_append_drop (a := 4) rfl (by omega),
    byte_cons_drop (by omega), byte_cons_drop (by omega), hB]
  rfl

theorem encodeSlot_readFociFirst {B rest : List Byte} {f : FragFlags} (hB : B = tagFoci :: f.toByte true :: rest)
    (hlen : 24 ≤ B.length) : encodeSlot (readFociFirst B f) = B := by
  simp only [readFociFirst, encodeSlot, List.append_assoc, List.cons_append, List.nil_append]
  rw [field_append_drop (a := 16) rfl hlen, field_append_drop (a := 12) rfl (by omega),
    field_append_drop (a := 8) rfl (by omega), field_append_drop (a := 6) rfl (by omega),
    field_append_drop (a := 4) rfl (by omega), byte_cons_drop (by omega), byte_cons_drop (by omega), hB]
  rfl

/-- The size field and the tail of a continuation are all its bytes after the flags byte. -/
theorem readCont_append_drop {B : List Byte} (f : FragFlags) (hlen : 4 ≤ B.length) :
    leBytes 2 (readCont B f).size.toNat ++ B.drop 4 = B.drop 2 :=
  field_append_drop (a := 2) rfl hlen

theorem encodeSlot_readFragment {B rest : List Byte} {k : Kind} {first : Bool} {f : FragFlags}
    (hB : B = k.tag :: f.toByte first :: rest) (hlen : k.header first ≤ B.length) :
    encodeSlot (readFragment k first B f) = B := by
  cases k <;> cases first
  case mod.true => exact encodeSlot_readModFirst hB hlen
  case foci.true => exact encodeSlot_readFociFirst hB hlen
  all_goals
    simp only [readFragment, encodeSlot, List.append_assoc]
    rw [readCont_append_drop f hlen, hB]
    rfl

/-- Settles O2: each kind of slot the decoder reads is written back as the bytes it was read from. -/
theorem slotEncodeOfDecode : Obligations.SlotEncodeOfDecode := by
  intro tags B s h
  obtain ⟨rest, rfl, rfl⟩ | ⟨tag, body, rfl, -, rfl⟩ | ⟨k, first, f, rest, hB, hlen, rfl⟩ := decodeSlot_ok h
  · rfl
  · rfl
  · exact encodeSlot_readFragment hB hlen

/-! # Instructions (spec/30_encoding.md R96, R115) -/

/-- A slot's instruction has the bytes of the slot. -/
theorem encode_of_toInstr {s : Slot} {d : Nat} {i : Instr} (h : s.toInstr d = some i) : encode i = some (encodeSlot s) := by
  cases s with
  | atomic tag body =>
    simp only [Slot.toInstr] at h
    split_ifs at h <;> cases h <;> subst tag <;> rfl
  | _ => cases h; rfl

/-- An ATOMIC slot that is an instruction has one of the tags of the opcode table. -/
theorem tag_mem_of_toInstr {tag : Byte} {body : List Byte} {d : Nat} {i : Instr}
    (h : (Slot.atomic tag body).toInstr d = some i) : tag ∈ ([0x11, 0x30, 0x31, 0x42, 0x60] : List Byte) := by
  simp only [Slot.toInstr] at h
  split_ifs at h <;> subst tag <;> decide

/-- Settles O4: the instruction's bytes are its slot's, which decode to the slot (O1). -/
theorem instrDecodeOfEncode : Obligations.InstrDecodeOfEncode := by
  intro tags i d s B hnone hmod hfoci hdefault hi hB
  obtain rfl : encodeSlot s = B := Option.some.inj ((encode_of_toInstr hi).symm.trans hB)
  have hatomic : ∀ tag body, s = .atomic tag body → tag ∈ tags := by
    rintro tag body rfl
    exact hdefault tag (tag_mem_of_toInstr hi)
  exact decodeInstr_some.mpr ⟨s, slotDecodeOfEncode tags s hnone hmod hfoci hatomic, hi⟩

/-- Settles O6: the decoder evaluated on each word. -/
theorem wordsOfTheTablesDecode : Obligations.WordsOfTheTablesDecode := by
  refine ⟨?_, ?_, ?_, ?_, ?_, ?_⟩ <;> decide

/-! # Frames and acknowledgement records (spec/30_encoding.md R90, R112) -/

/-- A frame's fields are written back as the bytes they were read from. -/
theorem encodeFrame_of_decodeFrame {B : List Byte} {f : Frame} (h : decodeFrame B = some f) : encodeFrame f = B := by
  rw [decodeFrame] at h
  split_ifs at h with hshort
  have hlen : 4 ≤ B.length := Nat.not_lt.mp hshort
  cases h
  simp only [encodeFrame, List.cons_append, List.nil_append]
  rw [field_append_drop (a := 2) rfl hlen, byte_cons_drop (by omega), byte_cons_drop (by omega), List.drop_zero]

/-- An acknowledgement record is exactly its two bytes. -/
theorem decodeAck_eq_some {B : List Byte} {a : AckRec} : decodeAck B = some a ↔ B = [a.id, a.err] := by
  constructor
  · intro h
    match B, h with
    | [b0, b1], h => cases h; rfl
  · rintro rfl
    rfl

/-- Settles O5. -/
theorem frameAndAckRoundTrip : Obligations.FrameAndAckRoundTrip := by
  refine ⟨decodeFrame_encodeFrame, fun B f => encodeFrame_of_decodeFrame, fun d a B hB => ?_, fun B a => decodeAck_eq_some.mp⟩
  obtain rfl : [a.id, a.err] = B := Option.some.inj hB
  exact ⟨rfl, decodeAck_eq_some.mpr rfl⟩

/-! # Repeat counts (spec/30_encoding.md R103, spec/42_frame_deserializer.md R227) -/

/-- A finite count in the domain is never written as all ones. -/
theorem repWire_finite_lt {k : Kind} {n : Nat} (h : (LoopBehavior.finite n).inDomain k = true) :
    1 ≤ n ∧ n - 1 < repInfinite k := by
  cases k <;> simp [LoopBehavior.inDomain, repInfinite] at h ⊢ <;> omega

theorem repDec_repWire {k : Kind} {r : LoopBehavior} (h : r.inDomain k = true) : repDec k (repWire k r) = r := by
  cases r with
  | infinite => exact if_pos rfl
  | finite n =>
    obtain ⟨hpos, hlt⟩ := repWire_finite_lt h
    rw [repWire, repDec, if_neg (Nat.ne_of_lt hlt), Nat.sub_add_cancel hpos]

/-- Settles O7: the tables are the definitions; the round trip is `repDec_repWire`. -/
theorem repeatCountRoundTrip : Obligations.RepeatCountRoundTrip :=
  ⟨rfl, rfl, fun _ _ => rfl, fun _ => rfl, fun _ => rfl, fun _ _ => repDec_repWire⟩

/-! # Transition fields (spec/30_encoding.md R102, spec/42_frame_deserializer.md R208, R227) -/

theorem tmValid_iff (c : Byte) (v : U64) : tmValid c v = true ↔
    (c = 0x00 ∨ c = 0x01 ∨ c = 0x02 ∨ c = 0xF0 ∨ c = 0xFF) ∧ (c = 0x02 → v.toNat < 4) := by
  simp only [tmValid, Bool.or_eq_true, Bool.and_eq_true, beq_iff_eq, decide_eq_true_eq, or_assoc]
  by_cases hpin : c = 0x02
  · subst c
    simp [gpioPins]
  · simp only [hpin, false_and, false_or, false_imp_iff, and_true]

/-- A pin in range keeps its number in the 64-bit value. -/
theorem toNat_ofNat_pin {pin : Nat} (h : pin < 4) : (BitVec.ofNat 64 pin).toNat = pin := by
  rw [BitVec.toNat_ofNat, Nat.mod_eq_of_lt (by omega)]

theorem tmValid_modeCode {m : TransitionMode} (hpin : ∀ pin, m = .gpio pin → pin < 4) :
    tmValid (modeCode m) (modeValue m) = true := by
  refine (tmValid_iff _ _).mpr ?_
  cases m with
  | gpio pin =>
    have h := hpin pin rfl
    simp [modeCode, modeValue, toNat_ofNat_pin h, h]
  | _ => simp [modeCode]

theorem modeDec_modeCode {m : TransitionMode} (hlater : m ≠ .later) (hpin : ∀ pin, m = .gpio pin → pin < 4) :
    modeDec (modeCode m) (modeValue m) = m := by
  cases m with
  | gpio pin => exact congrArg TransitionMode.gpio (toNat_ofNat_pin (hpin pin rfl))
  | later => exact absurd rfl hlater
  | _ => rfl

/-- Settles O8: the tables are the definitions; the round trip and `TM_VALID` are the lemmas above. -/
theorem transitionModeRoundTrip : Obligations.TransitionModeRoundTrip := by
  refine ⟨fun t pin => ?_, fun v => ?_, fun m hlater hpin => ?_, tmValid_iff⟩
  · exact ⟨⟨rfl, rfl⟩, ⟨rfl, rfl⟩, ⟨rfl, rfl⟩, ⟨rfl, rfl⟩, ⟨rfl, rfl⟩, rfl, rfl⟩
  · exact ⟨rfl, rfl, rfl, rfl, rfl⟩
  · exact ⟨tmValid_modeCode hpin, modeDec_modeCode hlater hpin⟩

end Sys2Proof.Machine

namespace Sys2Proof.Machine

open Sys2Proof

/-! # LOAD, ENABLE and REQUIRED_SIZE (spec/40_fragment_codec.md R140, R143, R145) -/

theorem State.inFlight_eq_false {s : State} : s.inFlight = false ↔ s.session ≠ .sending ∧ s.session ≠ .awaitingAck := by
  simp [State.inFlight]

/-- LOAD's next states: outside a running call and on an operation in its domain, what `loadedSlot` says. -/
theorem execLoad_next {d : Nat} {k : SlotIx} {op : Operation} {s t : State} :
    execLoad d k op s = .next t ↔ s.inFlight = false ∧ operandOk op = true ∧ ∃ l, s.lanes[d]? = some l ∧
      ((∃ e, loadedSlot s.params op = .error e ∧ t = { s with ret := .error e }) ∨
       (∃ o, loadedSlot s.params op = .ok o ∧ t = withLane s d (l.setOp k o) .ok)) := by
  simp only [execLoad, onLane_next]
  cases hf : s.inFlight with
  | true => simp
  | false =>
    cases hop : operandOk op with
    | false => simp
    | true => cases loadedSlot s.params op <;> simp [withLane]

/-- The transition check of R140: a pin out of range, or a pair that `TRANSITION_OK` refuses. -/
theorem transitionRejected_iff (p : Params) (o : StreamOp) :
    transitionRejected p o = true ↔ (∃ pin, o.mode = .gpio pin ∧ 4 ≤ pin) ∨ (o.mode, o.seg) ∈ p.notOk := by
  simp only [transitionRejected, transitionOk, Bool.or_eq_true, Bool.not_not, List.contains_iff_mem]
  refine or_congr ?_ Iff.rfl
  change _ ↔ ∃ pin, o.mode = .gpio pin ∧ gpioPins ≤ pin
  cases o.mode <;> simp

/-- Both streaming kinds have the transition check first. -/
theorem loadedSlot_of_rejected {p : Params} (k : Kind) {o : StreamOp} (ss : U32) (h : transitionRejected p o = true) :
    loadedSlot p (if k = .mod then .mod o else .foci o ss) = .error (.invalidTransition o.mode) := by
  cases k <;> exact if_pos h

/-- A focus record of the wrong width is the next error; MOD has no such check. -/
theorem loadedSlot_of_badWidth {p : Params} {o : StreamOp} (ss : U32) (h : transitionRejected p o = false)
    (hbad : ∃ r ∈ o.data, r.length ≠ p.fociRecBytes) :
    loadedSlot p (.foci o ss) = .error (.invalidOperation .recordWidth) := by
  have hany : o.data.any (fun r => r.length != p.fociRecBytes) = true := by simpa using hbad
  simp only [loadedSlot, h, hany, Bool.false_eq_true, if_false, if_true]

/-- A streaming operation that passes the checks starts at cursor 0, not done. -/
theorem loadedSlot_of_accepted {p : Params} {k : Kind} {o : StreamOp} (ss : U32) (h : transitionRejected p o = false)
    (hw : k = .foci → ∀ r ∈ o.data, r.length = p.fociRecBytes) :
    loadedSlot p (if k = .mod then .mod o else .foci o ss) = .ok (streamSlot k o ss 0 false) := by
  cases k with
  | mod => exact if_neg (by simp [h])
  | foci =>
    have hany : o.data.any (fun r => r.length != p.fociRecBytes) = false := by simpa using hw rfl
    exact (if_neg (by simp [h])).trans (if_neg (by simp [hany]))

/-- Settles O32: LOAD does what `loadedSlot` says, whose checks are taken in the order of R296. -/
theorem loadBindsOrRaises : Obligations.LoadBindsOrRaises := by
  intro s d l ix hl hsending hawaiting
  have hidle : s.inFlight = false := State.inFlight_eq_false.mpr ⟨hsending, hawaiting⟩
  have binds : ∀ op : Operation, op.inDomain = true → ∀ o, loadedSlot s.params op = .ok o →
      exec (.load d ix op) s = .next (withLane s d (l.setOp ix o) .ok) := fun op hop o ho =>
    execLoad_next.mpr ⟨hidle, hop, l, hl, .inr ⟨o, ho, rfl⟩⟩
  have raises : ∀ op : Operation, op.inDomain = true → ∀ e, loadedSlot s.params op = .error e →
      exec (.load d ix op) s = .next { s with ret := .error e } := fun op hop e he =>
    execLoad_next.mpr ⟨hidle, hop, l, hl, .inl ⟨e, he, rfl⟩⟩
  refine ⟨binds .null rfl _ rfl, ?_, fun tag body => ⟨fun hmem => ?_, fun hmem => ?_⟩,
    fun op hop => ⟨binds op hop, raises op hop⟩⟩
  · rintro k o ss op rfl hop
    refine ⟨fun hrej => ?_, fun hpin hok => ?_⟩
    · exact raises _ hop _ (loadedSlot_of_rejected k ss ((transitionRejected_iff _ _).mpr hrej))
    · have hpass : transitionRejected s.params o = false := by
        refine Bool.eq_false_iff.mpr fun hrej => ?_
        obtain ⟨pin, hm, hge⟩ | hmem := (transitionRejected_iff _ _).mp hrej
        · exact absurd (hpin pin hm) (Nat.not_lt.mpr hge)
        · exact hok hmem
      refine ⟨fun hk hbad => ?_, fun hw => binds _ hop _ (loadedSlot_of_accepted ss hpass hw)⟩
      subst hk
      exact raises _ hop _ (loadedSlot_of_badWidth ss hpass hbad)
  · exact binds _ rfl _ (if_pos hmem)
  · exact raises _ rfl _ (if_neg hmem)

/-- Settles O34. -/
theorem enableSetsTheBit : Obligations.EnableSetsTheBit := by
  intro s d l b hl
  exact onLane_next.mpr ⟨l, hl, rfl⟩

/-- The bytes a streaming operation needs, in numbers (R145): a header, then two bytes of samples or one record. -/
theorem streamNeed_eq (p : Params) (k : Kind) (sent : Nat) :
    streamNeed p k sent = (if sent = 0 then (if k = .mod then 16 else 24) else 4) + (if k = .mod then 2 else p.fociRecBytes) := by
  unfold streamNeed Kind.header
  by_cases h : sent = 0 <;> cases k <;> simp [h, Kind.firstHeader, contHeader, minPayload, padEven, unitBytes]

theorem requiredSize_of_done {p : Params} {o : OpSlot} (h : o.done = true) : requiredSize p o = 0 :=
  if_pos h

/-- Settles O35: REQUIRED_SIZE returns `requiredSize`, and `streamNeed_eq` gives the numbers. -/
theorem requiredSizeReturnsTheMinimum : Obligations.RequiredSizeReturnsTheMinimum := by
  intro s d l k hl
  refine ⟨requiredSize s.params (l.op k), onLane_next.mpr ⟨l, hl, rfl⟩, requiredSize_of_done, ?_, ?_, ?_⟩
  · intro o sent ho
    have hneed : requiredSize s.params (l.op k) = streamNeed s.params .mod sent := by rw [ho]; rfl
    rw [hneed, streamNeed_eq]
    split <;> rfl
  · intro o ss sent ho
    have hneed : requiredSize s.params (l.op k) = streamNeed s.params .foci sent := by rw [ho]; rfl
    exact hneed.trans (streamNeed_eq _ _ _)
  · intro tag body ho
    rw [ho]
    rfl

end Sys2Proof.Machine

namespace Sys2Proof.Machine

open Sys2Proof

/-! # How many units a fragment carries (spec/40_fragment_codec.md R150, R152) -/

/-- The units a fragment's window has room for: what fits after the header, an even number for MOD, and at most the form's cap
(spec/40_fragment_codec.md R152). -/
def unitRoom (p : Params) (k : Kind) (first : Bool) (budget : Nat) : Nat :=
  let fit := (budget - k.header first) / unitBytes p k
  min (if padEven k then evenFloor fit else fit) (unitCap k first)

/-- A fragment carries what remains, as far as there is room. -/
theorem unitCount_eq_min (p : Params) (k : Kind) (o : StreamOp) (sent budget : Nat) :
    unitCount p k o sent budget = min (o.data.length - sent) (unitRoom p k (sent == 0) budget) := rfl

/-- The room in numbers. -/
theorem unitRoom_eq (p : Params) (k : Kind) (first : Bool) (budget : Nat) :
    unitRoom p k first budget =
      min (if k = .mod then 2 * ((budget - (if first then 16 else 4)) / 2)
          else (budget - (if first then 24 else 4)) / p.fociRecBytes)
        (if k = .mod then (if first then 254 else 0xFFFE) else (if first then 255 else 0xFFFF)) := by
  have heven : ∀ x, evenFloor x = 2 * (x / 2) := fun x => by unfold evenFloor; omega
  cases k <;> cases first <;>
    simp [unitRoom, heven, Kind.header, Kind.firstHeader, contHeader, unitBytes, padEven, unitCap]

/-- The unit count in numbers (R152). -/
theorem unitCount_eq (p : Params) (k : Kind) (o : StreamOp) (sent budget : Nat) :
    unitCount p k o sent budget = min (o.data.length - sent)
      (min (if k = .mod then 2 * ((budget - (if sent = 0 then 16 else 4)) / 2)
          else (budget - (if sent = 0 then 24 else 4)) / p.fociRecBytes)
        (if k = .mod then (if sent = 0 then 254 else 0xFFFE) else (if sent = 0 then 255 else 0xFFFF))) := by
  simp only [unitCount_eq_min, unitRoom_eq, beq_iff_eq]

/-- A window of the required size has room for a unit (R145). -/
theorem unitRoom_pos {p : Params} {k : Kind} {first : Bool} {budget : Nat} (hunit : 1 ≤ unitBytes p k)
    (hneed : k.header first + minPayload p k ≤ budget) : 1 ≤ unitRoom p k first budget := by
  have hcap : 2 ≤ unitCap k first := by cases k <;> cases first <;> decide
  have hfit : minPayload p k / unitBytes p k ≤ (budget - k.header first) / unitBytes p k :=
    Nat.div_le_div_right (by omega)
  unfold unitRoom
  cases k with
  | mod =>
    have htwo : 2 ≤ (budget - Kind.mod.header first) / unitBytes p .mod := (Nat.div_one 2).symm.trans_le hfit
    simp only [padEven, if_true, evenFloor]
    omega
  | foci =>
    have hone : 1 ≤ (budget - Kind.foci.header first) / unitBytes p .foci := (Nat.div_self hunit).symm.trans_le hfit
    simp only [padEven, Bool.false_eq_true, if_false]
    omega

/-- So a pack that has passed its size check makes progress while units remain (R150). -/
theorem unitCount_pos {p : Params} {k : Kind} {o : StreamOp} {sent budget : Nat} (hunit : 1 ≤ unitBytes p k)
    (hneed : streamNeed p k sent ≤ budget) (hrem : sent < o.data.length) : 1 ≤ unitCount p k o sent budget := by
  have hroom := unitRoom_pos hunit hneed
  rw [unitCount_eq_min]
  omega

/-! # Fragment count (spec/40_fragment_codec.md R162) -/

/-- From the first fragment on every fragment is a continuation, so that the packed units grow by the continuation's room until
the payload ends. -/
theorem unitsAfter_succ {p : Params} {k : Kind} {o : StreamOp} {b : Nat} (hroom : 1 ≤ unitRoom p k true b)
    (hdata : 1 ≤ o.data.length) (j : Nat) :
    unitsAfter p k o b (j + 1) = min o.data.length (unitRoom p k true b + j * unitRoom p k false b) := by
  induction j with
  | zero => simp [unitsAfter, unitCount_eq_min]
  | succ j ih =>
    have hcont : (unitsAfter p k o b (j + 1) == 0) = false := by
      rw [ih, beq_eq_false_iff_ne]
      omega
    rw [unitsAfter, unitCount_eq_min, hcont, ih, Nat.succ_mul]
    omega

/-- The count of R162 for `L` units, `n1` in the first fragment and `nc` in each other. -/
def fragmentCount (L n1 nc : Nat) : Nat := if L ≤ n1 then 1 else 1 + (L - n1 + nc - 1) / nc

theorem fragmentCount_pos (L n1 nc : Nat) : 0 < fragmentCount L n1 nc := by
  unfold fragmentCount
  split
  · exact Nat.one_pos
  · exact Nat.lt_of_lt_of_le Nat.one_pos (Nat.le_add_right 1 _)

/-- It is the least number of fragments, at least one, that have room for the payload. -/
theorem fragmentCount_le_succ_iff {L n1 nc : Nat} (hnc : 0 < nc) (j : Nat) :
    fragmentCount L n1 nc ≤ j + 1 ↔ L ≤ n1 + j * nc := by
  have hceil : (L - n1 + nc - 1) / nc ≤ j ↔ L - n1 ≤ nc * j := ceilDiv_le_iff_le_mul hnc
  rw [Nat.mul_comm] at hceil
  unfold fragmentCount
  split <;> omega

/-- Settles O41: `unitsAfter_succ` against the least count that covers the payload. -/
theorem fragmentCountOfAPayload : Obligations.FragmentCountOfAPayload := by
  intro p k o b n1 nc j hrec hdata hn1 hnc hb
  have hunit : 1 ≤ unitBytes p k := by cases k <;> simp [unitBytes, hrec]
  have hfirst : k.header true + minPayload p k ≤ b := by cases k <;> exact hb
  have hcont : k.header false + minPayload p k ≤ b := le_trans (Nat.add_le_add_right (by cases k <;> decide) _) hfirst
  have hroom1 := unitRoom_pos hunit hfirst
  have hroomc := unitRoom_pos hunit hcont
  obtain rfl : n1 = unitRoom p k true b := by rw [hn1, unitRoom_eq]; cases k <;> rfl
  obtain rfl : nc = unitRoom p k false b := by rw [hnc, unitRoom_eq]; cases k <;> rfl
  refine ⟨unitCount_eq p k o, ?_⟩
  change (j < fragmentCount _ _ _ → _) ∧ (fragmentCount _ _ _ ≤ j → _)
  cases j with
  | zero =>
    exact ⟨fun _ => hdata, fun h => absurd h (Nat.not_le.mpr (fragmentCount_pos _ _ _))⟩
  | succ j =>
    have hcount := fragmentCount_le_succ_iff (L := o.data.length) (n1 := unitRoom p k true b) hroomc j
    rw [unitsAfter_succ hroom1 hdata]
    omega

end Sys2Proof.Machine

namespace Sys2Proof.Machine

open Sys2Proof

/-! # A fragment's bytes (spec/40_fragment_codec.md R150, R153, R155) -/

/-- A field holds as many of a number's low bytes as it is wide. -/
theorem leBytes_ofNat {n w : Nat} (hw : w = 8 * n) (v : Nat) : leBytes n (BitVec.ofNat w v).toNat = leBytes n v := by
  have h := leBytes_leNat (leBytes n v)
  rwa [leBytes_length, leNat_leBytes, ← two_pow_bits hw, ← BitVec.toNat_ofNat] at h

/-- A field byte by byte. -/
theorem leBytes_eq_map (n v : Nat) : leBytes n v = (List.range n).map fun i => BitVec.ofNat 8 (v / 256 ^ i) := by
  induction n generalizing v with
  | zero => rfl
  | succ n ih =>
    rw [leBytes, ih, List.range_succ_eq_map, List.map_cons, List.map_map, pow_zero, Nat.div_one]
    simp only [Function.comp_def, Nat.pow_succ', Nat.div_div_eq_div_mul]

/-- A flags byte with no reserved bit is the sum of its bits (spec/30_encoding.md R98). -/
theorem toByte_eq_sum (first last trans : Bool) (seg : Segment) :
    FragFlags.toByte first ⟨last, trans, seg, 0⟩ =
      BitVec.ofNat 8 ((if first then 1 else 0) + (if last then 2 else 0) + (if trans then 4 else 0)
        + (if seg = .s1 then 8 else 0)) := by
  cases first <;> cases last <;> cases trans <;> cases seg <;> decide

/-- The flags a pack writes (R155). -/
theorem packFlags_toByte (sent n : Nat) (o : StreamOp) :
    (packFlags (sent + n == o.data.length) o).toByte (sent == 0) =
      BitVec.ofNat 8 ((if sent = 0 then 1 else 0) + (if sent + n = o.data.length then 2 else 0)
        + (if sent + n = o.data.length ∧ o.mode ≠ .later then 4 else 0) + (if o.seg = .s1 then 8 else 0)) := by
  simp only [packFlags, toByte_eq_sum, Bool.and_eq_true, beq_iff_eq, bne_iff_ne]

/-- A fragment is its header, as R150 spells it, and its payload. -/
theorem encodeSlot_fragmentSlot (k : Kind) (ss : U32) (o : StreamOp) (sent n : Nat) :
    encodeSlot (fragmentSlot k ss o sent n) = headerBytes k ss o sent n ++ fragmentPayload k o sent n := by
  have h16 : ∀ v, leBytes 2 (BitVec.ofNat 16 v).toNat = leBytes 2 v := leBytes_ofNat rfl
  have h32 : ∀ v, leBytes 4 (BitVec.ofNat 32 v).toNat = leBytes 4 v := leBytes_ofNat rfl
  simp only [headerBytes, ← packFlags_toByte, fragmentSlot]
  by_cases h0 : sent = 0
  · have hbeq : (sent == 0) = true := beq_iff_eq.mpr h0
    rw [if_pos h0, hbeq]
    cases k <;> simp only [encodeSlot, h16, h32] <;> simp only [leBytes_eq_map] <;> rfl
  · have hbeq : (sent == 0) = false := beq_eq_false_iff_ne.mpr h0
    rw [if_neg h0, hbeq]
    cases k <;> simp only [encodeSlot, h16] <;> simp only [leBytes_eq_map] <;> rfl

/-- The payload of units of the kind's width is padded exactly when it is an odd number of samples (R153). -/
theorem fragmentPayload_eq {p : Params} {k : Kind} {o : StreamOp} {sent n : Nat} (hw : ∀ u ∈ o.data, u.length = unitBytes p k)
    (hn : n ≤ o.data.length - sent) :
    fragmentPayload k o sent n =
      ((o.data.drop sent).take n).flatten ++ (if k = .mod ∧ n % 2 = 1 then [0x00] else []) := by
  cases k with
  | foci => rfl
  | mod =>
    have hlen : ((o.data.drop sent).take n).flatten.length = n := by
      rw [flatten_length_of_width fun u hu => hw u (List.mem_of_mem_drop (List.mem_of_mem_take hu))]
      simp [hn, unitBytes]
    simp [fragmentPayload, padEven, hlen]

/-- A fragment whose window has passed the size check fits it (R152). -/
theorem fragment_length_le {p : Params} {k : Kind} (ss : U32) {o : StreamOp} {sent budget : Nat}
    (hw : ∀ u ∈ o.data, u.length = unitBytes p k) (hneed : streamNeed p k sent ≤ budget) :
    (encodeSlot (fragmentSlot k ss o sent (unitCount p k o sent budget))).length ≤ budget := by
  rw [encodeSlot_fragmentSlot_length, fragmentPayload_length hw (unitCount_le _ _ _ _ _)]
  have hpay := payloadBytes_unitCount_le p k o sent budget
  unfold streamNeed at hneed
  omega

/-! # The pack commands (spec/40_fragment_codec.md R156 to R161) -/

/-- A pack command's operands are in place: device `d` has the lane `l`, `buf` is a frame payload, and the window lies in it. -/
structure PackSetting (s : State) (d : Nat) (l : Lane) (buf : List Byte) (base budget : Nat) : Prop where
  lane_eq : s.lanes[d]? = some l
  buf_len : buf.length = s.params.n
  window  : base + budget ≤ s.params.n

@[simp] theorem streamSlot_done (k : Kind) (o : StreamOp) (ss : U32) (sent : Nat) (done : Bool) :
    (streamSlot k o ss sent done).done = done := by
  cases k <;> rfl

theorem streamSlot_kind_eq {k k' : Kind} {o o' : StreamOp} {ss ss' : U32} {sent sent' : Nat} {done done' : Bool}
    (h : streamSlot k o ss sent done = streamSlot k' o' ss' sent' done') : k = k' := by
  cases k <;> cases k' <;> cases h <;> rfl

theorem streamSlot_ne_atomic {k : Kind} {o : StreamOp} {ss : U32} {sent : Nat} {done done' : Bool} {tag : Byte}
    {body : List Byte} : streamSlot k o ss sent done ≠ .atomic tag body done' := by
  cases k <;> exact nofun

/-- ISSUE's pack of a streaming slot is `PACK_STREAM` (R158, R159, R161). -/
theorem packSlot_streamSlot (p : Params) (k : Kind) (o : StreamOp) (ss : U32) (sent : Nat) (done : Bool) (budget : Nat) :
    packSlot p (streamSlot k o ss sent done) budget =
      (packStream p k ss o sent done budget).map fun r => (r.1, streamSlot k o ss r.2.1 r.2.2) := by
  cases k with
  | mod =>
    have hspeed : packStream p .mod 0 o sent done budget = packStream p .mod ss o sent done budget := by
      unfold packStream fragmentSlot
      cases (sent == 0) <;> rfl
    simp only [streamSlot, packSlot, packMod, hspeed]
    cases packStream p .mod ss o sent done budget <;> rfl
  | foci =>
    simp only [streamSlot, packSlot, packFoci]
    cases packStream p .foci ss o sent done budget <;> rfl

section
variable {s : State} {d : Nat} {l : Lane} {ix : SlotIx} {buf : List Byte} {base budget : Nat}

/-- A pack command's meaning depends on its pack of the named slot alone. -/
theorem packInto_congr {pack pack' : OpSlot → Host.Outcome (Except HostError (List Byte × OpSlot)) Fault Refusal}
    (hl : s.lanes[d]? = some l) (h : pack (l.op ix) = pack' (l.op ix)) :
    s.packInto d ix buf base budget pack = s.packInto d ix buf base budget pack' := by
  rw [State.packInto, State.packInto, onLane_some _ hl, onLane_some _ hl, h]

/-- A pack that raises an error changes nothing else. -/
theorem PackSetting.error (h : PackSetting s d l buf base budget)
    {pack : OpSlot → Host.Outcome (Except HostError (List Byte × OpSlot)) Fault Refusal} {e : HostError}
    (he : pack (l.op ix) = .next (.error e)) :
    s.packInto d ix buf base budget pack = .next { s with ret := .error e } :=
  packInto_next.mpr ⟨h.window, h.buf_len, l, h.lane_eq, .inl ⟨e, he, rfl⟩⟩

/-- A pack that succeeds writes its bytes at `base` and replaces its slot. -/
theorem PackSetting.ok (h : PackSetting s d l buf base budget)
    {pack : OpSlot → Host.Outcome (Except HostError (List Byte × OpSlot)) Fault Refusal} {bs : List Byte} {o : OpSlot}
    (ho : pack (l.op ix) = .next (.ok (bs, o))) :
    s.packInto d ix buf base budget pack = .next (withLane s d (l.setOp ix o) (.packed (copyAt buf base bs) bs.length)) :=
  packInto_next.mpr ⟨h.window, h.buf_len, l, h.lane_eq, .inr ⟨bs, o, ho, rfl⟩⟩

/-- An undone slot of another kind has no pack. -/
theorem PackSetting.kindMismatch (h : PackSetting s d l buf base budget)
    {pack : OpSlot → Host.Outcome (Except HostError (List Byte × OpSlot)) Fault Refusal}
    (hundone : (l.op ix).done = false) (hpack : pack (l.op ix) = wrongKind (l.op ix)) :
    s.packInto d ix buf base budget pack = .refused .kindMismatch := by
  obtain ⟨hl, hbuf, hwin⟩ := h
  have hr : pack (l.op ix) = .refused .kindMismatch := hpack.trans (if_neg (by simp [hundone]))
  rw [State.packInto, onLane_some _ hl, if_neg (by omega), if_neg (by omega), if_neg (by omega), hr]

/-- A done slot is refused with `InvalidOperation` by each pack command, whatever its kind (R156). -/
theorem PackSetting.done (h : PackSetting s d l buf base budget) (hdone : (l.op ix).done = true) {i : Instr}
    (hi : i ∈ [Instr.packMod d ix buf base budget, .packFoci d ix buf base budget, .packAtomic d ix buf base budget]) :
    exec i s = .next { s with ret := .error (.invalidOperation .packedAfterDone) } := by
  simp only [List.mem_cons, List.not_mem_nil, or_false] at hi
  obtain rfl | rfl | rfl := hi
  all_goals
    rw [exec]
    refine h.error ?_
    generalize l.op ix = o at hdone
    cases o with
    | null => rfl
    | _ => cases hdone; rfl

/-- A pack command on a slot of its own kind is ISSUE's pack of that slot (R161). -/
theorem exec_packInstr_eq {k : Kind} {o : StreamOp} {ss : U32} {sent : Nat} {done : Bool} (hl : s.lanes[d]? = some l)
    (hop : l.op ix = streamSlot k o ss sent done) :
    exec (packInstr k d ix buf base budget) s = s.packInto d ix buf base budget fun o => .next (packSlot s.params o budget) := by
  cases k <;>
  · rw [packInstr, exec]
    exact packInto_congr hl (by rw [hop]; rfl)

theorem exec_packAtomic_eq {tag : Byte} {body : List Byte} {done : Bool} (hl : s.lanes[d]? = some l)
    (hop : l.op ix = .atomic tag body done) :
    exec (.packAtomic d ix buf base budget) s = s.packInto d ix buf base budget fun o => .next (packSlot s.params o budget) := by
  rw [exec]
  exact packInto_congr hl (by rw [hop]; rfl)

/-- A streaming pack command refuses an undone slot that is no slot of its kind (log entry 18). -/
theorem PackSetting.not_stream (h : PackSetting s d l buf base budget) {k : Kind} (hundone : (l.op ix).done = false)
    (hk : ∀ o ss sent done, l.op ix ≠ streamSlot k o ss sent done) :
    exec (packInstr k d ix buf base budget) s = .refused .kindMismatch := by
  cases k with
  | mod =>
    rw [packInstr, exec]
    refine h.kindMismatch hundone ?_
    split
    · exact absurd ‹_› (hk _ 0 _ _)
    · rfl
  | foci =>
    rw [packInstr, exec]
    refine h.kindMismatch hundone ?_
    split
    · exact absurd ‹_› (hk _ _ _ _)
    · rfl

/-- So does PACK_ATOMIC one that is no ATOMIC slot. -/
theorem PackSetting.not_atomic (h : PackSetting s d l buf base budget) (hundone : (l.op ix).done = false)
    (hk : ∀ tag body done, l.op ix ≠ .atomic tag body done) :
    exec (.packAtomic d ix buf base budget) s = .refused .kindMismatch := by
  rw [exec]
  refine h.kindMismatch hundone ?_
  split
  · exact absurd ‹_› (hk _ _ _)
  · rfl

variable {k : Kind} {o : StreamOp} {ss : U32} {sent : Nat}

/-- A streaming pack command on a slot of its kind raises the error of `PACK_STREAM`. -/
theorem PackSetting.stream_error (h : PackSetting s d l buf base budget) (hop : l.op ix = streamSlot k o ss sent false)
    {e : HostError} (he : packStream s.params k ss o sent false budget = .error e) :
    exec (packInstr k d ix buf base budget) s = .next { s with ret := .error e } := by
  rw [exec_packInstr_eq h.lane_eq hop]
  refine h.error (congrArg Host.Outcome.next ?_)
  rw [hop, packSlot_streamSlot, he]
  rfl

/-- It writes the fragment `PACK_STREAM` gives, and the slot keeps its operation with the new cursor and latch. -/
theorem PackSetting.stream_ok (h : PackSetting s d l buf base budget) (hop : l.op ix = streamSlot k o ss sent false)
    {bs : List Byte} {sent' : Nat} {done' : Bool} (hok : packStream s.params k ss o sent false budget = .ok (bs, sent', done')) :
    exec (packInstr k d ix buf base budget) s
      = .next (withLane s d (l.setOp ix (streamSlot k o ss sent' done')) (.packed (copyAt buf base bs) bs.length)) := by
  rw [exec_packInstr_eq h.lane_eq hop]
  refine h.ok (congrArg Host.Outcome.next ?_)
  rw [hop, packSlot_streamSlot, hok]
  rfl

/-- The next fragment of an undone streaming slot whose checks pass (R150 to R155): its bytes, the slot after it, and that it
fits its budget. -/
theorem PackSetting.stream_writes (h : PackSetting s d l buf base budget) (hop : l.op ix = streamSlot k o ss sent false)
    (hw : ∀ u ∈ o.data, u.length = unitBytes s.params k) (hneed : streamNeed s.params k sent ≤ budget)
    (hmax : sent = 0 → o.data.length ≤ unitsMax s.params k) {n : Nat} (hn : n = unitCount s.params k o sent budget)
    (hmin : sent + n = o.data.length → unitsMin s.params k ≤ o.data.length) {frag : List Byte}
    (hfrag : frag = headerBytes k ss o sent n ++ ((o.data.drop sent).take n).flatten ++
      (if k = .mod ∧ n % 2 = 1 then [0x00] else [])) :
    exec (packInstr k d ix buf base budget) s
      = .next (withLane s d (l.setOp ix (streamSlot k o ss (sent + n) (decide (sent + n = o.data.length))))
          (.packed (copyAt buf base frag) frag.length)) ∧
    frag.length ≤ budget := by
  have hbytes : frag = encodeSlot (fragmentSlot k ss o sent n) := by
    rw [hfrag, encodeSlot_fragmentSlot, fragmentPayload_eq hw (hn ▸ unitCount_le _ _ _ _ _), List.append_assoc]
  refine ⟨h.stream_ok hop (packStream_ok.mpr ⟨rfl, hmax, hneed, by rw [hn], rfl, hmin, ?_⟩), ?_⟩
  · rw [hbytes, hn]
  · rw [hbytes, hn]
    exact fragment_length_le ss hw hneed

end

/-- Settles O36: the fragment of `PackSetting.stream_writes`, its unit count by `unitCount_eq`. -/
theorem packModWritesTheNextFragment : Obligations.PackModWritesTheNextFragment := by
  intro s d l k buf base budget o sent n hl hop _ hw hbuf hwin hbudget hmax hn hmin
  have hneed : streamNeed s.params .mod sent ≤ budget := by
    refine le_of_eq_of_le ?_ hbudget
    rw [streamNeed_eq]
    split <;> rfl
  have hcount : n = unitCount s.params .mod o sent budget := hn.trans (unitCount_eq s.params .mod o sent budget).symm
  obtain ⟨hexec, hlen⟩ := PackSetting.stream_writes (k := .mod) (ss := 0) ⟨hl, hbuf, hwin⟩ hop hw hneed hmax hcount hmin
    (by simp only [true_and]; rfl)
  exact ⟨hexec, hlen, fun hrem => hcount ▸ unitCount_pos Nat.one_pos hneed hrem⟩

/-- Settles O37: the same for FOCI, whose payload has no pad byte. -/
theorem packFociWritesTheNextFragment : Obligations.PackFociWritesTheNextFragment := by
  intro s d l k buf base budget o ss sent n hl hop _ hrec hw hbuf hwin hbudget hmax hn hmin
  have hneed : streamNeed s.params .foci sent ≤ budget := (streamNeed_eq _ _ _).trans_le hbudget
  have hcount : n = unitCount s.params .foci o sent budget := hn.trans (unitCount_eq s.params .foci o sent budget).symm
  obtain ⟨hexec, hlen⟩ := PackSetting.stream_writes (k := .foci) (ss := ss) ⟨hl, hbuf, hwin⟩ hop hw hneed hmax hcount hmin
    (List.append_nil _).symm
  exact ⟨hexec, hlen, fun hrem => hcount ▸ unitCount_pos hrec hneed hrem⟩

/-- Settles O38: `PACK_ATOMIC`'s two checks in their order, then the slot's bytes. -/
theorem packAtomicWritesWholeOrNothing : Obligations.PackAtomicWritesWholeOrNothing := by
  intro s d l k buf base budget tag body done hl hop hbuf hwin
  have hset : PackSetting s d l buf base budget := ⟨hl, hbuf, hwin⟩
  rw [exec_packAtomic_eq hl hop]
  cases done with
  | true => exact hset.error (by rw [hop]; rfl)
  | false =>
    rw [if_neg Bool.false_ne_true]
    split
    case isTrue hshort =>
      exact hset.error (by rw [hop]; exact congrArg Host.Outcome.next (if_pos hshort))
    case isFalse hfit =>
      rw [Nat.add_comm 1]
      exact hset.ok (by rw [hop]; exact congrArg Host.Outcome.next (if_neg hfit))

/-! # The errors of PACK_STREAM, in their order (spec/40_fragment_codec.md R151, R154, R157, spec/60_exceptions.md R296) -/

section
variable {p : Params} {k : Kind} {ss : U32} {o : StreamOp} {sent budget : Nat}

/-- `MAX` is judged before the first fragment. -/
theorem packStream_over_max (h0 : sent = 0) (hmax : unitsMax p k < o.data.length) :
    packStream p k ss o sent false budget = .error (.sizeOutOfRange o.data.length) :=
  (if_neg Bool.false_ne_true).trans (if_pos ⟨h0, hmax⟩)

/-- Then the window's size. -/
theorem packStream_short (hmax : sent = 0 → o.data.length ≤ unitsMax p k) (hshort : budget < streamNeed p k sent) :
    packStream p k ss o sent false budget = .error (.insufficientBuffer (streamNeed p k sent) budget) := by
  have hmax' : ¬ (sent = 0 ∧ unitsMax p k < o.data.length) := by omega
  exact (if_neg hmax').trans (if_pos hshort)

/-- Then `MIN`, at the fragment that takes all that remains. -/
theorem packStream_under_min (hmax : sent = 0 → o.data.length ≤ unitsMax p k) (hneed : streamNeed p k sent ≤ budget)
    (hmin : o.data.length < unitsMin p k) (hfinal : sent + unitCount p k o sent budget = o.data.length) :
    packStream p k ss o sent false budget = .error (.sizeOutOfRange o.data.length) := by
  have hmax' : ¬ (sent = 0 ∧ unitsMax p k < o.data.length) := by omega
  have hcheck : ((sent + unitCount p k o sent budget == o.data.length) && decide (o.data.length < unitsMin p k)) = true := by
    simp [hfinal, hmin]
  exact (if_neg hmax').trans ((if_neg (Nat.not_lt.mpr hneed)).trans (if_pos hcheck))

end

/-- Settles O39: a done slot, a slot of another kind, then `PACK_STREAM`'s own errors. -/
theorem packErrorsInOrder : Obligations.PackErrorsInOrder := by
  intro s d l ix buf base budget hl hbuf hwin
  have hset : PackSetting s d l buf base budget := ⟨hl, hbuf, hwin⟩
  refine ⟨fun hdone i hi => hset.done hdone hi, fun k k' o ss sent hop hk => ?_, fun k tag body hop => ?_,
    fun k o ss sent hop => ?_⟩
  · have hundone : (l.op ix).done = false := (congrArg OpSlot.done hop).trans (streamSlot_done k o ss sent false)
    exact ⟨hset.not_stream hundone fun _ _ _ _ heq => hk (streamSlot_kind_eq (heq.symm.trans hop)),
      hset.not_atomic hundone fun _ _ _ heq => streamSlot_ne_atomic (hop.symm.trans heq)⟩
  · exact hset.not_stream (congrArg OpSlot.done hop) fun _ _ _ _ heq => streamSlot_ne_atomic (heq.symm.trans hop)
  · intro maxUnits minUnits header need
    have hmaxUnits : unitsMax s.params k = maxUnits := by cases k <;> rfl
    have hminUnits : unitsMin s.params k = minUnits := by cases k <;> rfl
    have hneedEq : streamNeed s.params k sent = need := streamNeed_eq s.params k sent
    rw [← hmaxUnits, ← hminUnits, ← hneedEq]
    refine ⟨fun h0 hmax => ?_, fun hmax hshort => ?_, fun hmax hneed hmin hsent hfit hcap => ?_⟩
    · exact hset.stream_error hop (packStream_over_max h0 hmax)
    · exact hset.stream_error hop (packStream_short hmax hshort)
    · have hcount : unitCount s.params k o sent budget = o.data.length - sent := by
        rw [unitCount_eq]
        refine min_eq_left (le_min ?_ ?_) <;> cases k
        exacts [hfit, hfit, hcap, hcap]
      exact hset.stream_error hop (packStream_under_min hmax hneed hmin (by omega))

end Sys2Proof.Machine

namespace Sys2Proof.Machine

open Sys2Proof

/-! # PACK_DEVICE, branch by branch (spec/41_dual_slot_packer.md R180 to R185)

`packDevice_ok` says what a success was; these say which branch runs. A branch that ends with a pack is the `map` of that pack, so
that its error and its success are one equation. -/

section
variable {p : Params} {id : Byte} {l : Lane}

/-- Nothing to pack: the empty frame, and the slots as they were (R181). -/
theorem packDevice_empty (h : l.enabled = false ∨ (l.pri.done = true ∧ l.sec.done = true)) :
    packDevice p id l = .ok { l with txbuf := batchFrame p id 0 [] } := by
  unfold packDevice
  obtain hen | ⟨hpri, hsec⟩ := h
  · simp [hen]
  · simp [hpri, hsec]

/-- The primary's error ends the device (R185). -/
theorem packDevice_pri_error (hen : l.enabled = true) (hpri : l.pri.done = false) {e : HostError}
    (he : packSlot p l.pri p.n = .error e) : packDevice p id l = .error e := by
  simp [packDevice, hen, hpri, he]

/-- The secondary waits when it is done or what the primary left does not hold it (R183). -/
theorem packDevice_pri_alone (hen : l.enabled = true) (hpri : l.pri.done = false) {bs : List Byte} {o : OpSlot}
    (ho : packSlot p l.pri p.n = .ok (bs, o)) (hwait : l.sec.done = true ∨ p.n - bs.length < requiredSize p l.sec) :
    packDevice p id l = .ok { l with txbuf := batchFrame p id 0 bs, pri := o } := by
  have hcond : (!l.sec.done && decide (requiredSize p l.sec ≤ p.n - bs.length)) = false := by
    obtain hsec | hshort := hwait
    · simp [hsec]
    · simp [hshort]
  simp [packDevice, hen, hpri, ho, hcond]

/-- The secondary goes beside the primary when what is left holds it (R182). -/
theorem packDevice_both (hen : l.enabled = true) (hpri : l.pri.done = false) {bs : List Byte} {o : OpSlot}
    (ho : packSlot p l.pri p.n = .ok (bs, o)) (hsec : l.sec.done = false) (hfit : requiredSize p l.sec ≤ p.n - bs.length) :
    packDevice p id l = (packSlot p l.sec (p.n - bs.length)).map fun r =>
      { l with txbuf := batchFrame p id bs.length (bs ++ r.1), pri := o, sec := r.2 } := by
  simp only [packDevice, hen, hpri, ho, hsec, hfit, Bool.not_true, Bool.not_false, Bool.false_eq_true, decide_true,
    Bool.and_self, if_true, if_false]
  cases packSlot p l.sec (p.n - bs.length) <;> rfl

/-- The secondary goes into slot one when the primary is done (R184). -/
theorem packDevice_sec_alone (hen : l.enabled = true) (hpri : l.pri.done = true) (hsec : l.sec.done = false) :
    packDevice p id l = (packSlot p l.sec p.n).map fun r => { l with txbuf := batchFrame p id 0 r.1, sec := r.2 } := by
  simp only [packDevice, hen, hpri, hsec, Bool.not_true, Bool.not_false, Bool.false_eq_true, if_true, if_false]
  cases packSlot p l.sec p.n <;> rfl

/-- PACK_DEVICE writes the frame buffer and the slots it packs: no slot of a device that is not enabled, and no done slot. -/
theorem packDevice_keeps_unpacked {l' : Lane} (h : packDevice p id l = .ok l') :
    ∃ B o1 o2, l' = { l with txbuf := B, pri := o1, sec := o2 } ∧ (l.enabled = false → o1 = l.pri ∧ o2 = l.sec) ∧
      (l.pri.done = true → o1 = l.pri) ∧ (l.sec.done = true → o2 = l.sec) := by
  obtain ⟨-, rfl⟩ | ⟨bs, o, hen, hpri, -, rfl⟩ | ⟨bs, o, bs2, o2, hen, hpri, hsec, -, -, -, rfl⟩ |
    ⟨bs, o, hen, -, hsec, -, rfl⟩ := packDevice_ok h
  · exact ⟨_, _, _, rfl, fun _ => ⟨rfl, rfl⟩, fun _ => rfl, fun _ => rfl⟩
  · exact ⟨_, _, _, rfl, by simp [hen], by simp [hpri], fun _ => rfl⟩
  · exact ⟨_, _, _, rfl, by simp [hen], by simp [hpri], by simp [hsec]⟩
  · exact ⟨_, _, _, rfl, by simp [hen], fun _ => rfl, by simp [hsec]⟩

end

/-! # A batch's frames (spec/41_dual_slot_packer.md R188, spec/30_encoding.md R90 to R94) -/

/-- A batch's frame byte by byte. The offset field has 16 bits. -/
theorem batchFrame_eq (p : Params) (id : Byte) (o : Nat) (slots : List Byte) :
    batchFrame p id o slots =
      id :: 0x00 :: BitVec.ofNat 8 (o % 65536 % 256) :: BitVec.ofNat 8 (o % 65536 / 256) :: fillPayload p slots :=
  encodeFrame_eq _

theorem fillPayload_length {p : Params} {slots : List Byte} (h : slots.length ≤ p.n) : (fillPayload p slots).length = p.n := by
  simp only [fillPayload, zeros, List.length_append, List.length_replicate]
  omega

/-- The two offset bytes are read back as the offset. -/
theorem offsetBytes_toNat (o : Nat) :
    (BitVec.ofNat 8 (o % 65536 % 256)).toNat + 256 * (BitVec.ofNat 8 (o % 65536 / 256)).toNat = o % 65536 := by
  simp only [BitVec.toNat_ofNat]
  omega

/-- A streaming fragment has at least its header. -/
theorem packStream_length_pos {p : Params} {k : Kind} {ss : U32} {o : StreamOp} {sent budget : Nat} {bs : List Byte} {sent' : Nat}
    {done' : Bool} (h : packStream p k ss o sent false budget = .ok (bs, sent', done')) : 1 ≤ bs.length := by
  obtain ⟨-, -, -, -, -, -, rfl⟩ := packStream_ok.mp h
  have hheader : 1 ≤ k.header (sent == 0) := by cases k <;> cases (sent == 0) <;> decide
  rw [encodeSlot_fragmentSlot_length]
  exact le_add_right hheader

/-- No pack that succeeds is empty. -/
theorem packSlot_length_pos {p : Params} {o o' : OpSlot} {budget : Nat} {bs : List Byte}
    (h : packSlot p o budget = .ok (bs, o')) : 1 ≤ bs.length := by
  obtain ⟨op, sent, sent', done', -, -, hp⟩ | ⟨op, ss, sent, sent', done', -, -, hp⟩ | ⟨tag, body, -, -, rfl, -⟩ :=
    packSlot_ok h
  · exact packStream_length_pos hp
  · exact packStream_length_pos hp
  · exact Nat.succ_pos _

/-- Settles O45: a pack command is `packSlot` of its slot, and PACK_DEVICE is taken branch by branch. -/
theorem dualSlotMultiplexing : Obligations.DualSlotMultiplexing := by
  refine ⟨fun s d l ix buf base budget i hl hbuf hwin hi => ?_, fun _ _ => rfl,
    fun s d l ix hl => onLane_next.mpr ⟨l, hl, rfl⟩, fun p id l => ?_⟩
  · have hset : PackSetting s d l buf base budget := ⟨hl, hbuf, hwin⟩
    have hexec : exec i s = s.packInto d ix buf base budget fun o => .next (packSlot s.params o budget) := by
      obtain ⟨k, o, ss, sent, done, hop, rfl⟩ | ⟨tag, body, done, hop, rfl⟩ := hi
      · exact exec_packInstr_eq hl hop
      · exact exec_packAtomic_eq hl hop
    rw [hexec]
    exact ⟨fun e he => hset.error (congrArg Host.Outcome.next he), fun bs o' ho => hset.ok (congrArg Host.Outcome.next ho)⟩
  · intro frame
    have hframe : ∀ o slots, batchFrame p id o slots = frame (o % 65536) slots := batchFrame_eq p id
    refine ⟨fun h => ?_, fun hen hpri => ⟨fun e => packDevice_pri_error hen hpri, fun b1 o1 ho => ⟨fun hwait => ?_,
      fun hsec hfit => ?_⟩⟩, fun hen hpri hsec => ?_⟩
    · rw [packDevice_empty h, hframe]
    · rw [packDevice_pri_alone hen hpri ho hwait, hframe]
    · rw [packDevice_both hen hpri ho hsec hfit]
      exact ⟨fun e he => by rw [he]; rfl, fun b2 o2 ho2 => by rw [ho2, ← hframe]; rfl⟩
    · rw [packDevice_sec_alone hen hpri hsec]
      exact ⟨fun e he => by rw [he]; rfl, fun b2 o2 ho2 => by rw [ho2, ← Nat.zero_mod 65536, ← hframe]; rfl⟩

/-! # ISSUE packs every device or none (spec/41_dual_slot_packer.md R186, R187) -/

section
variable {p : Params} {id : Byte} {ls : List Lane}

/-- `packAll_ok`, device by device. -/
theorem packAll_eq_ok_iff {ls' : List Lane} :
    packAll p id ls = .ok ls' ↔ ls'.length = ls.length ∧
      ∀ (d : Nat) (l : Lane), ls[d]? = some l → ∃ l', ls'[d]? = some l' ∧ packDevice p id l = .ok l' := by
  rw [packAll_ok, List.forall₂_iff_get]
  constructor
  · rintro ⟨hlen, hget⟩
    refine ⟨hlen.symm, fun d l hl => ?_⟩
    obtain ⟨hd, rfl⟩ := List.getElem?_eq_some_iff.mp hl
    exact ⟨_, List.getElem?_eq_getElem (hlen ▸ hd), hget d hd (hlen ▸ hd)⟩
  · rintro ⟨hlen, hget⟩
    refine ⟨hlen.symm, fun d hd hd' => ?_⟩
    obtain ⟨l', hl', hpack⟩ := hget d _ (List.getElem?_eq_getElem hd)
    obtain rfl : ls'[d] = l' := Option.some.inj ((List.getElem?_eq_getElem hd').symm.trans hl')
    exact hpack

/-- A batch fails with the error of the first device that fails. -/
theorem packAll_eq_error_iff {e : HostError} :
    packAll p id ls = .error e ↔ ∃ (d : Nat) (l : Lane), ls[d]? = some l ∧ packDevice p id l = .error e ∧
      ∀ (d' : Nat) (l' : Lane), d' < d → ls[d']? = some l' → ∃ l'', packDevice p id l' = .ok l'' := by
  induction ls with
  | nil => simp [packAll]
  | cons l0 ls ih =>
    cases h0 : packDevice p id l0 with
    | error e0 =>
      have hall : packAll p id (l0 :: ls) = .error e0 := by simp [packAll, h0]
      rw [hall]
      constructor
      · rintro ⟨⟩
        exact ⟨0, l0, rfl, h0, fun d' _ hd' => absurd hd' d'.not_lt_zero⟩
      · rintro ⟨d, l, hl, he, hbefore⟩
        cases d with
        | zero =>
          cases hl
          cases h0.symm.trans he
          rfl
        | succ d =>
          obtain ⟨l', hl'⟩ := hbefore 0 l0 d.succ_pos rfl
          cases h0.symm.trans hl'
    | ok l0' =>
      have hall : packAll p id (l0 :: ls) = .error e ↔ packAll p id ls = .error e := by
        cases ht : packAll p id ls <;> simp [packAll, h0, ht]
      rw [hall, ih]
      constructor
      · rintro ⟨d, l, hl, he, hbefore⟩
        refine ⟨d + 1, l, hl, he, fun d' l' hd' hl' => ?_⟩
        cases d' with
        | zero =>
          cases hl'
          exact ⟨l0', h0⟩
        | succ d' => exact hbefore d' l' (Nat.lt_of_succ_lt_succ hd') hl'
      · rintro ⟨d, l, hl, he, hbefore⟩
        cases d with
        | zero =>
          cases hl
          cases h0.symm.trans he
        | succ d => exact ⟨d, l, hl, he, fun d' l' hd' => hbefore (d' + 1) l' (Nat.succ_lt_succ hd')⟩

end

/-- Settles O42: a pack for every device is a batch. -/
theorem issuePacksEveryDevice : Obligations.IssuePacksEveryDevice := by
  intro s ls hlen hpack
  exact execIssue_next.mpr (.inr ⟨ls, packAll_eq_ok_iff.mpr ⟨hlen, hpack⟩, rfl⟩)

/-- Settles O44: the batch fails with the first failing device's error. -/
theorem issueErrorRestoresEverySlot : Obligations.IssueErrorRestoresEverySlot := by
  intro s d l e hl he hbefore
  exact execIssue_next.mpr (.inl ⟨e, packAll_eq_error_iff.mpr ⟨d, l, hl, he, hbefore⟩, rfl⟩)

/-- ISSUE that returns `ok` has packed every device. -/
theorem packDevice_of_issue_ok {s t : State} (h : exec .issue s = .next t) (hret : t.ret = .ok) {d : Nat} {l l' : Lane}
    (hl : s.lanes[d]? = some l) (hl' : t.lanes[d]? = some l') :
    t.msgId = s.msgId + 1 ∧ packDevice s.params (s.msgId + 1) l = .ok l' := by
  obtain ⟨e, -, rfl⟩ | ⟨ls, hls, rfl⟩ := execIssue_next.mp h
  · cases hret
  · obtain ⟨l'', hl'', hpack⟩ := (packAll_eq_ok_iff.mp hls).2 d l hl
    cases hl''.symm.trans hl'
    exact ⟨rfl, hpack⟩

/-! # A slot within its bounds packs (spec/40_fragment_codec.md R151, R154, R157) -/

/-- What the slot needs fits a frame's payload, and its pack succeeds in every window that holds it. -/
def Packable (p : Params) (o : OpSlot) : Prop :=
  requiredSize p o ≤ p.n ∧ ∀ budget, requiredSize p o ≤ budget → ∃ bs o', packSlot p o budget = .ok (bs, o')

/-- No continuation needs more than the first fragment (R145). -/
theorem streamNeed_le_first (p : Params) (k : Kind) (sent : Nat) : streamNeed p k sent ≤ streamNeed p k 0 := by
  rw [streamNeed_eq, streamNeed_eq]
  cases k <;> split <;> simp

theorem packable_streamSlot {p : Params} {k : Kind} {o : StreamOp} (ss : U32) (sent : Nat) (hmin : unitsMin p k ≤ o.data.length)
    (hmax : o.data.length ≤ unitsMax p k) (hfit : streamNeed p k 0 ≤ p.n) : Packable p (streamSlot k o ss sent false) := by
  have hneed : requiredSize p (streamSlot k o ss sent false) = streamNeed p k sent := by cases k <;> rfl
  rw [Packable, hneed]
  refine ⟨(streamNeed_le_first p k sent).trans hfit, fun budget hbudget => ?_⟩
  rw [packSlot_streamSlot, packStream_ok.mpr ⟨rfl, fun _ => hmax, hbudget, rfl, rfl, fun _ => hmin, rfl⟩]
  exact ⟨_, _, rfl⟩

theorem packable_atomic {p : Params} (tag : Byte) {body : List Byte} (hfit : 1 + body.length ≤ p.n) :
    Packable p (.atomic tag body false) :=
  ⟨hfit, fun _ hbudget => ⟨_, _, if_neg (Nat.not_lt.mpr hbudget)⟩⟩

/-- A device whose undone slots are packable packs. -/
theorem packDevice_of_packable {p : Params} {l : Lane} (id : Byte)
    (h : l.enabled = true → ∀ ix, (l.op ix).done = false → Packable p (l.op ix)) : ∃ l', packDevice p id l = .ok l' := by
  cases hen : l.enabled with
  | false => exact ⟨_, packDevice_empty (.inl hen)⟩
  | true =>
    cases hpri : l.pri.done with
    | true =>
      cases hsec : l.sec.done with
      | true => exact ⟨_, packDevice_empty (.inr ⟨hpri, hsec⟩)⟩
      | false =>
        obtain ⟨hroom, hpack⟩ := h hen .sec hsec
        obtain ⟨bs, o, ho⟩ := hpack _ hroom
        exact ⟨_, (packDevice_sec_alone hen hpri hsec).trans (congrArg _ ho)⟩
    | false =>
      obtain ⟨hroom, hpack⟩ := h hen .pri hpri
      obtain ⟨bs, o, ho⟩ := hpack _ hroom
      by_cases hwait : l.sec.done = true ∨ p.n - bs.length < requiredSize p l.sec
      · exact ⟨_, packDevice_pri_alone hen hpri ho hwait⟩
      · obtain ⟨hsec, hfit⟩ := not_or.mp hwait
        rw [Bool.not_eq_true] at hsec
        rw [Nat.not_lt] at hfit
        obtain ⟨bs2, o2, ho2⟩ := (h hen .sec hsec).2 _ hfit
        exact ⟨_, (packDevice_both hen hpri ho hsec hfit).trans (congrArg _ ho2)⟩

/-- Settles O43: every device packs, so the batch is no error. -/
theorem issueSucceedsWithinTheBounds : Obligations.IssueSucceedsWithinTheBounds := by
  intro s hbounds
  have hpackable : ∀ l ∈ s.lanes, l.enabled = true → ∀ ix, (l.op ix).done = false → Packable s.params (l.op ix) := by
    intro l hl hen ix hundone
    have hb := hbounds l hl hen ix hundone
    generalize l.op ix = o at hundone hb
    cases o with
    | null => cases hundone
    | mod o sent done =>
      cases hundone
      obtain ⟨hmin, hmax, hfit⟩ := hb
      exact packable_streamSlot (k := .mod) 0 sent hmin hmax hfit
    | foci o ss sent done =>
      cases hundone
      obtain ⟨hmin, hmax, hfit⟩ := hb
      exact packable_streamSlot (k := .foci) ss sent hmin hmax hfit
    | atomic tag body done =>
      cases hundone
      exact packable_atomic tag hb
  cases hall : packAll s.params (s.msgId + 1) s.lanes with
  | error e =>
    obtain ⟨d, l, hl, he, -⟩ := packAll_eq_error_iff.mp hall
    obtain ⟨l', hl'⟩ := packDevice_of_packable (s.msgId + 1) (hpackable l (List.mem_of_getElem? hl))
    cases he.symm.trans hl'
  | ok ls =>
    obtain ⟨hlen, hlanes⟩ := packAll_eq_ok_iff.mp hall
    refine ⟨ls, execIssue_next.mpr (.inr ⟨ls, hall, rfl⟩), hlen, fun d l hl => ?_⟩
    obtain ⟨l', hl', hpack⟩ := hlanes d l hl
    obtain ⟨B, o1, o2, rfl, hkept⟩ := packDevice_keeps_unpacked hpack
    exact ⟨B, o1, o2, hl', hkept⟩

/-! # The frames ISSUE builds (spec/41_dual_slot_packer.md R188) -/

/-- A frame whose offset is below `N` and whose slots fit it: header bytes, the offset they give, and a zero-filled payload. -/
theorem batchFrame_shape {p : Params} {id : Byte} {o : Nat} {slots : List Byte} (hn : p.n ≤ 0xFFFF) (ho : o < p.n)
    (hs : slots.length ≤ p.n) :
    ∃ (b2 b3 : Byte) (pay : List Byte), batchFrame p id o slots = id :: 0x00 :: b2 :: b3 :: pay ∧ pay.length = p.n ∧
      b2.toNat + 256 * b3.toNat = o ∧ pay = slots ++ List.replicate (p.n - slots.length) 0x00 :=
  ⟨_, _, _, batchFrame_eq p id o slots, fillPayload_length hs, (offsetBytes_toNat o).trans (Nat.mod_eq_of_lt (by omega)), rfl⟩

/-- Settles O46: the frame of each branch of PACK_DEVICE. A primary's fragment is not empty, so the offset of a secondary
beside it is not 0. -/
theorem issuedFramesAreWellShaped : Obligations.IssuedFramesAreWellShaped := by
  intro s t hinv ht hret d l l' hl hl'
  obtain ⟨hid, hpack⟩ := packDevice_of_issue_ok ht hret hl hl'
  have hok := hinv.lanes_ok l (List.mem_of_getElem? hl)
  have hpos := hinv.params_ok.n_pos
  have hshape := fun o slots => batchFrame_shape (id := s.msgId + 1) (o := o) (slots := slots) hinv.params_ok.n_le
  rw [hid]
  obtain ⟨hidle, rfl⟩ | ⟨bs, o, hen, hpri, ho, rfl⟩ | ⟨bs, o, bs2, o2, hen, hpri, hsec, ho, hfit, ho2, rfl⟩ |
    ⟨bs, o, hen, hpri, hsec, ho, rfl⟩ := packDevice_ok hpack
  case inl =>
    obtain ⟨b2, b3, pay, hB, hlen, hoff, hpay⟩ := hshape 0 [] hpos (Nat.zero_le _)
    exact ⟨b2, b3, pay, hB, hlen, hoff.trans_lt hpos, fun _ => .inl ⟨hpay, rfl, rfl, hidle⟩, fun h0 => absurd hoff h0⟩
  case inr.inl =>
    obtain ⟨b2, b3, pay, hB, hlen, hoff, hpay⟩ := hshape 0 bs hpos (packSlot_length_le hok.pri_ok ho)
    exact ⟨b2, b3, pay, hB, hlen, hoff.trans_lt hpos, fun _ => .inr (.inl ⟨bs, hpay, hen, hpri, rfl, ho⟩),
      fun h0 => absurd hoff h0⟩
  case inr.inr.inl =>
    have hlen1 := packSlot_length_pos ho
    have hroom := requiredSize_pos (p := s.params) hsec
    have hlen2 := packSlot_length_le hok.sec_ok ho2
    have hbelow : bs.length < s.params.n := by omega
    obtain ⟨b2, b3, pay, hB, hlen, hoff, hpay⟩ :=
      hshape bs.length (bs ++ bs2) hbelow (by rw [List.length_append]; omega)
    refine ⟨b2, b3, pay, hB, hlen, hoff.trans_lt hbelow, fun h0 => ?_, fun _ => ?_⟩
    · exact absurd (hoff.symm.trans h0) (Nat.ne_of_gt hlen1)
    · exact ⟨bs, bs2, hpay, hoff.symm, hen, hpri, hsec, ho, by rw [hoff]; exact ho2⟩
  case inr.inr.inr =>
    obtain ⟨b2, b3, pay, hB, hlen, hoff, hpay⟩ := hshape 0 bs hpos (packSlot_length_le hok.sec_ok ho)
    exact ⟨b2, b3, pay, hB, hlen, hoff.trans_lt hpos, fun _ => .inr (.inr ⟨bs, hpay, hen, hpri, hsec, rfl, ho⟩),
      fun h0 => absurd hoff h0⟩

end Sys2Proof.Machine

namespace Sys2Proof.Machine

open Sys2Proof

/-! # A fragment's checks, one by one (spec/42_frame_deserializer.md R215) -/

theorem flagsBad_iff {f : FragFlags} : flagsBad f = true ↔ f.resv ≠ 0 ∨ (f.trans = true ∧ f.last = false) := by
  simp [flagsBad]

theorem flagsBad_eq_false_iff {f : FragFlags} : flagsBad f = false ↔ f.resv = 0 ∧ (f.trans = true → f.last = true) := by
  simp [flagsBad]

/-- The padded payload in numbers (spec/30_encoding.md R108): whole pairs of samples, or whole records. -/
theorem payloadBytes_eq (p : Params) (k : Kind) (n : Nat) :
    payloadBytes p k n = if k = .mod then n + n % 2 else n * p.fociRecBytes := by
  cases k <;> simp [payloadBytes, padEven, unitBytes, roundUpEven]

theorem boundsError_some {p : Params} {k : Kind} {f : FragFlags} {total : Nat}
    (h : unitsMax p k < total ∨ (f.last = true ∧ total < unitsMin p k)) :
    boundsError p k f total = some eSizeOutOfRange := by
  unfold boundsError
  split_ifs with hmax hmin
  · rfl
  · rfl
  · simp only [Bool.and_eq_true, decide_eq_true_eq] at hmin
    exact absurd h (not_or.mpr ⟨hmax, hmin⟩)

/-- `hdr` is the header a fragment is judged by and `base` the unit offset it starts at: its own header at 0 for a first fragment,
the latched one at the stream's count for a continuation of an active stream. -/
def InForce (new : Option Latch) (st : Reasm) (hdr : Latch) (base : Nat) : Prop :=
  (new = some hdr ∧ base = 0) ∨ (new = none ∧ st = ⟨true, base, hdr⟩)

section
variable {p : Params} {k : Kind} {f : FragFlags} {n : Nat} {new : Option Latch} {room : Nat} {st : Reasm}

theorem checkFragment_badFlags (h : flagsBad f = true) : checkFragment p k f n new room st = .error eInvalidFlags :=
  if_pos h

theorem checkFragment_short (hf : flagsBad f = false) (h : n = 0 ∨ room < payloadBytes p k n) :
    checkFragment p k f n new room st = .error eInvalidSlot := by
  unfold checkFragment
  rw [if_neg (by simp [hf])]
  by_cases hn : n = 0
  · rw [if_pos hn]
  · rw [if_neg hn, if_pos (h.resolve_left hn)]

/-- The checks up to the payload's length are passed. -/
structure WellSized (p : Params) (k : Kind) (f : FragFlags) (n room : Nat) : Prop where
  flags_ok : flagsBad f = false
  pos      : n ≠ 0
  room_ok  : payloadBytes p k n ≤ room

/-- Past the length check, what is left of the checks. -/
theorem WellSized.checkFragment_eq (h : WellSized p k f n room) :
    checkFragment p k f n new room st = if (new.isNone && !st.active) = true then .error eInvalidSequence
      else if (f.trans && !tmValid (new.getD st.latch).modeCode (new.getD st.latch).value) = true then .error eInvalidTransition
      else (boundsError p k f ((if new.isSome = true then 0 else st.count) + n)).elim
        (.ok (new.getD st.latch, if new.isSome = true then 0 else st.count)) .error := by
  unfold checkFragment
  rw [if_neg (by simp [h.flags_ok]), if_neg h.pos, if_neg (Nat.not_lt.mpr h.room_ok)]
  dsimp only
  cases boundsError p k f ((if new.isSome = true then 0 else st.count) + n) <;> rfl

theorem checkFragment_inactive (h : WellSized p k f n room) (hnew : new = none) (hact : st.active = false) :
    checkFragment p k f n new room st = .error eInvalidSequence := by
  rw [h.checkFragment_eq, if_pos (by simp [hnew, hact])]

variable {hdr : Latch} {base : Nat}

theorem InForce.parts (h : InForce new st hdr base) :
    (new.isNone && !st.active) = false ∧ new.getD st.latch = hdr ∧ (if new.isSome = true then 0 else st.count) = base := by
  obtain ⟨rfl, rfl⟩ | ⟨rfl, rfl⟩ := h <;> exact ⟨rfl, rfl, rfl⟩

theorem checkFragment_badTransition (h : WellSized p k f n room) (hforce : InForce new st hdr base) (htrans : f.trans = true)
    (hbad : tmValid hdr.modeCode hdr.value = false) : checkFragment p k f n new room st = .error eInvalidTransition := by
  obtain ⟨hact, hhdr, -⟩ := hforce.parts
  rw [h.checkFragment_eq, if_neg (by simp [hact]), hhdr, if_pos (by simp [htrans, hbad])]

theorem checkFragment_outOfRange (h : WellSized p k f n room) (hforce : InForce new st hdr base)
    (htm : f.trans = true → tmValid hdr.modeCode hdr.value = true)
    (hbad : unitsMax p k < base + n ∨ (f.last = true ∧ base + n < unitsMin p k)) :
    checkFragment p k f n new room st = .error eSizeOutOfRange := by
  obtain ⟨hact, hhdr, hbase⟩ := hforce.parts
  rw [h.checkFragment_eq, if_neg (by simp [hact]), hhdr, hbase, if_neg (by simpa using htm),
    boundsError_some hbad, Option.elim_some]

theorem checkFragment_accepted (h : WellSized p k f n room) (hforce : InForce new st hdr base)
    (htm : f.trans = true → tmValid hdr.modeCode hdr.value = true) (hmax : base + n ≤ unitsMax p k)
    (hmin : f.last = true → unitsMin p k ≤ base + n) : checkFragment p k f n new room st = .ok (hdr, base) := by
  obtain ⟨hact, hhdr, hbase⟩ := hforce.parts
  rw [h.checkFragment_eq, if_neg (by simp [hact]), hhdr, hbase, if_neg (by simpa using htm),
    boundsError_none.mpr ⟨hmax, hmin⟩, Option.elim_none]

end

/-! # What a fragment does to its device (spec/42_frame_deserializer.md R222, R226, R228) -/

section
variable {p : Params} {k : Kind} {f : FragFlags} {n : Nat} {new : Option Latch} {tail : List Byte} {dev : Device}

theorem runFragment_of_error {e : Byte} (h : checkFragment p k f n new tail.length (dev.reasm.get k f.seg) = .error e) :
    runFragment p k f n new tail dev = (abortedDevice dev k f.seg, e) := by
  rw [runFragment, h, Device.abort_eq]

theorem runFragment_of_ok {hdr : Latch} {base : Nat}
    (h : checkFragment p k f n new tail.length (dev.reasm.get k f.seg) = .ok (hdr, base)) :
    runFragment p k f n new tail dev = (acceptFragment p k f n hdr base tail dev, eNone) := by
  rw [runFragment, h]

theorem abortedDevice_onlyStream (dev : Device) (k : Kind) (seg : Segment) : OnlyStream dev (abortedDevice dev k seg) k seg where
  ack_eq := rfl
  consumer_eq := rfl
  reasm_eq := fun _ _ h => Streams.get_set_ne _ _ _ _ _ _ h
  bytes_eq := fun _ _ _ _ => rfl

theorem acceptFragment_onlyStream (hdr : Latch) (base : Nat) :
    OnlyStream dev (acceptFragment p k f n hdr base tail dev) k f.seg where
  ack_eq := rfl
  consumer_eq := rfl
  reasm_eq := fun _ _ h => Streams.get_set_ne _ _ _ _ _ _ h
  bytes_eq := fun _ _ a h => congrArg (Memory.read · a) (Streams.get_set_ne _ _ _ _ _ _ h)

/-- The payload's bytes stand in the segment buffer from the unit offset on, and every other byte is as it was (R222). -/
theorem acceptFragment_segByte (hdr : Latch) (base a : Nat) (hroom : payloadBytes p k n ≤ tail.length) :
    (acceptFragment p k f n hdr base tail dev).segByte k f.seg a =
      if base * unitBytes p k ≤ a ∧ a < (base + n) * unitBytes p k then tail[a - base * unitBytes p k]?
      else dev.segByte k f.seg a := by
  have hfit := (units_le_payloadBytes p k n).trans hroom
  simp only [Device.segByte, acceptFragment, Streams.get_set, Memory.read_writeBytes, List.length_take, Nat.min_eq_left hfit,
    Nat.add_mul]
  split_ifs with hin
  · exact List.getElem?_take_of_lt (by omega)
  · rfl

end

/-- A fragment as an instruction runs on its own device. -/
theorem exec_of_fragView {i : Instr} {v : FragView} (s : State) (h : fragView i = some v) :
    exec i s = s.onDevice v.d (runFragment s.params v.k v.flags v.n v.hdr v.tail) := by
  cases i with
  | modFirst | modCont | fociFirst | fociCont => cases h; rfl
  | _ => cases h

section
variable {s : State} {i : Instr} {v : FragView} {l : Lane}

theorem exec_fragment_rejected (hv : fragView i = some v) (hl : s.lanes[v.d]? = some l) {e : Byte}
    (h : checkFragment s.params v.k v.flags v.n v.hdr v.tail.length (l.rx.reasm.get v.k v.flags.seg) = .error e) :
    exec i s = .next (withLane s v.d { l with rx := abortedDevice l.rx v.k v.flags.seg } (.slotErr e)) := by
  rw [exec_of_fragView s hv, onDevice_next]
  exact ⟨l, hl, by rw [runFragment_of_error h]⟩

/-- An accepted fragment: the device it leaves, in the terms of the four accept statements. -/
theorem exec_fragment_accepted (hv : fragView i = some v) (hl : s.lanes[v.d]? = some l) {hdr : Latch} {base : Nat}
    (hforce : InForce v.hdr (l.rx.reasm.get v.k v.flags.seg) hdr base) (hresv : v.flags.resv = 0)
    (htrans : v.flags.trans = true → v.flags.last = true ∧ tmValid hdr.modeCode hdr.value = true) (hpos : 1 ≤ v.n)
    (hroom : (if v.k = .mod then v.n + v.n % 2 else v.n * s.params.fociRecBytes) ≤ v.tail.length)
    (hmax : base + v.n ≤ unitsMax s.params v.k)
    (hmin : v.flags.last = true → unitsMin s.params v.k ≤ base + v.n) :
    ∃ dev, exec i s = .next (withLane s v.d { l with rx := dev } (.slotErr 0x00)) ∧
      dev.reasm.get v.k v.flags.seg = ⟨!v.flags.last, base + v.n, hdr⟩ ∧
      (∀ a, dev.segByte v.k v.flags.seg a =
        if base * unitBytes s.params v.k ≤ a ∧ a < (base + v.n) * unitBytes s.params v.k
        then v.tail[a - base * unitBytes s.params v.k]? else l.rx.segByte v.k v.flags.seg a) ∧
      OnlyStream l.rx dev v.k v.flags.seg ∧
      dev.events = l.rx.events ++ (if v.flags.last then [setEvent v.k v.flags hdr (base + v.n)] else []) := by
  rw [← payloadBytes_eq] at hroom
  have hsized : WellSized s.params v.k v.flags v.n v.tail.length :=
    ⟨flagsBad_eq_false_iff.mpr ⟨hresv, fun h => (htrans h).1⟩, Nat.ne_of_gt hpos, hroom⟩
  have hrun := runFragment_of_ok (checkFragment_accepted hsized hforce (fun h => (htrans h).2) hmax hmin)
  refine ⟨acceptFragment s.params v.k v.flags v.n hdr base v.tail l.rx, ?_, acceptFragment_reasm_get .., fun a =>
    acceptFragment_segByte hdr base a hroom, acceptFragment_onlyStream hdr base, rfl⟩
  rw [exec_of_fragView s hv, onDevice_next]
  exact ⟨l, hl, by rw [hrun]; rfl⟩

end

/-! # The four streaming formats, accepted -/

theorem repDec_mod_eq (w : U32) : repDec .mod w.toNat = if w = 0xFFFF then .infinite else .finite (w.toNat + 1) :=
  if_congr (by simp [repInfinite, ← BitVec.toNat_inj]) rfl rfl

theorem repDec_foci_eq (w : U32) : repDec .foci w.toNat = if w = 0xFFFFFFFF then .infinite else .finite (w.toNat + 1) :=
  if_congr (by simp [repInfinite, ← BitVec.toNat_inj]) rfl rfl

/-- A MOD header's 16-bit repeat count, held in 32 bits. -/
theorem repDec_mod_setWidth (r : U16) :
    repDec .mod (r.setWidth 32).toNat = if r = 0xFFFF then .infinite else .finite (r.toNat + 1) := by
  have hr : (r.setWidth 32).toNat = r.toNat := BitVec.toNat_setWidth_of_le (by decide)
  rw [hr]
  exact if_congr (by simp [repInfinite, ← BitVec.toNat_inj]) rfl rfl

/-- Settles O17: a first fragment is judged by its own header and starts at unit 0. -/
theorem modFirstStartsAStream : Obligations.ModFirstStartsAStream := by
  intro s d l h tail hl hresv htrans hpos hroom hmax hmin
  obtain ⟨dev, hexec, hreasm, hbytes, honly, hevents⟩ := exec_fragment_accepted (i := .modFirst d h tail) rfl hl
    (.inl ⟨rfl, rfl⟩) hresv htrans hpos hroom (by rwa [Nat.zero_add]) (by rwa [Nat.zero_add])
  simp only [Nat.zero_add, Nat.zero_le, true_and, Nat.sub_zero, unitBytes, Nat.mul_one] at hreasm hbytes hevents
  rw [setEvent, repDec_mod_setWidth] at hevents
  exact ⟨dev, hexec, hreasm, hbytes, honly, hevents⟩

/-- Settles O18: a continuation is judged by the latched header and starts at the stream's count. -/
theorem modContAppends : Obligations.ModContAppends := by
  intro s d l h tail n la hl hst hresv htrans hpos hroom hmax hmin
  obtain ⟨dev, hexec, hreasm, hbytes, honly, hevents⟩ := exec_fragment_accepted (i := .modCont d h tail) rfl hl
    (.inr ⟨rfl, hst⟩) hresv htrans hpos hroom hmax hmin
  simp only [unitBytes, Nat.mul_one] at hbytes
  rw [setEvent, repDec_mod_eq] at hevents
  exact ⟨dev, hexec, hreasm, hbytes, honly, hevents⟩

/-- Settles O19. -/
theorem fociFirstStartsAStream : Obligations.FociFirstStartsAStream := by
  intro s d l h tail hl hresv htrans hpos hroom hmax hmin
  obtain ⟨dev, hexec, hreasm, hbytes, honly, hevents⟩ := exec_fragment_accepted (i := .fociFirst d h tail) rfl hl
    (.inl ⟨rfl, rfl⟩) hresv htrans hpos hroom (by rwa [Nat.zero_add]) (by rwa [Nat.zero_add])
  simp only [Nat.zero_add, Nat.zero_mul, Nat.zero_le, true_and, Nat.sub_zero, unitBytes] at hreasm hbytes hevents
  rw [setEvent, repDec_foci_eq] at hevents
  exact ⟨dev, hexec, hreasm, hbytes, honly, hevents⟩

/-- Settles O20. -/
theorem fociContAppends : Obligations.FociContAppends := by
  intro s d l h tail n la hl hst hresv htrans hpos hroom hmax hmin
  obtain ⟨dev, hexec, hreasm, hbytes, honly, hevents⟩ := exec_fragment_accepted (i := .fociCont d h tail) rfl hl
    (.inr ⟨rfl, hst⟩) hresv htrans hpos hroom hmax hmin
  rw [setEvent, repDec_foci_eq] at hevents
  exact ⟨dev, hexec, hreasm, hbytes, honly, hevents⟩

/-! # Rejected fragments -/

/-- Settles O21. -/
theorem badFlagsAbort : Obligations.BadFlagsAbort := fun _ _ _ _ hv hl hbad =>
  exec_fragment_rejected hv hl (checkFragment_badFlags (flagsBad_iff.mpr hbad))

/-- Settles O22. -/
theorem shortOrEmptyFragmentsAbort : Obligations.ShortOrEmptyFragmentsAbort := by
  intro s i v l hv hl hresv htrans hshort
  rw [← payloadBytes_eq] at hshort
  exact exec_fragment_rejected hv hl (checkFragment_short (flagsBad_eq_false_iff.mpr ⟨hresv, htrans⟩) hshort)

/-- Settles O23. -/
theorem continuationNeedsAStart : Obligations.ContinuationNeedsAStart := by
  intro s i v l hv hl hcont hact hresv htrans hpos hroom
  rw [← payloadBytes_eq] at hroom
  exact exec_fragment_rejected hv hl
    (checkFragment_inactive ⟨flagsBad_eq_false_iff.mpr ⟨hresv, htrans⟩, hpos, hroom⟩ hcont hact)

/-- Settles O24. -/
theorem badTransitionOrSizeAborts : Obligations.BadTransitionOrSizeAborts := by
  intro s i v l hdr base hv hl hforce hresv htrans hpos hroom
  rw [← payloadBytes_eq] at hroom
  have hsized : WellSized s.params v.k v.flags v.n v.tail.length :=
    ⟨flagsBad_eq_false_iff.mpr ⟨hresv, htrans⟩, hpos, hroom⟩
  refine ⟨fun ⟨ht, hbad⟩ => ?_, fun htm hbad => ?_⟩
  · exact exec_fragment_rejected hv hl (checkFragment_badTransition hsized hforce ht hbad)
  · refine exec_fragment_rejected hv hl (checkFragment_outOfRange hsized hforce htm ?_)
    cases hk : v.k <;> simpa [hk, unitsMax, unitsMin] using hbad

end Sys2Proof.Machine

namespace Sys2Proof.Machine

open Sys2Proof

/-! # Bytes that are no slot format (spec/42_frame_deserializer.md R206, R212, R215) -/

theorem kindTag_eq (k : Kind) : k.tag = if k = .mod then 0x10 else 0x40 := by
  cases k <;> rfl

theorem kindHeader_eq (k : Kind) (first : Bool) :
    k.header first = if first then (if k = .mod then 16 else 24) else 4 := by
  cases k <;> cases first <;> rfl

/-- The fragment decoder refuses a tag with no flags byte, and a header cut short. -/
theorem decodeFragment_error {k : Kind} {tag : Byte} {rest : List Byte} {r : SlotReject} :
    decodeFragment k (tag :: rest) = .error r ↔
      (rest = [] ∧ r = .noFlags k) ∨
      (∃ fl rest', rest = fl :: rest' ∧ r = .shortHeader k (beginOf fl) (flagsOf fl) ∧
        (tag :: rest).length < k.header (beginOf fl)) := by
  cases rest with
  | nil =>
    have hnil : decodeFragment k [tag] = .error (.noFlags k) := rfl
    simp [hnil, eq_comm]
  | cons fl rest' =>
    rw [decodeFragment_cons_cons]
    split_ifs with hshort
    · constructor
      · rintro ⟨⟩
        exact .inr ⟨fl, rest', rfl, rfl, hshort⟩
      · rintro (⟨⟨⟩, -⟩ | ⟨fl, rest', ⟨⟩, rfl, -⟩)
        rfl
    · constructor
      · rintro ⟨⟩
      · rintro (⟨⟨⟩, -⟩ | ⟨fl, rest', ⟨⟩, -, hlt⟩)
        exact absurd hlt hshort

/-- The slot decoder refuses the empty string, a tag in no class, and what the fragment decoder of its tag refuses. -/
theorem decodeSlot_error {tags B : List Byte} {r : SlotReject} :
    decodeSlot tags B = .error r ↔
      (r = .noTag ∧ B = []) ∨
      (∃ t rest, B = t :: rest ∧ r = .unknownTag t ∧ t ≠ tagNone ∧ t ∉ tags ∧ t ≠ tagMod ∧ t ≠ tagFoci) ∨
      (∃ k rest, B = Kind.tag k :: rest ∧ k.tag ∉ tags ∧ decodeFragment k B = .error r) := by
  constructor
  · intro h
    cases B with
    | nil => exact .inl ⟨(Except.error.inj h).symm, rfl⟩
    | cons tag rest =>
      rw [decodeSlot] at h
      split_ifs at h with hnone hmem hmod hfoci
      · exact .inr (.inr ⟨.mod, rest, by rw [hmod]; rfl, fun hm => hmem (hmod ▸ hm), h⟩)
      · exact .inr (.inr ⟨.foci, rest, by rw [hfoci]; rfl, fun hm => hmem (hfoci ▸ hm), h⟩)
      · exact .inr (.inl ⟨tag, rest, rfl, (Except.error.inj h).symm, hnone, hmem, hmod, hfoci⟩)
  · rintro (⟨rfl, rfl⟩ | ⟨t, rest, rfl, rfl, hnone, hmem, hmod, hfoci⟩ | ⟨k, rest, rfl, hmem, h⟩)
    · rfl
    · rw [decodeSlot, if_neg hnone, if_neg hmem, if_neg hmod, if_neg hfoci]
    · rw [decodeSlot_streamTag rest hmem, h]

/-- Settles O3: under disjoint classes a streaming tag is no ATOMIC tag. -/
theorem slotDecodeRefusesByName : Obligations.SlotDecodeRefusesByName := by
  intro tags B r hnone hmod hfoci
  have hstream : ∀ k : Kind, k.tag ∉ tags := fun k => by cases k <;> assumption
  simp only [← kindTag_eq, ← kindHeader_eq]
  refine decodeSlot_error.trans (or_congr Iff.rfl (or_congr Iff.rfl ?_))
  constructor
  · rintro ⟨k, rest, rfl, -, h⟩
    obtain ⟨rfl, rfl⟩ | ⟨fl, rest', rfl, rfl, hlt⟩ := decodeFragment_error.mp h
    · exact .inl ⟨k, rfl, rfl⟩
    · exact .inr ⟨k, fl, rest', rfl, rfl, hlt⟩
  · rintro (⟨k, rfl, rfl⟩ | ⟨k, fl, rest, rfl, rfl, hlt⟩)
    · exact ⟨k, [], rfl, hstream k, decodeFragment_error.mpr (.inl ⟨rfl, rfl⟩)⟩
    · exact ⟨k, fl :: rest, rfl, hstream k, decodeFragment_error.mpr (.inr ⟨fl, rest, rfl, rfl, hlt⟩)⟩

theorem rxSlot_of_reject {p : Params} {B : List Byte} {r : SlotReject} (h : decodeSlot p.atomicTags B = .error r) (dev : Device) :
    rxSlot p B dev = rejectSlot r dev := by
  rw [rxSlot, h]

/-- No refusal is error-free. -/
theorem rejectSlot_ne_eNone (r : SlotReject) (dev : Device) : (rejectSlot r dev).2 ≠ eNone := by
  cases r with
  | shortHeader k first f =>
    simp only [rejectSlot]
    split_ifs <;> decide
  | _ => simp [rejectSlot, eNone, eInvalidSlot, eInvalidTag]

/-! # EMPTY and ATOMIC slots (spec/42_frame_deserializer.md R205, R225) -/

/-- A slot instruction on an existing device. -/
theorem exec_slot {sl : Slot} {d : Nat} {i : Instr} {s : State} {l : Lane} (hi : sl.toInstr d = some i)
    (hl : s.lanes[d]? = some l) :
    exec i s = .next (withLane s d { l with rx := (runSlot s.params sl l.rx).1 } (.slotErr (runSlot s.params sl l.rx).2)) :=
  (exec_of_toInstr s hi).trans (onDevice_next.mpr ⟨l, hl, rfl⟩)

/-- Settles O16. -/
theorem emptySlotDoesNothing : Obligations.EmptySlotDoesNothing := by
  intro s d rest hd
  have hl := List.getElem?_eq_getElem hd
  rw [exec_slot (sl := .empty rest) rfl hl]
  exact congrArg _ (withLane_self s d _ _ hl)

/-- A field that a line of the consumer's table names, or leaves open. -/
theorem optionAll_beq_iff {α : Type} [BEq α] [LawfulBEq α] {o : Option α} {x : α} :
    o.all (· == x) = true ↔ o = none ∨ o = some x := by
  cases o <;> simp

/-- When a line of the consumer's table applies (log entry 10). -/
theorem applies_iff {r : ConsumerRule} {st : Nat} {tag : Byte} {body : List Byte} :
    r.applies st tag body = true ↔
      (r.state = none ∨ r.state = some st) ∧ (r.tag = none ∨ r.tag = some tag) ∧ (r.body = none ∨ r.body = some body) := by
  simp only [ConsumerRule.applies, Bool.and_eq_true, optionAll_beq_iff, and_assoc]

theorem consume_of_first {c : Consumer} {tag : Byte} {body : List Byte} {before rest : List ConsumerRule} {r : ConsumerRule}
    (hc : c.rules = before ++ r :: rest) (hbefore : ∀ q ∈ before, ¬ q.applies c.state tag body = true)
    (hr : r.applies c.state tag body = true) :
    c.consume tag body = (r.answer, { c with state := r.next.getD c.state }) := by
  have hfind : c.rules.find? (fun r => r.applies c.state tag body) = some r :=
    List.find?_eq_some_iff_append.mpr ⟨hr, before, rest, hc, fun q hq => by simpa using hbefore q hq⟩
  rw [Consumer.consume, hfind]

theorem consume_of_none {c : Consumer} {tag : Byte} {body : List Byte}
    (h : ∀ q ∈ c.rules, ¬ q.applies c.state tag body = true) : c.consume tag body = (c.dflt, c) := by
  rw [Consumer.consume, List.find?_eq_none.mpr h]

/-- The five ATOMIC rows of the opcode table are ATOMIC slots. -/
theorem toInstr_of_atomicRow {d : Nat} {body : List Byte} {tag : Byte} {i : Instr}
    (h : (tag, i) ∈ [((0x11 : Byte), Instr.atomic11 d body), (0x30, .atomic30 d body), (0x31, .atomic31 d body),
      (0x42, .atomic42 d body), (0x60, .atomic60 d body)]) : (Slot.atomic tag body).toInstr d = some i := by
  simp only [List.mem_cons, Prod.mk.injEq, List.not_mem_nil, or_false] at h
  obtain ⟨rfl, rfl⟩ | ⟨rfl, rfl⟩ | ⟨rfl, rfl⟩ | ⟨rfl, rfl⟩ | ⟨rfl, rfl⟩ := h <;> rfl

/-- Settles O25: an ATOMIC slot alone and in a frame (`runSlot_atomic`), and the consumer's table. -/
theorem atomicSlotsGoToTheConsumer : Obligations.AtomicSlotsGoToTheConsumer := by
  refine ⟨fun s d l body tag i hl hrow => ⟨fun hnot => ?_, fun hmem => ?_⟩,
    fun s d l f tag body hl hlen hnew h0 hpay hmem htag => ?_, fun c tag body => ?_, rfl, fun c => ?_⟩
  · rw [exec_slot (toInstr_of_atomicRow hrow) hl, runSlot, slotAtomic, if_neg hnot]
    exact congrArg _ (withLane_self s d l _ hl)
  · rw [exec_slot (toInstr_of_atomicRow hrow) hl, runSlot_atomic body l.rx hmem]
    rfl
  · refine execFrame_next.mpr ⟨hlen, l, hl, ?_⟩
    rw [rxFrame_of_wholePayload _ hnew h0, hpay, rxSlot_of_decode (decodeSlot_atomic body hmem htag),
      runSlot_atomic body l.rx hmem]
    rfl
  · intro named
    have hnamed : ∀ r, r.applies c.state tag body = true ↔ named r := fun r => applies_iff
    simp only [← hnamed]
    exact ⟨fun before r rest => consume_of_first, consume_of_none⟩
  · exact Nat.mod_eq_of_lt (by omega)

/-! # What a frame does to a new device (spec/42_frame_deserializer.md R200, R203, R204, R229) -/

/-- Slot one, then slot two on the device slot one left, unless slot one gave an error. -/
def rxPair (p : Params) (B1 B2 : List Byte) (dev : Device) : Device × Byte :=
  if (rxSlot p B1 dev).2 = eNone then rxSlot p B2 (rxSlot p B1 dev).1 else rxSlot p B1 dev

theorem rxPair_of_ok {p : Params} {B1 : List Byte} {dev : Device} (B2 : List Byte) (h : (rxSlot p B1 dev).2 = eNone) :
    rxPair p B1 B2 dev = rxSlot p B2 (rxSlot p B1 dev).1 :=
  if_pos h

theorem rxPair_of_error {p : Params} {B1 : List Byte} {dev : Device} (B2 : List Byte) (h : (rxSlot p B1 dev).2 ≠ eNone) :
    rxPair p B1 B2 dev = rxSlot p B1 dev :=
  if_neg h

/-- A new frame with a slot-two offset below `N`. -/
theorem rxFrame_of_twoSlots {p : Params} {f : Frame} {dev : Device} (hnew : f.msgId ≠ dev.ack.id) (h0 : f.offset ≠ 0)
    (hlt : f.offset.toNat < p.n) :
    rxFrame p f dev =
      { (rxPair p (f.payload.take f.offset.toNat) (f.payload.drop f.offset.toNat) dev).1 with
        ack := ⟨f.msgId, (rxPair p (f.payload.take f.offset.toNat) (f.payload.drop f.offset.toNat) dev).2⟩ } := by
  have hin : ¬ (f.offset ≠ 0 ∧ p.n ≤ f.offset.toNat) := fun h => absurd h.2 (Nat.not_le.mpr hlt)
  rw [rxFrame, if_neg hnew, if_neg hin, rxSlots, if_neg h0]
  rfl

/-- A new frame with an offset from `N` up: no slot is decoded (R204). -/
theorem rxFrame_of_offsetOut {p : Params} {f : Frame} {dev : Device} (hnew : f.msgId ≠ dev.ack.id) (h0 : f.offset ≠ 0)
    (hge : p.n ≤ f.offset.toNat) : rxFrame p f dev = { dev with ack := ⟨f.msgId, eInvalidSlot⟩ } := by
  rw [rxFrame, if_neg hnew, if_pos ⟨h0, hge⟩]

/-- A frame's fields, from its four header bytes (spec/30_encoding.md R90, R93). -/
theorem decodeFrame_header (b0 b1 b2 b3 : Byte) (pay : List Byte) :
    decodeFrame (b0 :: b1 :: b2 :: b3 :: pay) = some ⟨b0, b1, BitVec.ofNat 16 (b2.toNat + 256 * b3.toNat), pay⟩ := by
  simp [decodeFrame, memRead, leNat]

/-- DEV_RX of a whole frame, given by its header bytes and payload. -/
theorem exec_devRx_header {s : State} {d : Nat} {l : Lane} {pay : List Byte} (b0 b1 b2 b3 : Byte) (hl : s.lanes[d]? = some l)
    (hlen : pay.length = s.params.n) :
    exec (.devRx d (b0 :: b1 :: b2 :: b3 :: pay)) s = .next (withLane s d
      { l with rx := rxFrame s.params ⟨b0, b1, BitVec.ofNat 16 (b2.toNat + 256 * b3.toNat), pay⟩ l.rx } .ok) :=
  execDevRx_next.mpr ⟨by simp only [List.length_cons]; omega, l, _, hl, decodeFrame_header .., rfl⟩

/-- Settles O26: the id decides (`rxFrame_of_duplicate`, `rxFrame_ack_id`), and `rxFrame` does not read the reserved byte. -/
theorem duplicateFramesAreIgnored : Obligations.DuplicateFramesAreIgnored := by
  intro s d l b0 B hl hlen
  match B, hlen with
  | b1 :: b2 :: b3 :: pay, hlen =>
    have hpay : pay.length = s.params.n := by simp only [List.length_cons] at hlen; omega
    have hexec := fun y => exec_devRx_header b0 y b2 b3 hl hpay
    refine ⟨fun hdup => ?_, fun _ => ⟨_, hexec b1, rxFrame_ack_id ..⟩, fun x y rest hB => ?_⟩
    · rw [hexec, rxFrame_of_duplicate hdup, withLane_self s d l _ hl]
    · obtain ⟨rfl, rfl⟩ := List.cons.inj hB
      rw [hexec, hexec]
      rfl
  | [], hlen | [_], hlen | [_, _], hlen => simp only [List.length_cons, List.length_nil] at hlen; omega

/-- Settles O27. -/
theorem offsetOutOfRangeDecodesNothing : Obligations.OffsetOutOfRangeDecodesNothing := by
  intro s d l b0 b1 b2 b3 pay hl hlen hnew h0 hge
  have hoff : (BitVec.ofNat 16 (b2.toNat + 256 * b3.toNat)).toNat = b2.toNat + 256 * b3.toNat :=
    Nat.mod_eq_of_lt (by have := b2.isLt; have := b3.isLt; omega)
  have hoff0 : BitVec.ofNat 16 (b2.toNat + 256 * b3.toNat) ≠ 0 := fun h => h0 (hoff.symm.trans (congrArg BitVec.toNat h))
  rw [exec_devRx_header b0 b1 b2 b3 hl hlen, rxFrame_of_offsetOut hnew hoff0 (hoff.symm ▸ hge)]
  rfl

/-- Settles O28: a refused slot is `rejectSlot`, in either place of a new frame. -/
theorem undecodableSlotsAreAcknowledged : Obligations.UndecodableSlotsAreAcknowledged := by
  intro s d l f hl hlen hnew rejected error
  have hreject : ∀ r dev, rejectSlot r dev = (rejected r dev, error r) := fun r dev => by
    cases r with
    | shortHeader k first fl => exact Prod.ext rfl (if_congr flagsBad_iff rfl rfl)
    | _ => rfl
  refine ⟨fun r h0 hr => ?_, fun r h0 hlt hr => ?_, fun r i t l' h0 hlt hi ht hret hl' hr => ?_⟩
  · refine execFrame_next.mpr ⟨hlen, l, hl, ?_⟩
    rw [rxFrame_of_wholePayload _ hnew h0, rxSlot_of_reject hr, hreject]
  · have hrx := rxSlot_of_reject hr l.rx
    refine execFrame_next.mpr ⟨hlen, l, hl, ?_⟩
    rw [rxFrame_of_twoSlots hnew h0 hlt, rxPair_of_error _ (hrx ▸ rejectSlot_ne_eNone r l.rx), hrx, hreject]
  · obtain ⟨sl, hsl, hinstr⟩ := decodeInstr_some.mp hi
    have hrx := rxSlot_of_decode hsl l.rx
    obtain rfl := Host.Outcome.next.inj ((exec_slot hinstr hl).symm.trans ht)
    obtain rfl := Option.some.inj ((withLane_getElem? s d _ l _ hl).symm.trans hl')
    have hnone : (rxSlot s.params (f.payload.take f.offset.toNat) l.rx).2 = eNone := by
      rw [hrx]
      exact Ret.slotErr.inj hret
    refine execFrame_next.mpr ⟨hlen, l, hl, ?_⟩
    rw [rxFrame_of_twoSlots hnew h0 hlt, rxPair_of_ok _ hnone, rxSlot_of_reject hr, hreject, hrx, withLane_withLane]

/-! # The delivery step of any new frame (spec/42_frame_deserializer.md R200, R206, R229, R230) -/

/-- What a decoded ATOMIC slot says of its bytes. -/
theorem decodeSlot_eq_atomic {tags B : List Byte} {tag : Byte} {body : List Byte}
    (h : decodeSlot tags B = .ok (.atomic tag body)) : B = tag :: body ∧ tag ∈ tags ∧ tag ≠ tagNone := by
  obtain rfl : tag :: body = B := slotEncodeOfDecode tags B _ h
  refine ⟨rfl, ?_, ?_⟩
  · obtain ⟨_, -, hs⟩ | ⟨t, b, -, hmem, hs⟩ | ⟨k, first, f, rest, -, -, hs⟩ := decodeSlot_ok h
    · cases hs
    · cases hs
      exact hmem
    · cases k <;> cases first <;> cases hs
  · rintro rfl
    cases h

/-- A slot that is no instruction has a tag that the deployment added to the opcode table's. -/
theorem toInstr_eq_none {sl : Slot} {d : Nat} (h : sl.toInstr d = none) :
    ∃ tag body, sl = .atomic tag body ∧ tag ∉ ([0x11, 0x30, 0x31, 0x42, 0x60] : List Byte) := by
  cases sl with
  | atomic tag body =>
    refine ⟨tag, body, rfl, ?_⟩
    simp only [Slot.toInstr] at h
    split_ifs at h with h11 h30 h31 h42 h60
    simp only [List.mem_cons, List.not_mem_nil, or_false, not_or]
    exact ⟨h11, h30, h31, h42, h60⟩
  | _ => cases h

/-- The flag check on a flags byte: a reserved bit, or `TRANSITION` without `END` (R207). -/
theorem flagsBad_flagsOf (fl : Byte) :
    flagsBad (flagsOf fl) = true ↔ 16 ≤ fl.toNat ∨ (fl.getLsbD 2 = true ∧ fl.getLsbD 1 = false) := by
  revert fl
  decide

/-- What `DECODE_SLOT` does to the device is a `SlotRun` of the slot's bytes. -/
theorem slotRun_rxSlot {s : State} {d : Nat} {l : Lane} {B : List Byte} (hl : s.lanes[d]? = some l) (hB : B ≠ []) :
    SlotRun s d B (withLane s d { l with rx := (rxSlot s.params B l.rx).1 } (.slotErr (rxSlot s.params B l.rx).2))
      (rxSlot s.params B l.rx).2 := by
  cases hd : decodeSlot s.params.atomicTags B with
  | ok sl =>
    rw [rxSlot_of_decode hd]
    cases hi : sl.toInstr d with
    | some i => exact .instr i _ _ (decodeInstr_some.mpr ⟨sl, hd, hi⟩) (exec_slot hi hl) rfl
    | none =>
      obtain ⟨tag, body, rfl, hrow⟩ := toInstr_eq_none hi
      obtain ⟨hbytes, hmem, hnone⟩ := decodeSlot_eq_atomic hd
      rw [runSlot_atomic body l.rx hmem]
      exact .addedTag tag body l hbytes hmem (fun hm => (List.mem_cons.mp hm).elim hnone hrow) hl
  | error r =>
    rw [rxSlot_of_reject hd]
    obtain ⟨-, rfl⟩ | ⟨t, rest, rfl, rfl, hnone, hmem, hmod, hfoci⟩ | ⟨k, rest, rfl, hmem, hfrag⟩ := decodeSlot_error.mp hd
    · exact absurd rfl hB
    · rw [rejectSlot, withLane_self s d l _ hl]
      exact .unknownTag t rest rfl hmem (by simpa using ⟨hnone, hmod, hfoci⟩)
    · obtain ⟨rfl, rfl⟩ | ⟨fl, rest', rfl, rfl, hlt⟩ := decodeFragment_error.mp hfrag
      · rw [rejectSlot, withLane_self s d l _ hl]
        exact .noFlags k.tag rfl hmem (by cases k <;> decide)
      · rw [kindHeader_eq] at hlt
        exact .shortHeader k fl rest' l _ (by rw [kindTag_eq]) (kindTag_eq k ▸ hmem) hlt hl
          (if_congr (flagsBad_flagsOf fl) rfl rfl)

theorem step_deliver {s : State} {d : Nat} {rest : List Turn} {l : Lane} {f : Frame} (hq : s.queue = .cmd (.deliver d) :: rest)
    (hl : s.lanes[d]? = some l) (hf : decodeFrame l.wire = some f) :
    step s = .next (withLane { s with queue := rest } d { l with rx := rxFrame s.params f l.rx } .ok) := by
  rw [step_cons hq]
  exact execDeliver_next.mpr ⟨l, f, hl, hf, rfl⟩

/-- Settles O11: `DECODE_SLOT` of slot one's bytes, then of slot two's on the state slot one left. -/
theorem stepRunsEverySlotOfANewFrame : Obligations.StepRunsEverySlotOfANewFrame := by
  intro s d rest l f hq hl hf hlen hpos hnew
  rw [step_deliver hq hl hf]
  have hrun := fun {B} => slotRun_rxSlot (s := { s with queue := rest }) (B := B) hl
  have hlane := fun l' r => withLane_getElem? { s with queue := rest } d l' l r hl
  refine ⟨fun h0 => ?_, fun h0 hlt => ?_⟩
  · have hne : f.payload ≠ [] := List.ne_nil_of_length_pos (by omega)
    refine ⟨_, _, _, hrun hne, hlane _ _, ?_⟩
    rw [rxFrame_of_wholePayload _ hnew h0, withLane_withLane]
  · have hoff : 1 ≤ f.offset.toNat := Nat.one_le_iff_ne_zero.mpr fun h => h0 (BitVec.eq_of_toNat_eq h)
    have hne1 : f.payload.take f.offset.toNat ≠ [] := List.ne_nil_of_length_pos (by rw [List.length_take]; omega)
    have hne2 : f.payload.drop f.offset.toNat ≠ [] := List.ne_nil_of_length_pos (by rw [List.length_drop]; omega)
    rw [rxFrame_of_twoSlots hnew h0 hlt]
    refine ⟨_, _, _, hrun hne1, hlane _ _, fun herr => ?_, fun hok => ?_⟩
    · rw [rxPair_of_error _ herr, withLane_withLane]
    · refine ⟨_, _, _, slotRun_rxSlot (hlane _ _) hne2, withLane_getElem? _ d _ _ _ (hlane _ _), ?_⟩
      rw [rxPair_of_ok _ hok, withLane_withLane, withLane_withLane]
      rfl

end Sys2Proof.Machine

namespace Sys2Proof.Machine

open Sys2Proof

/-! # The bytes of a slot, with whatever follows them in the frame -/

/-- The slot with more bytes after it. -/
def paddedSlot (more : List Byte) : Slot → Slot
  | .empty rest => .empty (rest ++ more)
  | .modFirst h tail => .modFirst h (tail ++ more)
  | .modCont h tail => .modCont h (tail ++ more)
  | .fociFirst h tail => .fociFirst h (tail ++ more)
  | .fociCont h tail => .fociCont h (tail ++ more)
  | .atomic tag body => .atomic tag (body ++ more)

theorem encodeSlot_paddedSlot (more : List Byte) (sl : Slot) : encodeSlot (paddedSlot more sl) = encodeSlot sl ++ more := by
  cases sl <;> simp [paddedSlot, encodeSlot]

/-- The device runs the slot that the encoder wrote, the bytes after it being part of the slot's tail (R231). -/
theorem rxSlot_encodeSlot_append {p : Params} (hp : ParamsOk p) {sl : Slot}
    (hatomic : ∀ tag body, sl = .atomic tag body → tag ∈ p.atomicTags) (more : List Byte) (dev : Device) :
    rxSlot p (encodeSlot sl ++ more) dev = runSlot p (paddedSlot more sl) dev := by
  rw [← encodeSlot_paddedSlot]
  refine rxSlot_of_decode (slotDecodeOfEncode _ _ hp.no_none hp.no_mod hp.no_foci fun tag body h => ?_) dev
  cases sl with
  | atomic t b =>
    obtain ⟨rfl, -⟩ := Slot.atomic.inj h
    exact hatomic t b rfl
  | _ => cases h

/-- A repeat count in its domain fits its field (spec/30_encoding.md R103). -/
theorem repWire_le {k : Kind} {r : LoopBehavior} (h : r.inDomain k = true) : repWire k r ≤ repInfinite k := by
  cases r with
  | infinite => exact Nat.le_refl _
  | finite n => exact Nat.le_of_lt (repWire_finite_lt h).2

/-- The device reads a packed fragment as its units' payload under the operation's own header. -/
theorem runSlot_fragmentSlot {p : Params} {k : Kind} {ss : U32} {o : StreamOp} {sent n : Nat} (more : List Byte) (dev : Device)
    (hrep : o.rep.inDomain k = true) (hcap : n ≤ unitCap k (sent == 0)) :
    runSlot p (paddedSlot more (fragmentSlot k ss o sent n)) dev =
      runFragment p k (packFlags (sent + n == o.data.length) o) n (if sent = 0 then some (latchOf k o ss) else none)
        (fragmentPayload k o sent n ++ more) dev := by
  unfold fragmentSlot
  by_cases h0 : sent = 0
  · rw [beq_iff_eq.mpr h0] at hcap ⊢
    rw [if_pos h0]
    have hn : (BitVec.ofNat 8 n).toNat = n := by
      cases k <;> exact Nat.mod_eq_of_lt (Nat.lt_of_le_of_lt hcap (by decide))
    cases k with
    | mod =>
      have hwire : (BitVec.ofNat 16 (repWire .mod o.rep)).zeroExtend 32 = BitVec.ofNat 32 (repWire .mod o.rep) := by
        have hle := repWire_le hrep
        apply BitVec.eq_of_toNat_eq
        simp only [repInfinite] at hle
        simp only [BitVec.zeroExtend, BitVec.toNat_setWidth, BitVec.toNat_ofNat]
        omega
      simp only [paddedSlot, runSlot, slotModFirst, hn, hwire, latchOf]
    | foci => simp only [paddedSlot, runSlot, slotFociFirst, hn, latchOf]
  · rw [beq_eq_false_iff_ne.mpr h0] at hcap ⊢
    rw [if_neg h0]
    have hn : (BitVec.ofNat 16 n).toNat = n := by
      cases k <;> exact Nat.mod_eq_of_lt (Nat.lt_of_le_of_lt hcap (by decide))
    cases k with
    | mod => simp only [paddedSlot, runSlot, slotModCont, hn]
    | foci => simp only [paddedSlot, runSlot, slotFociCont, hn]

/-! # A slot that is not of the stream leaves it alone -/

theorem setEvents_append (k : Kind) (seg : Segment) (es es' : List Event) :
    setEvents k seg (es ++ es') = setEvents k seg es ++ setEvents k seg es' :=
  List.filter_append ..

theorem setEvents_payloadEvent (k : Kind) (o : StreamOp) (ss : U32) (b : Bool) :
    setEvents k o.seg (if b then [payloadEvent k o ss] else []) = if b then [payloadEvent k o ss] else [] := by
  cases b <;> simp [setEvents, payloadEvent]

theorem setEvents_setEvent_ne {k k' : Kind} {seg : Segment} {f : FragFlags} (hdr : Latch) (count : Nat) (b : Bool)
    (h : (k', f.seg) ≠ (k, seg)) : setEvents k seg (if b then [setEvent k' f hdr count] else []) = [] := by
  cases b
  · rfl
  · simpa [setEvents, setEvent] using h

/-- Between `dev` and `dev'` the stream `(k, seg)`, its segment buffer and its `SET` events are the same. -/
structure StreamKept (k : Kind) (seg : Segment) (dev dev' : Device) : Prop where
  reasm_eq  : dev'.reasm.get k seg = dev.reasm.get k seg
  bytes_eq  : ∀ a, dev'.segByte k seg a = dev.segByte k seg a
  events_eq : setEvents k seg dev'.events = setEvents k seg dev.events

theorem StreamKept.refl (k : Kind) (seg : Segment) (dev : Device) : StreamKept k seg dev dev :=
  ⟨rfl, fun _ => rfl, rfl⟩

/-- An acknowledgement is no part of a stream. -/
theorem StreamKept.ack (k : Kind) (seg : Segment) (dev : Device) (a : AckRec) : StreamKept k seg dev { dev with ack := a } :=
  ⟨rfl, fun _ => rfl, rfl⟩

/-- What touches one stream keeps every other, if the events it adds are not the other's. -/
theorem OnlyStream.streamKept {k k' : Kind} {seg seg' : Segment} {dev dev' : Device} {es : List Event}
    (h : OnlyStream dev dev' k' seg') (hne : (k', seg') ≠ (k, seg)) (hev : dev'.events = dev.events ++ es)
    (hes : setEvents k seg es = []) : StreamKept k seg dev dev' :=
  ⟨h.reasm_eq k seg hne.symm, fun a => h.bytes_eq k seg a hne.symm, by rw [hev, setEvents_append, hes, List.append_nil]⟩

theorem runFragment_streamKept {p : Params} {k k' : Kind} {seg : Segment} {f : FragFlags} (n : Nat) (new : Option Latch)
    (tail : List Byte) (dev : Device) (hne : (k', f.seg) ≠ (k, seg)) :
    StreamKept k seg dev (runFragment p k' f n new tail dev).1 := by
  obtain ⟨e, -, h⟩ | ⟨hdr, base, -, h⟩ := runFragment_cases p k' f n new tail dev
  · rw [h]
    exact (abortedDevice_onlyStream dev k' f.seg).streamKept hne (List.append_nil _).symm rfl
  · rw [h]
    exact (acceptFragment_onlyStream hdr base).streamKept hne rfl (setEvents_setEvent_ne _ _ _ hne)

theorem consumedDevice_streamKept (k : Kind) (seg : Segment) (dev : Device) (tag : Byte) (body : List Byte) :
    StreamKept k seg dev (consumedDevice dev tag body) :=
  ⟨rfl, fun _ => rfl, by rw [consumedDevice, setEvents_append]; exact List.append_nil _⟩

/-- A pack's unit count is within the cap of its form (spec/40_fragment_codec.md R152). -/
theorem unitCount_le_cap (p : Params) (k : Kind) (o : StreamOp) (sent budget : Nat) :
    unitCount p k o sent budget ≤ unitCap k (sent == 0) :=
  (Nat.min_le_right _ _).trans (Nat.min_le_right _ _)

theorem fragmentSlot_ne_atomic {k : Kind} {ss : U32} {o : StreamOp} {sent n : Nat} {tag : Byte} {body : List Byte} :
    fragmentSlot k ss o sent n ≠ .atomic tag body := by
  unfold fragmentSlot
  cases k <;> cases (sent == 0) <;> exact nofun

/-- The bytes a streaming pack wrote, run on the device. -/
theorem rxSlot_packStream {p : Params} (hp : ParamsOk p) {k : Kind} {ss : U32} {o : StreamOp} {sent budget : Nat}
    {bs : List Byte} {sent' : Nat} {done' : Bool} (hok : StreamOk p k o sent false)
    (h : packStream p k ss o sent false budget = .ok (bs, sent', done')) (more : List Byte) (dev : Device) :
    rxSlot p (bs ++ more) dev =
      runFragment p k (packFlags done' o) (unitCount p k o sent budget) (if sent = 0 then some (latchOf k o ss) else none)
        (fragmentPayload k o sent (unitCount p k o sent budget) ++ more) dev := by
  obtain ⟨-, -, -, rfl, rfl, -, rfl⟩ := packStream_ok.mp h
  rw [rxSlot_encodeSlot_append hp (fun _ _ h => absurd h fragmentSlot_ne_atomic),
    runSlot_fragmentSlot more dev hok.rep_ok (unitCount_le_cap p k o sent budget)]

/-- A packed slot with no fragment for the stream leaves it as it was, whatever error it gives, and has none after it. -/
theorem rxSlot_packSlot_streamKept {p : Params} (hp : ParamsOk p) {k : Kind} {seg : Segment} {o o' : OpSlot} {budget : Nat}
    {bs : List Byte} (hok : SlotOk p o) (hoff : OffStream k seg o) (h : packSlot p o budget = .ok (bs, o')) (more : List Byte)
    (dev : Device) : StreamKept k seg dev (rxSlot p (bs ++ more) dev).1 ∧ OffStream k seg o' := by
  obtain ⟨op, sent, sent', done', rfl, rfl, hps⟩ | ⟨op, ss, sent, sent', done', rfl, rfl, hps⟩ |
    ⟨tag, body, rfl, rfl, rfl, -⟩ := packSlot_ok h
  · have hne := hoff.resolve_left Bool.false_ne_true
    rw [rxSlot_packStream hp hok hps]
    exact ⟨runFragment_streamKept _ _ _ _ hne, .inr hne⟩
  · have hne := hoff.resolve_left Bool.false_ne_true
    rw [rxSlot_packStream hp hok hps]
    exact ⟨runFragment_streamKept _ _ _ _ hne, .inr hne⟩
  · have hatomic : ∀ t b, Slot.atomic tag body = .atomic t b → t ∈ p.atomicTags := by
      rintro t b ⟨⟩
      exact hok
    have hrun : rxSlot p (tag :: body ++ more) dev = _ := rxSlot_encodeSlot_append hp hatomic more dev
    rw [hrun, paddedSlot, runSlot_atomic (body ++ more) dev hok]
    exact ⟨consumedDevice_streamKept .., trivial⟩

/-! # A fragment of the stream is delivered -/

/-- Byte `b` of unit `j`, in units of one width. -/
theorem flatten_getElem?_of_width {w : Nat} {us : List (List Byte)} (hw : ∀ u ∈ us, u.length = w) {j b : Nat} {u : List Byte}
    (hu : us[j]? = some u) (hb : b < w) : us.flatten[j * w + b]? = u[b]? := by
  induction us generalizing j with
  | nil => simp at hu
  | cons v us ih =>
    have hv : v.length = w := hw v (List.mem_cons_self ..)
    rw [List.flatten_cons]
    cases j with
    | zero =>
      obtain rfl : v = u := by simpa using hu
      rw [Nat.zero_mul, Nat.zero_add, List.getElem?_append_left (hv.symm ▸ hb)]
    | succ j =>
      have hidx : (j + 1) * w + b = v.length + (j * w + b) := by rw [Nat.succ_mul, hv]; omega
      rw [hidx, List.getElem?_append_right (Nat.le_add_right ..), Nat.add_sub_cancel_left]
      exact ih (fun x hx => hw x (List.mem_cons_of_mem _ hx)) hu

/-- The stream of an operation is where its cursor is: anything before the first fragment, and afterwards active with the cursor
as its count and the operation's header latched. -/
def AtCursor (k : Kind) (o : StreamOp) (ss : U32) (sent : Nat) (dev : Device) : Prop :=
  sent ≠ 0 → dev.reasm.get k o.seg = ⟨true, sent, latchOf k o ss⟩

theorem AtCursor.kept {k : Kind} {o : StreamOp} {ss : U32} {sent : Nat} {dev dev' : Device} (h : AtCursor k o ss sent dev)
    (hk : StreamKept k o.seg dev dev') : AtCursor k o ss sent dev' :=
  fun h0 => hk.reasm_eq.trans (h h0)

theorem AtCursor.inForce {k : Kind} {o : StreamOp} {ss : U32} {sent : Nat} {dev : Device} (h : AtCursor k o ss sent dev) :
    InForce (if sent = 0 then some (latchOf k o ss) else none) (dev.reasm.get k o.seg) (latchOf k o ss) sent := by
  by_cases h0 : sent = 0
  · exact .inl ⟨if_pos h0, h0⟩
  · exact .inr ⟨if_neg h0, h h0⟩

/-- The units of the operation from the cursor `sent` up to `sent'` went to the device, between `dev` and `dev'`. -/
structure Delivered (p : Params) (k : Kind) (o : StreamOp) (ss : U32) (sent sent' : Nat) (done' : Bool) (dev dev' : Device) :
    Prop where
  lt        : sent < sent'
  le        : sent' ≤ o.data.length
  done_iff  : done' = true ↔ sent' = o.data.length
  reasm_eq  : dev'.reasm.get k o.seg = ⟨!done', sent', latchOf k o ss⟩
  stored    : UnitsStored p k dev' o.seg o.data sent sent'
  earlier   : ∀ a, a < sent * unitBytes p k → dev'.segByte k o.seg a = dev.segByte k o.seg a
  events_eq : setEvents k o.seg dev'.events
    = setEvents k o.seg dev.events ++ (if done' then [payloadEvent k o ss] else [])

section
variable {p : Params} {k : Kind} {o : StreamOp} {ss : U32} {sent sent' : Nat} {done' : Bool} {dev dev' dev'' : Device}

theorem Delivered.of_kept (hk : StreamKept k o.seg dev dev') (h : Delivered p k o ss sent sent' done' dev' dev'') :
    Delivered p k o ss sent sent' done' dev dev'' :=
  { h with
    earlier := fun a ha => (h.earlier a ha).trans (hk.bytes_eq a)
    events_eq := by rw [h.events_eq, hk.events_eq] }

theorem Delivered.kept (h : Delivered p k o ss sent sent' done' dev dev') (hk : StreamKept k o.seg dev' dev'') :
    Delivered p k o ss sent sent' done' dev dev'' :=
  { h with
    reasm_eq := hk.reasm_eq.trans h.reasm_eq
    stored := fun j u h1 h2 hu b hb => (hk.bytes_eq _).trans (h.stored j u h1 h2 hu b hb)
    earlier := fun a ha => (hk.bytes_eq a).trans (h.earlier a ha)
    events_eq := hk.events_eq.trans h.events_eq }

/-- The `SET` event of a fragment that a pack wrote is the payload's, at its end (R226). -/
theorem setEvent_packFlags (hrep : o.rep.inDomain k = true) (hpin : ∀ pin, o.mode = .gpio pin → pin < gpioPins) :
    setEvent k (packFlags true o) (latchOf k o ss) o.data.length = payloadEvent k o ss := by
  have hwire : (latchOf k o ss).repWire.toNat = repWire k o.rep := by
    have hle := repWire_le hrep
    refine Nat.mod_eq_of_lt (Nat.lt_of_le_of_lt hle ?_)
    cases k <;> decide
  have hmode : (if (packFlags true o).trans = true
      then modeDec (latchOf k o ss).modeCode (latchOf k o ss).value else .later) = o.mode := by
    by_cases hlater : o.mode = .later
    · simp [packFlags, hlater]
    · exact (if_pos (by simp [packFlags, hlater])).trans (modeDec_modeCode hlater hpin)
  rw [setEvent.eq_def, hwire, repDec_repWire hrep, hmode]
  cases k <;> rfl

/-- A fragment that a pack wrote, at the cursor, holds up to every check of the device (R215). -/
theorem checkFragment_packed {budget n : Nat} {bs : List Byte} {room : Nat} (hp : ParamsOk p) (hok : StreamOk p k o sent false)
    (h : packStream p k ss o sent false budget = .ok (bs, sent', done')) (hn : n = unitCount p k o sent budget)
    (hroom : payloadBytes p k n ≤ room) (hcur : AtCursor k o ss sent dev) :
    sent < o.data.length ∧ 1 ≤ n ∧ checkFragment p k (packFlags done' o) n (if sent = 0 then some (latchOf k o ss) else none) room
      (dev.reasm.get k o.seg) = .ok (latchOf k o ss, sent) := by
  obtain ⟨-, hmax, hneed, hsent', hdone', hmin, -⟩ := packStream_ok.mp h
  rw [← hn] at hsent'
  have hle : n ≤ o.data.length - sent := hn ▸ unitCount_le p k o sent budget
  have hsent_le := hok.sent_le
  have hunit : 1 ≤ unitBytes p k := by
    cases k
    · exact Nat.one_pos
    · exact hp.rec_pos
  have hminPos : 1 ≤ unitsMin p k := by
    cases k
    · exact hp.modMin_pos
    · exact hp.fociMin_pos
  have hlt : sent < o.data.length := by
    refine Nat.lt_of_le_of_ne hsent_le fun heq => ?_
    have h0 := hok.undone rfl heq
    have := hmin (by omega)
    omega
  have hpos : 1 ≤ n := hn ▸ unitCount_pos hunit hneed hlt
  have hlast : (packFlags done' o).last = true → sent' = o.data.length := fun hl => by
    rw [hdone'] at hl
    exact beq_iff_eq.mp hl
  refine ⟨hlt, hpos, checkFragment_accepted ⟨?_, Nat.ne_of_gt hpos, hroom⟩ hcur.inForce (fun _ => tmValid_modeCode hok.pin_ok)
    ?_ fun hl => ?_⟩
  · exact flagsBad_eq_false_iff.mpr ⟨rfl, fun ht => (Bool.and_eq_true_iff.mp ht).1⟩
  · have hdata : o.data.length ≤ unitsMax p k := by
      by_cases h0 : sent = 0
      · exact hmax h0
      · exact hok.max_ok h0
    omega
  · have hend := hlast hl
    have := hmin hend
    omega

/-- The units of a packed fragment stand in the segment buffer at their own offsets (R222). -/
theorem acceptFragment_unitsStored {n : Nat} {f : FragFlags} (hdr : Latch) (more : List Byte) (hseg : f.seg = o.seg)
    (hw : ∀ u ∈ o.data, u.length = unitBytes p k) (hle : n ≤ o.data.length - sent) :
    UnitsStored p k (acceptFragment p k f n hdr sent (fragmentPayload k o sent n ++ more) dev) o.seg o.data sent (sent + n) := by
  intro j u hlo hhi hu b hb
  have hroom : payloadBytes p k n ≤ (fragmentPayload k o sent n ++ more).length := by
    rw [List.length_append, fragmentPayload_length hw hle]
    exact Nat.le_add_right ..
  have hw' : ∀ u ∈ (o.data.drop sent).take n, u.length = unitBytes p k := fun u hu =>
    hw u (List.mem_of_mem_drop (List.mem_of_mem_take hu))
  have hlen : ((o.data.drop sent).take n).flatten.length = n * unitBytes p k := by
    rw [flatten_length_of_width hw', List.length_take, List.length_drop, Nat.min_eq_left hle]
  obtain ⟨i, rfl⟩ : ∃ i, j = sent + i := ⟨j - sent, by omega⟩
  have hin : i * unitBytes p k + b < n * unitBytes p k := by
    have := Nat.mul_le_mul_right (unitBytes p k) (show i + 1 ≤ n by omega)
    rw [Nat.succ_mul] at this
    omega
  have hunit : ((o.data.drop sent).take n)[i]? = some u := by
    rw [List.getElem?_take_of_lt (by omega), List.getElem?_drop, hu]
  have haddr : (sent + i) * unitBytes p k + b = sent * unitBytes p k + (i * unitBytes p k + b) := by
    rw [Nat.add_mul, Nat.add_assoc]
  rw [← hseg, acceptFragment_segByte hdr sent _ hroom, haddr, if_pos (by rw [Nat.add_mul]; omega), Nat.add_sub_cancel_left,
    fragmentPayload, List.append_assoc, List.getElem?_append_left (hlen.symm ▸ hin)]
  exact flatten_getElem?_of_width hw' hunit hb

/-- The bytes that an undone operation's pack wrote, run on a device whose stream is at the cursor: no error, the units delivered,
and at the end of the payload one event (R231). -/
theorem rxSlot_packStream_delivered {budget : Nat} {bs : List Byte} (hp : ParamsOk p) (hok : StreamOk p k o sent false)
    (h : packStream p k ss o sent false budget = .ok (bs, sent', done')) (hcur : AtCursor k o ss sent dev) (more : List Byte) :
    (rxSlot p (bs ++ more) dev).2 = eNone ∧ Delivered p k o ss sent sent' done' dev (rxSlot p (bs ++ more) dev).1 ∧
    (rxSlot p (bs ++ more) dev).1.events = dev.events ++ (if done' then [payloadEvent k o ss] else []) := by
  obtain ⟨-, -, -, hsent', hdone', -, -⟩ := packStream_ok.mp h
  rw [rxSlot_packStream hp hok h]
  generalize hn : unitCount p k o sent budget = n at hsent' ⊢
  have hle : n ≤ o.data.length - sent := hn ▸ unitCount_le p k o sent budget
  have hroom : payloadBytes p k n ≤ (fragmentPayload k o sent n ++ more).length := by
    rw [List.length_append, fragmentPayload_length hok.units_ok hle]
    exact Nat.le_add_right ..
  obtain ⟨hlt, hpos, hcheck⟩ := checkFragment_packed hp hok h hn.symm hroom hcur
  rw [runFragment_of_ok hcheck]
  have hiff : done' = true ↔ sent' = o.data.length := by rw [hdone', beq_iff_eq]
  have hevents : (acceptFragment p k (packFlags done' o) n (latchOf k o ss) sent (fragmentPayload k o sent n ++ more) dev).events
      = dev.events ++ (if done' then [payloadEvent k o ss] else []) := by
    cases done' with
    | false => rfl
    | true =>
      rw [← setEvent_packFlags hok.rep_ok hok.pin_ok, ← hiff.mp rfl, hsent']
      rfl
  refine ⟨rfl, ⟨by omega, by omega, hiff, ?_, ?_, fun a ha => ?_, ?_⟩, hevents⟩
  · rw [hsent']
    exact acceptFragment_reasm_get ..
  · rw [hsent']
    exact acceptFragment_unitsStored _ more rfl hok.units_ok hle
  · have hout : ¬ (sent * unitBytes p k ≤ a ∧ a < (sent + n) * unitBytes p k) := fun hin => absurd ha (Nat.not_lt.mpr hin.1)
    exact (acceptFragment_segByte _ _ a hroom).trans (if_neg hout)
  · rw [hevents, setEvents_append, setEvents_payloadEvent]

end

end Sys2Proof.Machine

namespace Sys2Proof.Machine

open Sys2Proof

/-! # One batch, as its device sees it (spec/41_dual_slot_packer.md R180 to R187, spec/42_frame_deserializer.md R231) -/

/-- What the frame of a batch runs on an enabled device: `l` is the lane before the batch, `l'` a lane with the slots the batch
leaves, and the pair is the device after the frame's slots, its acknowledgement aside, with the last error. -/
inductive BatchRun (p : Params) (l l' : Lane) : Device × Byte → Prop where
  /-- Both slots are done: an EMPTY slot. -/
  | idle : l.pri.done = true → l.sec.done = true → l'.pri = l.pri → l'.sec = l.sec → BatchRun p l l' (l.rx, eNone)
  /-- One slot is packed: the other is done, or it is the secondary and waits. -/
  | one (jx : SlotIx) (bs more : List Byte) : packSlot p (l.op jx) p.n = .ok (bs, l'.op jx) →
      (l.op (otherSlot jx)).done = true ∨ jx = .pri → l'.op (otherSlot jx) = l.op (otherSlot jx) →
      BatchRun p l l' (rxSlot p (bs ++ more) l.rx)
  /-- Both slots are packed, the primary as slot one. -/
  | both (bs bs2 more : List Byte) (budget : Nat) : packSlot p l.pri p.n = .ok (bs, l'.pri) →
      packSlot p l.sec budget = .ok (bs2, l'.sec) → BatchRun p l l' (rxPair p bs (bs2 ++ more) l.rx)

/-- A payload of zeros is an EMPTY slot. -/
theorem rxSlot_zeros {p : Params} (hn : 1 ≤ p.n) (dev : Device) : rxSlot p (fillPayload p []) dev = (dev, eNone) := by
  obtain ⟨m, hm⟩ : ∃ m, p.n = m + 1 := ⟨p.n - 1, by omega⟩
  rw [fillPayload, List.length_nil, Nat.sub_zero, hm]
  rfl

/-- A new frame of a batch with one slot. -/
theorem rxFrame_oneSlot {p : Params} {id : Byte} {dev : Device} (slots : List Byte) (hnew : id ≠ dev.ack.id) :
    rxFrame p ⟨id, 0, BitVec.ofNat 16 0, fillPayload p slots⟩ dev =
      { (rxSlot p (fillPayload p slots) dev).1 with ack := ⟨id, (rxSlot p (fillPayload p slots) dev).2⟩ } :=
  rxFrame_of_wholePayload p hnew rfl

/-- A new frame of a batch with two slots: the offset separates the bytes of the first from those of the second. -/
theorem rxFrame_bothSlots {p : Params} {id : Byte} {dev : Device} {bs : List Byte} (bs2 : List Byte) (hnew : id ≠ dev.ack.id)
    (hn : p.n ≤ 0xFFFF) (hpos : 1 ≤ bs.length) (hlt : bs.length < p.n) :
    ∃ more, rxFrame p ⟨id, 0, BitVec.ofNat 16 bs.length, fillPayload p (bs ++ bs2)⟩ dev =
      { (rxPair p bs (bs2 ++ more) dev).1 with ack := ⟨id, (rxPair p bs (bs2 ++ more) dev).2⟩ } := by
  have hoff : (BitVec.ofNat 16 bs.length).toNat = bs.length := Nat.mod_eq_of_lt (by omega)
  have hoff0 : BitVec.ofNat 16 bs.length ≠ 0 := fun h => by
    have := congrArg BitVec.toNat h
    rw [hoff] at this
    exact absurd this (Nat.ne_of_gt hpos)
  refine ⟨zeros (p.n - (bs ++ bs2).length), (rxFrame_of_twoSlots hnew hoff0 (hoff.symm ▸ hlt)).trans ?_⟩
  rw [hoff, fillPayload, List.append_assoc, List.take_left, List.drop_left]

/-- The frame that ISSUE packs for an enabled device, delivered to it under a new id, runs the packed slots. -/
theorem packDevice_batchRun {p : Params} {id : Byte} {l l' : Lane} (hp : ParamsOk p) (hen : l.enabled = true)
    (hnew : id ≠ l.rx.ack.id) (h : packDevice p id l = .ok l') :
    ∃ f r, decodeFrame l'.txbuf = some f ∧ BatchRun p l l' r ∧ rxFrame p f l'.rx = { r.1 with ack := ⟨id, r.2⟩ } := by
  obtain ⟨hdone, rfl⟩ | ⟨bs, o, -, hpri, ho, rfl⟩ | ⟨bs, o, bs2, o2, -, hpri, hsec, ho, hfit, ho2, rfl⟩ |
    ⟨bs, o, -, hpri, hsec, ho, rfl⟩ := packDevice_ok h
  case inl =>
    obtain ⟨hpri, hsec⟩ := hdone.resolve_left (by simp [hen])
    refine ⟨_, _, decodeFrame_encodeFrame _, .idle hpri hsec rfl rfl, (rxFrame_oneSlot [] hnew).trans ?_⟩
    rw [rxSlot_zeros hp.n_pos]
  case inr.inl =>
    exact ⟨_, _, decodeFrame_encodeFrame _, .one .pri bs _ ho (.inr rfl) rfl, rxFrame_oneSlot bs hnew⟩
  case inr.inr.inl =>
    have hpos := packSlot_length_pos ho
    have hroom := requiredSize_pos (p := p) hsec
    obtain ⟨more, hrx⟩ := rxFrame_bothSlots bs2 hnew hp.n_le hpos (by omega)
    exact ⟨_, _, decodeFrame_encodeFrame _, .both bs bs2 more _ ho ho2, hrx⟩
  case inr.inr.inr =>
    exact ⟨_, _, decodeFrame_encodeFrame _, .one .sec bs _ ho (.inl hpri) rfl, rxFrame_oneSlot bs hnew⟩

/-- The three commands of a batch that is carried to a device. -/
theorem batchRound_commands {d : Nat} {s t : State} (h : batchRound d s = some t) :
    ∃ s1 s2, exec .issue s = .next s1 ∧ s1.ret = .ok ∧ exec (.send false) s1 = .next s2 ∧ s2.ret = .ok ∧
      exec (.deliver d) s2 = .next t := by
  unfold batchRound at h
  split at h
  case h_2 => cases h
  case h_1 s1 h1 =>
    split_ifs at h with hr1
    split at h
    case h_2 => cases h
    case h_1 s2 h2 =>
      split_ifs at h with hr2
      split at h
      case h_2 => cases h
      case h_1 s3 h3 =>
        cases h
        exact ⟨s1, s2, h1, hr1, h2, hr2, h3⟩

theorem batchRound_keeps_inv {d : Nat} {s t : State} (hinv : Inv s) (h : batchRound d s = some t) : Inv t := by
  obtain ⟨s1, s2, h1, -, h2, -, h3⟩ := batchRound_commands h
  exact exec_keeps_inv (exec_keeps_inv (exec_keeps_inv hinv h1) h2) h3

/-- A batch carried to device `d`: its lane packed, sent, and the frame processed. -/
theorem batchRound_lane {d : Nat} {s t : State} {l : Lane} (hl : s.lanes[d]? = some l) (h : batchRound d s = some t) :
    ∃ lp, packDevice s.params (s.msgId + 1) l = .ok lp ∧ t.msgId = s.msgId + 1 ∧ t.params = s.params ∧
      ∀ f, decodeFrame lp.txbuf = some f →
        t.lanes[d]? = some { lp with wire := lp.txbuf, rx := rxFrame s.params f lp.rx } := by
  obtain ⟨s1, s2, h1, hr1, h2, hr2, h3⟩ := batchRound_commands h
  obtain ⟨e, -, rfl⟩ | ⟨ls, hls, rfl⟩ := execIssue_next.mp h1
  · cases hr1
  obtain ⟨lp, hlp, hpack⟩ := (packAll_eq_ok_iff.mp hls).2 d l hl
  obtain ⟨e, -, rfl⟩ | ⟨-, rfl⟩ := execSend_next.mp h2
  · cases hr2
  obtain ⟨m, f, hm, hf, rfl⟩ := execDeliver_next.mp h3
  obtain rfl : { lp with wire := lp.txbuf } = m := by simpa [hlp] using hm
  refine ⟨lp, hpack, rfl, rfl, fun f' hf' => ?_⟩
  obtain rfl : f = f' := Option.some.inj (hf.symm.trans hf')
  exact withLane_getElem? _ d _ _ _ hm

/-- What a batch whose id is new does to an enabled device's lane. -/
theorem batchRound_batchRun {d : Nat} {s t : State} {l : Lane} (hinv : Inv s) (hl : s.lanes[d]? = some l)
    (hen : l.enabled = true) (hnew : s.msgId + 1 ≠ l.rx.ack.id) (h : batchRound d s = some t) :
    ∃ l' r, t.lanes[d]? = some l' ∧ t.msgId = s.msgId + 1 ∧ t.params = s.params ∧ l'.enabled = true ∧
      BatchRun s.params l l' r ∧ l'.rx = { r.1 with ack := ⟨s.msgId + 1, r.2⟩ } := by
  obtain ⟨lp, hpack, hid, hparams, hlane⟩ := batchRound_lane hl h
  obtain ⟨f, r, hf, hrun, hrx⟩ := packDevice_batchRun hinv.params_ok hen hnew hpack
  obtain ⟨_, _, _, rfl, -⟩ := packDevice_frame hpack
  refine ⟨_, r, hlane f hf, hid, hparams, hen, ?_, hrx⟩
  cases hrun with
  | idle h1 h2 h3 h4 => exact .idle h1 h2 h3 h4
  | one jx bs more h1 h2 h3 => cases jx <;> exact .one _ bs more h1 h2 h3
  | both bs bs2 more budget h1 h2 => exact .both bs bs2 more budget h1 h2

end Sys2Proof.Machine

namespace Sys2Proof.Machine

open Sys2Proof

/-! # A batch and one stream of its device (spec/42_frame_deserializer.md R231)

The slot `ix` holds the operation of the stream, the other slot has no fragment for it. -/

/-- A slot that packs is not done. -/
theorem packSlot_ne_done {p : Params} {o o' : OpSlot} {budget : Nat} {bs : List Byte} (h : packSlot p o budget = .ok (bs, o')) :
    ¬ o.done = true := by
  obtain ⟨_, _, _, _, rfl, -⟩ | ⟨_, _, _, _, _, rfl, -⟩ | ⟨_, _, rfl, -⟩ := packSlot_ok h <;> exact Bool.false_ne_true

theorem otherSlot_otherSlot (ix : SlotIx) : otherSlot (otherSlot ix) = ix := by
  cases ix <;> rfl

theorem eq_otherSlot {ix jx : SlotIx} (h : jx ≠ ix) : jx = otherSlot ix := by
  cases jx <;> cases ix
  case pri.sec | sec.pri => rfl
  all_goals exact absurd rfl h

theorem SlotOk.streamOk {p : Params} {k : Kind} {o : StreamOp} {ss : U32} {sent : Nat} {done : Bool}
    (h : SlotOk p (streamSlot k o ss sent done)) : StreamOk p k o sent done := by
  cases k <;> exact h

/-- A streaming slot's pack, run on a device whose stream is at its cursor. -/
theorem rxSlot_packSlot_delivered {p : Params} {k : Kind} {o : StreamOp} {ss : U32} {sent budget : Nat} {bs : List Byte}
    {o' : OpSlot} {dev : Device} (hp : ParamsOk p) (hok : SlotOk p (streamSlot k o ss sent false))
    (h : packSlot p (streamSlot k o ss sent false) budget = .ok (bs, o')) (hcur : AtCursor k o ss sent dev) (more : List Byte) :
    ∃ sent' done', o' = streamSlot k o ss sent' done' ∧ (rxSlot p (bs ++ more) dev).2 = eNone ∧
      Delivered p k o ss sent sent' done' dev (rxSlot p (bs ++ more) dev).1 ∧
      (rxSlot p (bs ++ more) dev).1.events = dev.events ++ (if done' then [payloadEvent k o ss] else []) := by
  rw [packSlot_streamSlot] at h
  cases hps : packStream p k ss o sent false budget with
  | error e => rw [hps] at h; cases h
  | ok r =>
    obtain ⟨bs', sent', done'⟩ := r
    rw [hps] at h
    cases h
    exact ⟨sent', done', rfl, rxSlot_packStream_delivered hp hok.streamOk hps hcur more⟩

section
variable {p : Params} {l l' : Lane} {ix : SlotIx} {k : Kind} {seg : Segment} {r : Device × Byte}

/-- A done slot stays as it is. -/
theorem BatchRun.op_of_done (h : BatchRun p l l' r) (hdone : (l.op ix).done = true) : l'.op ix = l.op ix := by
  cases h with
  | idle _ _ hpri hsec => cases ix <;> assumption
  | one jx bs more ho _ hother =>
    have hjx : jx = otherSlot ix := eq_otherSlot (by rintro rfl; exact packSlot_ne_done ho hdone)
    rwa [hjx, otherSlot_otherSlot] at hother
  | both bs bs2 more budget ho ho2 =>
    cases ix
    · exact absurd hdone (packSlot_ne_done ho)
    · exact absurd hdone (packSlot_ne_done ho2)

/-- When the slot `ix` is done, a batch leaves the stream as it was; with both done it adds no event and gives no error. -/
theorem BatchRun.streamKept (hp : ParamsOk p) (hl : LaneOk p l) (h : BatchRun p l l' r) (hdone : (l.op ix).done = true)
    (hoff : OffStream k seg (l.op (otherSlot ix))) :
    StreamKept k seg l.rx r.1 ∧ OffStream k seg (l'.op (otherSlot ix)) ∧
      ((l.op (otherSlot ix)).done = true → r = (l.rx, eNone)) := by
  cases h with
  | idle _ _ hpri hsec =>
    refine ⟨.refl .., ?_, fun _ => rfl⟩
    cases ix
    · exact (congrArg (OffStream k seg) hsec).mpr hoff
    · exact (congrArg (OffStream k seg) hpri).mpr hoff
  | one jx bs more ho _ _ =>
    obtain rfl : jx = otherSlot ix := eq_otherSlot (by rintro rfl; exact packSlot_ne_done ho hdone)
    obtain ⟨hkept, hoff'⟩ := rxSlot_packSlot_streamKept hp (hl.op_ok _) hoff ho more l.rx
    exact ⟨hkept, hoff', fun hd => absurd hd (packSlot_ne_done ho)⟩
  | both bs bs2 more budget ho ho2 =>
    cases ix
    · exact absurd hdone (packSlot_ne_done ho)
    · exact absurd hdone (packSlot_ne_done ho2)

variable {o : StreamOp} {ss : U32} {sent : Nat}

/-- What a batch did for the undone operation of slot `ix`, if no error hid its fragment. -/
inductive Carried (p : Params) (k : Kind) (o : StreamOp) (ss : U32) (ix : SlotIx) (sent : Nat) (l l' : Lane) (dev : Device) :
    Prop where
  /-- Its next fragment was delivered; beside a done slot nothing else was. -/
  | delivered (sent' : Nat) (done' : Bool) : l'.op ix = streamSlot k o ss sent' done' →
      Delivered p k o ss sent sent' done' l.rx dev →
      ((l.op (otherSlot ix)).done = true → dev.events = l.rx.events ++ (if done' then [payloadEvent k o ss] else [])) →
      Carried p k o ss ix sent l l' dev
  /-- A secondary waited beside a pending primary (spec/41_dual_slot_packer.md R183). -/
  | waited : l'.op ix = l.op ix → ix = .sec → l.pri.done = false → StreamKept k o.seg l.rx dev →
      Carried p k o ss ix sent l l' dev

/-- A batch of which the other slot's share gave no error, or that had no other share, gives none, and its own share of the
stream is carried. -/
theorem BatchRun.carried (hp : ParamsOk p) (hl : LaneOk p l) (h : BatchRun p l l' r)
    (hop : l.op ix = streamSlot k o ss sent false) (hoff : OffStream k o.seg (l.op (otherSlot ix)))
    (hcur : AtCursor k o ss sent l.rx) (herr : (l.op (otherSlot ix)).done = true ∨ r.2 = eNone) :
    r.2 = eNone ∧ OffStream k o.seg (l'.op (otherSlot ix)) ∧ Carried p k o ss ix sent l l' r.1 := by
  have hundone : ¬ (l.op ix).done = true := by simp [hop]
  have hok : SlotOk p (streamSlot k o ss sent false) := hop ▸ hl.op_ok ix
  cases h with
  | idle hpri hsec _ _ =>
    cases ix
    · exact absurd hpri hundone
    · exact absurd hsec hundone
  | one jx bs more ho hwait hother =>
    by_cases hjx : jx = ix
    · subst hjx
      rw [hop] at ho
      obtain ⟨sent', done', ho', hnone, hdel, hev⟩ := rxSlot_packSlot_delivered hp hok ho hcur more
      exact ⟨hnone, (congrArg (OffStream k o.seg) hother).mpr hoff, .delivered sent' done' ho' hdel fun _ => hev⟩
    · obtain rfl : jx = otherSlot ix := eq_otherSlot hjx
      rw [otherSlot_otherSlot] at hwait hother
      have hpri : otherSlot ix = .pri := hwait.resolve_left hundone
      obtain rfl : ix = .sec := by rw [← otherSlot_otherSlot ix, hpri]; rfl
      obtain ⟨hkept, hoff'⟩ := rxSlot_packSlot_streamKept hp (hl.op_ok _) hoff ho more l.rx
      have hno := packSlot_ne_done ho
      exact ⟨herr.resolve_left hno, hoff', .waited hother rfl (Bool.eq_false_iff.mpr hno) hkept⟩
  | both bs bs2 more budget ho ho2 =>
    cases ix with
    | pri =>
      have hno := packSlot_ne_done ho2
      have hnone := herr.resolve_left hno
      have hsl : l.pri = streamSlot k o ss sent false := hop
      rw [hsl] at ho
      obtain ⟨sent', done', ho', hnone1, hdel, -⟩ := rxSlot_packSlot_delivered hp hok ho hcur []
      rw [List.append_nil] at hnone1 hdel
      rw [rxPair_of_ok _ hnone1] at hnone ⊢
      obtain ⟨hkept, hoff'⟩ := rxSlot_packSlot_streamKept hp (hl.op_ok .sec) hoff ho2 more (rxSlot p bs l.rx).1
      exact ⟨hnone, hoff', .delivered sent' done' ho' (hdel.kept hkept) fun hd => absurd hd hno⟩
    | sec =>
      have hno := packSlot_ne_done ho
      have hnone := herr.resolve_left hno
      obtain ⟨hkept, hoff'⟩ := rxSlot_packSlot_streamKept hp (hl.op_ok .pri) hoff ho [] l.rx
      rw [List.append_nil] at hkept
      have hnone1 : (rxSlot p bs l.rx).2 = eNone := by
        by_contra hbad
        exact hbad (rxPair_of_error _ hbad ▸ hnone)
      have hsl : l.sec = streamSlot k o ss sent false := hop
      rw [hsl] at ho2
      obtain ⟨sent', done', ho', hnone2, hdel, -⟩ := rxSlot_packSlot_delivered hp hok ho2 (hcur.kept hkept) more
      rw [rxPair_of_ok _ hnone1]
      exact ⟨hnone2, hoff', .delivered sent' done' ho' (hdel.of_kept hkept) fun hd => absurd hd hno⟩

end

/-- Settles O59: the batch as its device sees it, and what it carried for the slot. -/
theorem oneBatchDeliversItsFragment : Obligations.OneBatchDeliversItsFragment := by
  intro s t d l ix k o ss sent hinv hl hen hop hoff hnew hcur hround
  obtain ⟨l', ⟨dev, e⟩, hl', -, -, -, hrun, hrx⟩ := batchRound_batchRun hinv hl hen hnew hround
  refine ⟨l', hl', fun herr => ?_⟩
  rw [hrx] at herr ⊢
  obtain ⟨rfl, -, hcarried⟩ := hrun.carried hinv.params_ok (hinv.lanes_ok l (List.mem_of_getElem? hl)) hop hoff hcur herr
  cases hcarried with
  | delivered sent' done' hop' hdel hev =>
    exact ⟨sent', done', hop', rfl, hdel.earlier, hdel.events_eq, hev,
      .inl ⟨hdel.lt, hdel.le, hdel.done_iff, hdel.reasm_eq, hdel.stored⟩⟩
  | waited hop' hsec hpri hkept =>
    subst hsec
    refine ⟨sent, false, hop'.trans hop, rfl, fun a _ => hkept.bytes_eq a, ?_, fun hd => absurd hd (Bool.eq_false_iff.mp hpri),
      .inr ⟨rfl, rfl, rfl, hpri, hkept.reasm_eq, hkept.bytes_eq⟩⟩
    exact hkept.events_eq.trans (List.append_nil _).symm

end Sys2Proof.Machine

namespace Sys2Proof.Machine

open Sys2Proof

/-! # The whole payload, batch by batch (spec/42_frame_deserializer.md R231) -/

/-- How far an operation has come on its device since the events were `es`: the units below its cursor are in the segment buffer,
its stream is at the cursor until it is done, and its event was emitted when it was done and not before, as the only event when
`alone`. -/
structure Progress (p : Params) (k : Kind) (o : StreamOp) (ss : U32) (alone : Prop) (es : List Event) (sent : Nat) (done : Bool)
    (dev : Device) : Prop where
  cursor       : done = false → AtCursor k o ss sent dev
  at_end       : done = true → sent = o.data.length
  stored       : UnitsStored p k dev o.seg o.data 0 sent
  events_eq    : setEvents k o.seg dev.events = setEvents k o.seg es ++ (if done then [payloadEvent k o ss] else [])
  alone_events : alone → dev.events = es ++ (if done then [payloadEvent k o ss] else [])

section
variable {p : Params} {k : Kind} {o : StreamOp} {ss : U32} {alone : Prop} {es : List Event} {sent : Nat} {done : Bool}
  {dev dev' : Device}

theorem Progress.start (p : Params) (k : Kind) (o : StreamOp) (ss : U32) (alone : Prop) (dev : Device) :
    Progress p k o ss alone dev.events 0 false dev where
  cursor := fun _ h0 => absurd rfl h0
  at_end := nofun
  stored := fun j _ _ hj => absurd hj j.not_lt_zero
  events_eq := (List.append_nil _).symm
  alone_events := fun _ => (List.append_nil _).symm

theorem Progress.kept (h : Progress p k o ss alone es sent done dev) (hk : StreamKept k o.seg dev dev')
    (hev : alone → dev'.events = dev.events) : Progress p k o ss alone es sent done dev' where
  cursor := fun hd => (h.cursor hd).kept hk
  at_end := h.at_end
  stored := fun j u h1 h2 hu b hb => (hk.bytes_eq _).trans (h.stored j u h1 h2 hu b hb)
  events_eq := hk.events_eq.trans h.events_eq
  alone_events := fun ha => (hev ha).trans (h.alone_events ha)

theorem Progress.delivered {sent' : Nat} {done' : Bool} (h : Progress p k o ss alone es sent false dev)
    (hdel : Delivered p k o ss sent sent' done' dev dev')
    (hev : alone → dev'.events = dev.events ++ (if done' then [payloadEvent k o ss] else [])) :
    Progress p k o ss alone es sent' done' dev' where
  cursor := fun hd _ => by rw [hdel.reasm_eq, hd]; rfl
  at_end := hdel.done_iff.mp
  stored := by
    intro j u hlo hhi hu b hb
    by_cases hj : j < sent
    · have haddr : j * unitBytes p k + b < sent * unitBytes p k := by
        have := Nat.mul_le_mul_right (unitBytes p k) (Nat.succ_le_of_lt hj)
        rw [Nat.succ_mul] at this
        omega
      exact (hdel.earlier _ haddr).trans (h.stored j u hlo hj hu b hb)
    · exact hdel.stored j u (Nat.not_lt.mp hj) hhi hu b hb
  events_eq := by
    rw [hdel.events_eq, h.events_eq]
    exact congrArg (· ++ _) (List.append_nil _)
  alone_events := fun ha => by
    rw [hev ha, h.alone_events ha]
    exact congrArg (· ++ _) (List.append_nil _)

/-- One more batch takes the operation further or leaves it where it is, if no error hid its fragment; there is none beside a done
slot. -/
theorem BatchRun.progress {l l' : Lane} {ix : SlotIx} {r : Device × Byte} (hrun : BatchRun p l l' r) (hp : ParamsOk p)
    (hl : LaneOk p l) (hop : l.op ix = streamSlot k o ss sent done) (hoff : OffStream k o.seg (l.op (otherSlot ix)))
    (halone : alone → (l.op (otherSlot ix)).done = true) (h : Progress p k o ss alone es sent done l.rx)
    (herr : alone ∨ r.2 = eNone) :
    r.2 = eNone ∧ OffStream k o.seg (l'.op (otherSlot ix)) ∧
      ∃ sent' done', l'.op ix = streamSlot k o ss sent' done' ∧ Progress p k o ss alone es sent' done' r.1 := by
  cases done with
  | true =>
    have hdone : (l.op ix).done = true := by simp [hop]
    obtain ⟨hkept, hoff', hidle⟩ := hrun.streamKept hp hl hdone hoff
    have hnone : r.2 = eNone := herr.elim (fun ha => by rw [hidle (halone ha)]) id
    exact ⟨hnone, hoff', sent, true, (hrun.op_of_done hdone).trans hop, h.kept hkept fun ha => by rw [hidle (halone ha)]⟩
  | false =>
    obtain ⟨hnone, hoff', hcarried⟩ := hrun.carried hp hl hop hoff (h.cursor rfl) (herr.imp_left halone)
    refine ⟨hnone, hoff', ?_⟩
    cases hcarried with
    | delivered sent' done' hop' hdel hev => exact ⟨sent', done', hop', h.delivered hdel fun ha => hev (halone ha)⟩
    | waited hop' hsec hpri hkept =>
      subst hsec
      exact ⟨sent, false, hop'.trans hop, h.kept hkept fun ha => absurd (halone ha) (Bool.eq_false_iff.mp hpri)⟩

end

/-- The id after an id is another one. -/
theorem msgId_succ_ne (b : Byte) : b + 1 ≠ b :=
  fun h => absurd (add_eq_left.mp h) (by decide)

/-- An operation in slot `ix` of device `d`'s lane `l`, on its way to the device: what successive batches keep. -/
structure InTransit (p : Params) (d : Nat) (ix : SlotIx) (k : Kind) (o : StreamOp) (ss : U32) (alone : Prop) (es : List Event)
    (s : State) (l : Lane) (sent : Nat) (done : Bool) : Prop where
  inv       : Inv s
  params_eq : s.params = p
  lane_eq   : s.lanes[d]? = some l
  enabled   : l.enabled = true
  op_eq     : l.op ix = streamSlot k o ss sent done
  off       : OffStream k o.seg (l.op (otherSlot ix))
  new_id    : s.msgId + 1 ≠ l.rx.ack.id
  alone_op  : alone → (l.op (otherSlot ix)).done = true
  progress  : Progress p k o ss alone es sent done l.rx

section
variable {p : Params} {d : Nat} {ix : SlotIx} {k : Kind} {o : StreamOp} {ss : U32} {alone : Prop} {es : List Event}
  {s t : State} {l : Lane} {sent : Nat} {done : Bool}

/-- One more batch, received without error. -/
theorem InTransit.next (h : InTransit p d ix k o ss alone es s l sent done) (hround : batchRound d s = some t)
    (herr : alone ∨ ∀ l', t.lanes[d]? = some l' → l'.rx.ack.err = eNone) :
    ∃ l' sent' done', InTransit p d ix k o ss alone es t l' sent' done' ∧ l'.rx.ack = ⟨t.msgId, eNone⟩ := by
  obtain ⟨l', ⟨dev, e⟩, hl', hid, hparams, hen', hrun, hrx⟩ :=
    batchRound_batchRun h.inv h.lane_eq h.enabled h.new_id hround
  rw [h.params_eq] at hrun
  have hp : ParamsOk p := h.params_eq ▸ h.inv.params_ok
  have hlane : LaneOk p l := h.params_eq ▸ h.inv.lanes_ok l (List.mem_of_getElem? h.lane_eq)
  have hack : l'.rx.ack = ⟨t.msgId, e⟩ := by rw [hrx, hid]
  have herr' : alone ∨ e = eNone := herr.imp_right fun herr => by simpa [hack] using herr l' hl'
  obtain ⟨hnone, hoff', sent', done', hop', hprog⟩ := hrun.progress hp hlane h.op_eq h.off h.alone_op h.progress herr'
  obtain rfl : e = eNone := hnone
  refine ⟨l', sent', done', ⟨batchRound_keeps_inv h.inv hround, hparams.trans h.params_eq, hl', hen', hop', hoff', ?_,
    fun ha => ?_, hprog.kept (hrx ▸ .ack ..) fun _ => by rw [hrx]⟩, hack⟩
  · rw [hack]
    exact msgId_succ_ne _
  · rw [hrun.op_of_done (h.alone_op ha)]
    exact h.alone_op ha

/-- Any number of batches, each received without error. -/
theorem InTransit.after {j : Nat} (h : InTransit p d ix k o ss alone es s l sent done) (hrounds : batchRounds d j s = some t)
    (herr : alone ∨ ∀ m u m', 1 ≤ m → m ≤ j → batchRounds d m s = some u → u.lanes[d]? = some m' → m'.rx.ack.err = eNone) :
    ∃ l' sent' done', InTransit p d ix k o ss alone es t l' sent' done' ∧ (1 ≤ j → l'.rx.ack = ⟨t.msgId, eNone⟩) := by
  induction j generalizing s l sent done with
  | zero =>
    cases hrounds
    exact ⟨l, sent, done, h, fun hj => absurd hj (by decide)⟩
  | succ j ih =>
    obtain ⟨u, hu, hrest⟩ := Option.bind_eq_some_iff.mp hrounds
    have hfirst : batchRounds d 1 s = some u := Option.bind_eq_some_iff.mpr ⟨u, hu, rfl⟩
    obtain ⟨lu, sent1, done1, hu1, hack1⟩ := h.next hu
      (herr.imp_right fun herr lu hlu => herr 1 u lu (Nat.le_refl 1) (Nat.succ_le_succ j.zero_le) hfirst hlu)
    obtain ⟨l', sent', done', ht, hack⟩ := ih hu1 hrest (herr.imp_right fun herr m v m' hm hmj hv hm' =>
      herr (m + 1) v m' (Nat.le_add_left 1 m) (Nat.succ_le_succ hmj) (Option.bind_eq_some_iff.mpr ⟨u, hu, hv⟩) hm')
    refine ⟨l', sent', done', ht, fun _ => ?_⟩
    cases j with
    | zero =>
      cases hrest
      cases hu1.lane_eq.symm.trans ht.lane_eq
      exact hack1
    | succ j => exact hack (Nat.le_add_left 1 j)

end

theorem streamSlot_inj {k : Kind} {o : StreamOp} {ss : U32} {sent sent' : Nat} {done done' : Bool}
    (h : streamSlot k o ss sent done = streamSlot k o ss sent' done') : sent = sent' ∧ done = done' := by
  cases k <;> cases h <;> exact ⟨rfl, rfl⟩

/-- Settles O60: what is in transit before the first batch is in transit after the last, and done is arrived. -/
theorem wholePayloadRoundTrip : Obligations.WholePayloadRoundTrip := by
  intro s t d j sent l l' ix k o ss hinv hl hen hop hoff hnew herr hrounds hl' hop'
  have hstart : InTransit s.params d ix k o ss ((l.op (otherSlot ix)).done = true) l.rx.events s l 0 false :=
    ⟨hinv, rfl, hl, hen, hop, hoff, hnew, id, .start ..⟩
  obtain ⟨m, sent', done', hend, hack⟩ := hstart.after hrounds herr
  obtain rfl : l' = m := Option.some.inj (hl'.symm.trans hend.lane_eq)
  obtain ⟨rfl, rfl⟩ := streamSlot_inj (hend.op_eq.symm.trans hop')
  have hj : 1 ≤ j := by
    refine Nat.one_le_iff_ne_zero.mpr ?_
    rintro rfl
    cases hrounds
    cases hl.symm.trans hl'
    exact absurd (streamSlot_inj (hop.symm.trans hop')).2 Bool.false_ne_true
  have hprog := hend.progress
  have hstored := hprog.stored
  rw [hprog.at_end rfl] at hstored
  exact ⟨hstored, hprog.events_eq, hack hj, hprog.alone_events⟩

end Sys2Proof.Machine

namespace Sys2Proof.Machine

open Sys2Proof

/-! # ACK and MATCH (spec/43_ack_matcher.md R240 to R249) -/

/-- Settles O31: ACK runs on the lane of an existing device. -/
theorem ackParseReturnsTheRecord : Obligations.AckParseReturnsTheRecord :=
  fun _ _ l _ hl => onLane_next.mpr ⟨l, hl, rfl⟩

/-! ## One device's record -/

/-- `ACKED[d]` (R242), in the bytes of `RXBUF[d]`. -/
theorem Lane.acked_iff {id : Byte} {l : Lane} : l.acked id = true ↔ l.rxValid = true ∧ l.rxBuf.1 = id := by
  unfold Lane.acked Lane.ackParse
  cases l.rxValid <;> simp [ackOfBytes]

/-- `FWERR[d]` (R243): the acknowledgement of an enabled device with an error byte that is not 0. -/
theorem Lane.fwErr_eq (id : Byte) (l : Lane) :
    l.fwErr id = if l.enabled && l.acked id && l.rxBuf.2 != 0x00 then some l.rxBuf.2 else none := by
  unfold Lane.fwErr Lane.acked Lane.ackParse
  cases l.rxValid with
  | false => simp
  | true => rfl

/-- The code of `FWERR[d]` is the error byte. -/
theorem Lane.fwErr_eq_some {id c : Byte} {l : Lane} :
    l.fwErr id = some c ↔ l.enabled = true ∧ l.acked id = true ∧ l.rxBuf.2 = c ∧ c ≠ 0x00 := by
  simp only [Lane.fwErr_eq, Option.ite_none_right_eq_some, Option.some.injEq, Bool.and_eq_true, bne_iff_ne]
  constructor
  · rintro ⟨⟨⟨hen, hack⟩, herr⟩, rfl⟩
    exact ⟨hen, hack, rfl, herr⟩
  · rintro ⟨hen, hack, rfl, herr⟩
    exact ⟨⟨⟨hen, hack⟩, herr⟩, rfl⟩

theorem Lane.fwErr_eq_none {id : Byte} {l : Lane} :
    l.fwErr id = none ↔ ¬ (l.enabled = true ∧ l.acked id = true ∧ l.rxBuf.2 ≠ 0x00) := by
  simp [Lane.fwErr_eq, and_assoc]

/-- What ALL_ACKED asks of one device: no error, and an acknowledgement if it is enabled. -/
theorem Lane.matched_iff {id : Byte} {l : Lane} :
    l.fwErr id = none ∧ (!l.enabled || l.acked id) = true ↔
      (l.enabled = true → l.acked id = true ∧ l.rxBuf.2 = 0x00) := by
  rw [Lane.fwErr_eq_none]
  cases l.enabled <;> cases l.acked id <;> simp

/-! ## The least device with an error -/

/-- The search fails exactly when no device has an error. -/
theorem firstFwErr_eq_none {id : Byte} {ls : List Lane} {k : Nat} :
    firstFwErr id k ls = none ↔ ∀ l ∈ ls, l.fwErr id = none := by
  induction ls generalizing k with
  | nil => simp [firstFwErr]
  | cons l ls ih => cases h : l.fwErr id <;> simp [firstFwErr, h, ih]

/-- The search counts the devices from `k` on, and stops at the first with an error (R249). -/
theorem firstFwErr_eq_some {id c : Byte} {ls : List Lane} {k e : Nat} :
    firstFwErr id k ls = some (c, e) ↔ ∃ d, e = k + d ∧ (∃ l, ls[d]? = some l ∧ l.fwErr id = some c) ∧
      ∀ d' l', d' < d → ls[d']? = some l' → l'.fwErr id = none := by
  induction ls generalizing k with
  | nil => simp [firstFwErr]
  | cons l ls ih =>
    cases h : l.fwErr id with
    | some c' =>
      rw [firstFwErr, h, Option.some.injEq, Prod.mk.injEq]
      constructor
      · rintro ⟨rfl, rfl⟩
        exact ⟨0, rfl, ⟨l, rfl, h⟩, fun _ _ hlt => absurd hlt (Nat.not_lt_zero _)⟩
      · rintro ⟨d, rfl, ⟨m, hm, hc⟩, hleast⟩
        cases d with
        | zero =>
          cases hm
          exact ⟨Option.some.inj (h.symm.trans hc), rfl⟩
        | succ d => exact absurd (h.symm.trans (hleast 0 l d.succ_pos rfl)) (Option.some_ne_none c')
    | none =>
      simp only [firstFwErr, h, ih]
      constructor
      · rintro ⟨d, rfl, hd, hleast⟩
        refine ⟨d + 1, by omega, hd, fun d' l' hlt hl' => ?_⟩
        cases d' with
        | zero =>
          cases hl'
          exact h
        | succ d' => exact hleast d' l' (Nat.lt_of_succ_lt_succ hlt) hl'
      · rintro ⟨d, rfl, ⟨m, hm, hc⟩, hleast⟩
        cases d with
        | zero =>
          cases hm
          exact absurd (hc.symm.trans h) (Option.some_ne_none c)
        | succ d =>
          exact ⟨d, by omega, ⟨m, hm, hc⟩, fun d' l' hlt => hleast (d' + 1) l' (Nat.succ_lt_succ hlt)⟩

/-! ## The verdict -/

/-- FW_ERROR is the search's find. -/
theorem verdict_eq_fwError {s : State} {c : Byte} {d : Nat} :
    s.verdict = .fwError c d ↔ firstFwErr s.msgId 0 s.lanes = some (c, d) := by
  unfold State.verdict
  cases firstFwErr s.msgId 0 s.lanes with
  | some find => simp [Prod.ext_iff]
  | none => dsimp only; split <;> simp

/-- ALL_ACKED is a search that found nothing, with an acknowledgement of every enabled device. -/
theorem verdict_eq_allAcked {s : State} :
    s.verdict = .allAcked ↔
      firstFwErr s.msgId 0 s.lanes = none ∧ ∀ l ∈ s.lanes, (!l.enabled || l.acked s.msgId) = true := by
  unfold State.verdict
  cases firstFwErr s.msgId 0 s.lanes with
  | some find => simp
  | none => simp only [ite_eq_left_iff, reduceCtorEq, imp_false, not_not, List.all_eq_true, true_and]

/-- Settles O49: the search for an error, in the bytes of the records. -/
theorem matchGivesTheVerdict : Obligations.MatchGivesTheVerdict := by
  refine fun s => ⟨s.verdict, rfl, fun c d => ?_, ?_⟩
  · rw [verdict_eq_fwError, firstFwErr_eq_some]
    simp only [Nat.zero_add, exists_eq_left', Lane.fwErr_eq_some, Lane.fwErr_eq_none, Lane.acked_iff]
  · rw [verdict_eq_allAcked, firstFwErr_eq_none, ← forall₂_and]
    simp only [Lane.matched_iff, Lane.acked_iff]

end Sys2Proof.Machine
namespace Sys2Proof.Machine

open Sys2Proof

/-! # The send loop, a command at a time (spec/44_host_session.md R262 to R269) -/

/-- A command that raised `e` has it in `ret` already, so the failure of the call leaves `ret` as it is. -/
theorem State.failCall_of_raised {t : State} {e : HostError} (h : t.ret = .error e) :
    t.failCall e = { t with session := .failed, callResult := .error e, hostPc := .idle } := by
  rw [State.failCall, ← h]

/-- A step of the loop whose command completes in `t`: an error of the command fails the call, and otherwise the loop goes on. -/
theorem step_host_thenLoop {s t : State} {w : HostDraw} {rest : List Turn} {o : Host.Outcome State Fault Refusal}
    {k : State → State} (hq : s.queue = .host w :: rest) (hturn : hostTurn w { s with queue := rest } = thenLoop o k)
    (ht : o = .next t) :
    (∀ e, t.ret = .error e → step s = .next { t with session := .failed, callResult := .error e, hostPc := .idle }) ∧
      ((∀ e, t.ret ≠ .error e) → step s = .next (k t)) := by
  have hstep : step s = thenLoop o k := (step_cons hq).trans hturn
  rw [hstep]
  exact ⟨fun e he => thenLoop_next.mpr ⟨t, ht, .inl ⟨e, he, (State.failCall_of_raised he).symm⟩⟩,
    fun hne => thenLoop_next.mpr ⟨t, ht, .inr ⟨hne, rfl⟩⟩⟩

/-- A value that is not an error lets the loop go on. -/
theorem Ret.ne_error_of_eq_ok {r : Ret} (h : r = .ok) (e : HostError) : r ≠ .error e := by
  subst h; exact nofun

theorem Ret.ne_error_of_eq_verdict {r : Ret} {v : Verdict} (h : r = .verdict v) (e : HostError) : r ≠ .error e := by
  subst h; exact nofun

/-- `ALL_DONE` (spec/40_fragment_codec.md R144), device by device. -/
theorem State.allDone_iff {s : State} :
    s.allDone = true ↔ ∀ l ∈ s.lanes, l.enabled = true → l.pri.done = true ∧ l.sec.done = true := by
  simp only [State.allDone, List.all_eq_true, Lane.isDone, Bool.or_eq_true, Bool.not_eq_true', Bool.and_eq_true,
    ← Bool.not_eq_true, ← imp_iff_not_or]

/-! ## After SEND and after MATCH -/

theorem afterSend_of_timeout {s : State} (h : s.tz = false) :
    afterSend s = { s with session := .awaitingAck, hostPc := .receive } :=
  if_neg (by simp [h])

theorem afterSend_of_ended {s : State} (h : s.tz = true) (hend : s.params.tzPolicy = .oneSend ∨ s.allDone = true) :
    afterSend s = s.endCall :=
  (if_pos h).trans (if_pos (by simpa using hend))

theorem afterSend_of_unfinished {s : State} (h : s.tz = true) (hall : s.params.tzPolicy = .allFragments)
    (hdone : s.allDone = false) : afterSend s = { s with hostPc := .issue } :=
  (if_pos h).trans (if_neg (by simp [hall, hdone]))

/-- SEND leaves `tz` and the parameters as they are. -/
theorem execSend_frame {io : Bool} {s t : State} (h : execSend io s = .next t) : t.tz = s.tz ∧ t.params = s.params := by
  obtain ⟨e, -, rfl⟩ | ⟨-, rfl⟩ := execSend_next.mp h <;> exact ⟨rfl, rfl⟩

theorem afterMatch_fwError {s : State} {c : Byte} {d : Nat} (timeout : Bool) (h : s.verdict = .fwError c d) :
    afterMatch timeout s = s.failCall (.firmware c d) := by
  simp only [afterMatch, h]

theorem afterMatch_allAcked {s : State} (timeout : Bool) (h : s.verdict = .allAcked) :
    afterMatch timeout s = if s.allDone then s.endCall else { s with session := .sending, hostPc := .issue } := by
  simp only [afterMatch, h]

theorem afterMatch_pending {s : State} (timeout : Bool) (h : s.verdict = .pending) :
    afterMatch timeout s = if timeout then s.failCall .confirmResponseFailed else { s with hostPc := .receive } := by
  simp only [afterMatch, h]

/-! ## The loop's steps -/

/-- The ENABLE and LOAD commands of the loop are the instructions of their names. -/
theorem SetupCmd.run_eq_exec_of_named {c : SetupCmd} {i : Instr}
    (h : (∃ d b, c = .enable d b ∧ i = .enable d b) ∨ (∃ d k op, c = .load d k op ∧ i = .load d k op)) (s : State) :
    c.run s = exec i s := by
  obtain ⟨d, b, rfl, rfl⟩ | ⟨d, k, op, rfl, rfl⟩ := h <;> rfl

/-- Settles O52: each place of the loop runs its command, and `thenLoop` says what follows. -/
theorem loopLoadsIssuesAndSends : Obligations.LoopLoadsIssuesAndSends := by
  refine ⟨fun s t w rest hq => ⟨fun c todo i hpc hi ht => ?_, fun hpc ht => ?_, fun hpc ht => ?_⟩, fun s => s.allDone_iff⟩
  · obtain ⟨hfail, hgo⟩ := step_host_thenLoop hq (hostTurn_setup hpc) ((SetupCmd.run_eq_exec_of_named hi _).trans ht)
    refine ⟨fun hok hne => ?_, fun hok hnil => ?_, hfail⟩
    · obtain ⟨c', todo', rfl⟩ := List.exists_cons_of_ne_nil hne
      exact hgo (Ret.ne_error_of_eq_ok hok)
    · subst hnil
      exact hgo (Ret.ne_error_of_eq_ok hok)
  · obtain ⟨hfail, hgo⟩ := step_host_thenLoop hq (hostTurn_issue hpc) ht
    exact ⟨fun hok => hgo (Ret.ne_error_of_eq_ok hok), hfail⟩
  · obtain ⟨hfail, hgo⟩ := step_host_thenLoop hq (hostTurn_send hpc) ht
    obtain ⟨htz, hparams⟩ : t.tz = s.tz ∧ t.params = s.params := execSend_frame (s := { s with queue := rest }) ht
    rw [← htz, ← hparams]
    refine ⟨hfail, fun hok h0 => ?_, fun hok h1 hend => ?_, fun hok h1 hall hdone => ?_⟩
    · rw [hgo (Ret.ne_error_of_eq_ok hok), afterSend_of_timeout h0]
    · rw [hgo (Ret.ne_error_of_eq_ok hok), afterSend_of_ended h1 hend]
      rfl
    · rw [hgo (Ret.ne_error_of_eq_ok hok), afterSend_of_unfinished h1 hall hdone]

/-- Settles O53: MATCH writes nothing but its verdict, so the loop's choice after it reads the verdict that MATCH returned. -/
theorem loopReceivesAndMatches : Obligations.LoopReceivesAndMatches := by
  refine fun s t w rest hq => ⟨fun hpc ht => ?_, fun hpc ht => ?_⟩
  · obtain ⟨hfail, hgo⟩ := step_host_thenLoop hq (hostTurn_receive hpc) ht
    exact ⟨fun hok => hgo (Ret.ne_error_of_eq_ok hok), hfail⟩
  · have hturn : ∀ v, t.ret = .verdict v →
        t.verdict = v ∧ t.allDone = s.allDone ∧ step s = .next (afterMatch w.timeout t) := by
      intro v hv
      have hgo := (step_host_thenLoop hq (hostTurn_matching hpc) ht).2 (Ret.ne_error_of_eq_verdict hv)
      cases ht
      exact ⟨Ret.verdict.inj hv, rfl, hgo⟩
    refine ⟨fun c d hv => ?_, fun hv hdone => ?_, fun hv hdone => ?_, fun hv htime => ?_, fun hv htime => ?_⟩
    all_goals obtain ⟨hverdict, hall, hstep⟩ := hturn _ hv
    · rw [hstep, afterMatch_fwError _ hverdict]
      rfl
    · rw [hstep, afterMatch_allAcked _ hverdict, if_pos (hall.trans hdone)]
      rfl
    · rw [hstep, afterMatch_allAcked _ hverdict, if_neg (by simp [hall, hdone])]
    · rw [hstep, afterMatch_pending _ hverdict, if_pos htime]
      rfl
    · rw [hstep, afterMatch_pending _ hverdict, if_neg (by simp [htime])]

end Sys2Proof.Machine

namespace Sys2Proof.Machine

open Sys2Proof

/-! # A call before its first batch (spec/44_host_session.md R260 to R262, R264) -/

/-! ## Steps in a row -/

theorem runSteps_succ {s t : State} (h : step s = .next t) (j : Nat) : runSteps (j + 1) s = runSteps j t := by
  simp only [runSteps, h]

theorem runSteps_add (i j : Nat) (s : State) : runSteps (i + j) s = (runSteps i s).bind (runSteps j) := by
  induction i generalizing s with
  | zero => rw [Nat.zero_add]; rfl
  | succ i ih =>
    rw [Nat.succ_add, runSteps, runSteps]
    cases step s with
    | next t => exact ih t
    | fault r => rfl
    | refused r => rfl

/-! ## The commands of a call -/

/-- The commands of a call are its devices' ENABLEs and LOADs in index order (R262). -/
theorem setupCmds_eq_flatten_mapIdx (d : Nat) (calls : List DeviceCall) :
    setupCmds d calls = (calls.mapIdx fun i c => deviceSetup (d + i) c).flatten := by
  induction calls generalizing d with
  | nil => rfl
  | cons c cs ih => simp [setupCmds, ih, Nat.add_assoc, Nat.add_comm 1]

/-- The commands still to be given after the first `d` devices begin with device `d`'s. -/
theorem setupCmds_drop {calls : List DeviceCall} {d : Nat} {c : DeviceCall} (hc : calls[d]? = some c) :
    setupCmds d (calls.drop d) = deviceSetup d c ++ setupCmds (d + 1) (calls.drop (d + 1)) := by
  obtain ⟨hd, rfl⟩ := List.getElem?_eq_some_iff.mp hc
  rw [List.drop_eq_getElem_cons hd, setupCmds]

theorem operandOk_effectiveOp {c : DeviceCall} {op : Operation} (h : c.enabled = true → op.inDomain = true) :
    operandOk (effectiveOp c op) = true := by
  unfold effectiveOp
  split
  case isTrue hen => exact h hen
  case isFalse => rfl

/-- What a call's LOADs leave in a lane, whether the device is enabled or not. -/
theorem CallLoaded.loadedSlots {p : Params} {c : DeviceCall} {l l' : Lane} (h : CallLoaded p c l l') :
    ∃ o1 o2, l' = { l with enabled := c.enabled, pri := o1, sec := o2 } ∧
      loadedSlot p (effectiveOp c c.pri) = .ok o1 ∧ loadedSlot p (effectiveOp c c.sec) = .ok o2 := by
  obtain ⟨o1, o2, rfl, hoff, hon⟩ := h
  refine ⟨o1, o2, rfl, ?_⟩
  unfold effectiveOp
  cases hen : c.enabled with
  | true => exact hon hen
  | false =>
    obtain ⟨rfl, rfl⟩ := hoff hen
    exact ⟨rfl, rfl⟩

/-! ## Between two of them -/

/-- A call that began in `s`, with the commands `todo` still to be given, the lanes `ls` so far and the turns `q` to come. Every
command before was a success. -/
def loading (s : State) (todo : List SetupCmd) (ls : List Lane) (q : List Turn) : State :=
  afterSetup todo { s with lanes := ls, ret := .ok, queue := q }

/-- SEND_DATAGRAM on an open link starts the call with all of its commands to be given. -/
theorem exec_sendDatagram_eq_loading {s : State} {calls : List DeviceCall} {q : List Turn} (timeout : Nat)
    (hrun : s.callRunning = false) (hlen : calls.length = s.lanes.length)
    (hdom : ∀ c ∈ calls, operandOk (effectiveOp c c.pri) = true ∧ operandOk (effectiveOp c c.sec) = true)
    (hopen : s.linkOpen = true) (hq : s.queue = q) :
    exec (.sendDatagram calls timeout) s
      = .next (loading { s with tz := decide (timeout = 0) } (setupCmds 0 calls) s.lanes q) := by
  subst hq
  refine execSendDatagram_next.mpr ⟨hrun, hlen, hdom, .inr ⟨hopen, ?_⟩⟩
  cases setupCmds 0 calls <;> rfl

/-- After the last command `SESSION` is `Sending` and ISSUE is next. -/
theorem loading_nil (s : State) (ls : List Lane) (q : List Turn) :
    loading s [] ls q = { s with lanes := ls, session := .sending, hostPc := .issue, ret := .ok, queue := q } := rfl

section
variable {s : State} {todo : List SetupCmd} {ls : List Lane} {w : HostDraw} {q : List Turn} {d : Nat} {l : Lane} {k : SlotIx}
  {op : Operation}

/-- A command that writes a lane and succeeds leads to the next command. -/
theorem step_loading {c : SetupCmd} {ls' : List Lane}
    (hrun : ∀ pc, c.run { s with lanes := ls, hostPc := pc, ret := .ok, queue := q }
      = .next { s with lanes := ls', hostPc := pc, ret := .ok, queue := q }) :
    step (loading s (c :: todo) ls (.host w :: q)) = .next (loading s todo ls' q) := by
  rw [(step_host_thenLoop rfl (hostTurn_setup rfl) (hrun _)).2 (Ret.ne_error_of_eq_ok rfl)]
  cases todo <;> rfl

theorem step_loading_enable (b : Bool) (hl : ls[d]? = some l) :
    step (loading s (.enable d b :: todo) ls (.host w :: q)) = .next (loading s todo (ls.set d { l with enabled := b }) q) :=
  step_loading fun _ => onLane_next.mpr ⟨l, hl, rfl⟩

theorem step_loading_load {o : OpSlot} (hidle : s.inFlight = false) (hop : operandOk op = true) (hl : ls[d]? = some l)
    (ho : loadedSlot s.params op = .ok o) :
    step (loading s (.load d k op :: todo) ls (.host w :: q)) = .next (loading s todo (ls.set d (l.setOp k o)) q) :=
  step_loading fun _ => execLoad_next.mpr ⟨hidle, hop, l, hl, .inr ⟨o, ho, rfl⟩⟩

/-- A LOAD that fails ends the call there (R264). -/
theorem step_loading_load_error {e : HostError} (hidle : s.inFlight = false) (hop : operandOk op = true)
    (hl : ls[d]? = some l) (he : loadedSlot s.params op = .error e) :
    step (loading s (.load d k op :: todo) ls (.host w :: q))
      = .next (State.failCall { s with lanes := ls, queue := q } e) := by
  have hraise : ∀ pc, (SetupCmd.load d k op).run { s with lanes := ls, hostPc := pc, ret := .ok, queue := q }
      = .next { s with lanes := ls, hostPc := pc, ret := .error e, queue := q } := fun _ =>
    execLoad_next.mpr ⟨hidle, hop, l, hl, .inl ⟨e, he, rfl⟩⟩
  exact (step_host_thenLoop (s := loading s (.load d k op :: todo) ls (.host w :: q)) rfl (hostTurn_setup rfl) (hraise _)).1 e rfl

/-! ## One device -/

variable {c : DeviceCall} {w1 w2 w3 : HostDraw}

/-- A device's three commands, when its LOADs succeed. -/
theorem runSteps_loading_device {l' : Lane} (hidle : s.inFlight = false)
    (hdom : operandOk (effectiveOp c c.pri) = true ∧ operandOk (effectiveOp c c.sec) = true) (hl : ls[d]? = some l)
    (hloaded : CallLoaded s.params c l l') :
    runSteps 3 (loading s (deviceSetup d c ++ todo) ls (.host w1 :: .host w2 :: .host w3 :: q))
      = some (loading s todo (ls.set d l') q) := by
  obtain ⟨o1, o2, rfl, hpri, hsec⟩ := hloaded.loadedSlots
  have hd : d < ls.length := (List.getElem?_eq_some_iff.mp hl).1
  rw [deviceSetup, List.cons_append, runSteps_succ (step_loading_enable _ hl),
    List.cons_append, runSteps_succ (step_loading_load hidle hdom.1 (List.getElem?_set_self hd) hpri), List.set_set,
    List.cons_append, runSteps_succ (step_loading_load hidle hdom.2 (List.getElem?_set_self hd) hsec), List.set_set]
  rfl

/-- A device whose LOAD of the primary fails keeps its ENABLE. -/
theorem runSteps_loading_pri_error {e : HostError} (hidle : s.inFlight = false)
    (hdom : operandOk (effectiveOp c c.pri) = true) (hl : ls[d]? = some l)
    (he : loadedSlot s.params (effectiveOp c c.pri) = .error e) :
    runSteps 2 (loading s (deviceSetup d c ++ todo) ls (.host w1 :: .host w2 :: q))
      = some (State.failCall { s with lanes := ls.set d { l with enabled := c.enabled }, queue := q } e) := by
  have hd : d < ls.length := (List.getElem?_eq_some_iff.mp hl).1
  rw [deviceSetup, List.cons_append, runSteps_succ (step_loading_enable _ hl),
    List.cons_append, runSteps_succ (step_loading_load_error hidle hdom (List.getElem?_set_self hd) he)]
  rfl

/-- A device whose LOAD of the secondary fails keeps its ENABLE and its primary. -/
theorem runSteps_loading_sec_error {o : OpSlot} {e : HostError} (hidle : s.inFlight = false)
    (hdom : operandOk (effectiveOp c c.pri) = true ∧ operandOk (effectiveOp c c.sec) = true) (hl : ls[d]? = some l)
    (ho : loadedSlot s.params (effectiveOp c c.pri) = .ok o) (he : loadedSlot s.params (effectiveOp c c.sec) = .error e) :
    runSteps 3 (loading s (deviceSetup d c ++ todo) ls (.host w1 :: .host w2 :: .host w3 :: q))
      = some (State.failCall { s with lanes := ls.set d { l with enabled := c.enabled, pri := o }, queue := q } e) := by
  have hd : d < ls.length := (List.getElem?_eq_some_iff.mp hl).1
  rw [deviceSetup, List.cons_append, runSteps_succ (step_loading_enable _ hl),
    List.cons_append, runSteps_succ (step_loading_load hidle hdom.1 (List.getElem?_set_self hd) ho), List.set_set,
    List.cons_append, runSteps_succ (step_loading_load_error hidle hdom.2 (List.getElem?_set_self hd) he)]
  rfl

end

/-! ## The devices in index order -/

/-- Writing entry `n` moves the border between the new list and the old one. -/
theorem set_take_append_drop {α : Type} {xs ys : List α} {n : Nat} {y : α} (hlen : ys.length = xs.length)
    (hy : ys[n]? = some y) : (ys.take n ++ xs.drop n).set n y = ys.take (n + 1) ++ xs.drop (n + 1) := by
  obtain ⟨hn, rfl⟩ := List.getElem?_eq_some_iff.mp hy
  have htake : (ys.take n).length = n := List.length_take_of_le hn.le
  rw [List.set_append_right n _ htake.le, htake, Nat.sub_self, List.drop_eq_getElem_cons (hlen ▸ hn), List.set_cons_zero,
    List.take_succ_eq_append_getElem hn, List.append_assoc, List.singleton_append]

theorem getElem?_take_append_drop {α : Type} {xs ys : List α} {n : Nat} (hn : n ≤ ys.length) :
    (ys.take n ++ xs.drop n)[n]? = xs[n]? := by
  have htake : (ys.take n).length = n := List.length_take_of_le hn
  rw [List.getElem?_append_right htake.le, htake, Nat.sub_self, List.getElem?_drop, Nat.add_zero]

/-- The turns of `m + n` draws are those of the first `m` and those of the other `n`. -/
theorem exists_host_append {ws : List HostDraw} {m n : Nat} (h : ws.length = m + n) :
    ∃ ws1 ws2 : List HostDraw, ws1.length = m ∧ ws2.length = n ∧ ws.map Turn.host = ws1.map .host ++ ws2.map .host :=
  ⟨ws.take m, ws.drop m, by simp [h], by simp [h], by rw [← List.map_append, List.take_append_drop]⟩

section
variable {s : State} {calls : List DeviceCall} {ls : List Lane} (hidle : s.inFlight = false)
  (hlen : calls.length = s.lanes.length)
  (hdom : ∀ c ∈ calls, operandOk (effectiveOp c c.pri) = true ∧ operandOk (effectiveOp c c.sec) = true)
  (hls : ls.length = s.lanes.length)
include hidle hlen hdom hls

/-- After `3 * n` host steps the first `n` devices have the call's lanes and the others their own. -/
theorem runSteps_loading_devices {n : Nat} (hn : n ≤ s.lanes.length)
    (hloaded : ∀ (d : Nat) (c : DeviceCall) (l : Lane), d < n → calls[d]? = some c → s.lanes[d]? = some l →
      ∃ l', ls[d]? = some l' ∧ CallLoaded s.params c l l')
    {ws : List HostDraw} (hws : ws.length = 3 * n) (q : List Turn) :
    runSteps (3 * n) (loading s (setupCmds 0 calls) s.lanes (ws.map .host ++ q))
      = some (loading s (setupCmds n (calls.drop n)) (ls.take n ++ s.lanes.drop n) q) := by
  induction n generalizing ws q with
  | zero =>
    obtain rfl := List.eq_nil_of_length_eq_zero hws
    rfl
  | succ n ih =>
    obtain ⟨ws1, ws2, hws1, hws2, hsplit⟩ := exists_host_append (show ws.length = 3 * n + 3 from hws)
    obtain ⟨w1, w2, w3, rfl⟩ := List.length_eq_three.mp hws2
    have hc := List.getElem?_eq_getElem (hlen ▸ hn : n < calls.length)
    have hl := List.getElem?_eq_getElem (hn : n < s.lanes.length)
    obtain ⟨l', hl', hcall⟩ := hloaded n _ _ n.lt_succ_self hc hl
    have hbefore := ih (Nat.le_of_succ_le hn) (fun d c l hd => hloaded d c l (Nat.lt_succ_of_lt hd)) hws1
    have hlane := (getElem?_take_append_drop (hls ▸ Nat.le_of_succ_le hn)).trans hl
    rw [hsplit, List.append_assoc, Nat.mul_succ, runSteps_add, hbefore, Option.bind_some, setupCmds_drop hc,
      ← set_take_append_drop hls hl']
    exact runSteps_loading_device hidle (hdom _ (List.getElem_mem _)) hlane hcall

/-- After all of them `SESSION` is `Sending`. -/
theorem runSteps_loading_all (hloaded : ∀ (d : Nat) (c : DeviceCall) (l : Lane), calls[d]? = some c → s.lanes[d]? = some l →
      ∃ l', ls[d]? = some l' ∧ CallLoaded s.params c l l')
    {ws : List HostDraw} (hws : ws.length = 3 * s.lanes.length) (q : List Turn) :
    runSteps (3 * s.lanes.length) (loading s (setupCmds 0 calls) s.lanes (ws.map .host ++ q))
      = some { s with lanes := ls, session := .sending, hostPc := .issue, ret := .ok, queue := q } := by
  rw [runSteps_loading_devices hidle hlen hdom hls le_rfl (fun d c l _ => hloaded d c l) hws,
    List.drop_eq_nil_of_le hlen.le, setupCmds, List.drop_length, List.append_nil, List.take_of_length_le hls.le, loading_nil]

/-- The devices before `d`, and then the commands of device `d` up to a LOAD that fails: the devices after it keep their own
lanes. -/
theorem runSteps_loading_fails {d n : Nat} {c : DeviceCall} {l : Lane} {e : HostError} (hc : calls[d]? = some c)
    (hl : s.lanes[d]? = some l) (hen : c.enabled = true)
    (hbefore : ∀ (d' : Nat) (c' : DeviceCall) (l' : Lane), d' < d → calls[d']? = some c' → s.lanes[d']? = some l' →
      ∃ l'', ls[d']? = some l'' ∧ CallLoaded s.params c' l' l'')
    (hafter : ∀ d', d < d' → ls[d']? = s.lanes[d']?)
    (hfail : (n = 2 ∧ loadedSlot s.params c.pri = .error e ∧ ls[d]? = some { l with enabled := true }) ∨
      (n = 3 ∧ loadedSlot s.params c.sec = .error e ∧
        ∃ o1, loadedSlot s.params c.pri = .ok o1 ∧ ls[d]? = some { l with enabled := true, pri := o1 }))
    {ws : List HostDraw} (hws : ws.length = 3 * d + n) (q : List Turn) :
    runSteps (3 * d + n) (loading s (setupCmds 0 calls) s.lanes (ws.map .host ++ q))
      = some (State.failCall { s with lanes := ls, queue := q } e) := by
  have hd : d < s.lanes.length := (List.getElem?_eq_some_iff.mp hl).1
  obtain ⟨ws1, ws2, hws1, hws2, hsplit⟩ := exists_host_append hws
  have hpre := runSteps_loading_devices hidle hlen hdom hls hd.le hbefore hws1
  have hlane := (getElem?_take_append_drop (hls ▸ hd.le)).trans hl
  have hset : ∀ m, ls[d]? = some m → (ls.take d ++ s.lanes.drop d).set d m = ls := fun m hm => by
    have hdrop : s.lanes.drop (d + 1) = ls.drop (d + 1) := List.ext_getElem? fun i => by
      rw [List.getElem?_drop, List.getElem?_drop, hafter _ (by omega)]
    rw [set_take_append_drop hls hm, hdrop, List.take_append_drop]
  have hpri : effectiveOp c c.pri = c.pri := if_pos hen
  have hsec : effectiveOp c c.sec = c.sec := if_pos hen
  have hops := hdom c (List.mem_of_getElem? hc)
  rw [hsplit, List.append_assoc, runSteps_add, hpre, Option.bind_some, setupCmds_drop hc]
  obtain ⟨rfl, he, hm⟩ | ⟨rfl, he, o, ho, hm⟩ := hfail
  · obtain ⟨w1, w2, rfl⟩ := List.length_eq_two.mp hws2
    refine (runSteps_loading_pri_error hidle hops.1 hlane (hpri.symm ▸ he)).trans ?_
    rw [hen, hset _ hm]
    rfl
  · obtain ⟨w1, w2, w3, rfl⟩ := List.length_eq_three.mp hws2
    refine (runSteps_loading_sec_error hidle hops hlane (hpri.symm ▸ ho) (hsec.symm ▸ he)).trans ?_
    rw [hen, hset _ hm]
    rfl

end

/-- A call's operations are in their domains, NULL ones included. -/
theorem operandOk_of_enabled_inDomain {calls : List DeviceCall}
    (h : ∀ c ∈ calls, c.enabled = true → c.pri.inDomain = true ∧ c.sec.inDomain = true) :
    ∀ c ∈ calls, operandOk (effectiveOp c c.pri) = true ∧ operandOk (effectiveOp c c.sec) = true := fun c hc =>
  ⟨operandOk_effectiveOp fun hen => (h c hc hen).1, operandOk_effectiveOp fun hen => (h c hc hen).2⟩

/-- Settles O50: the call's commands are `setupCmds`, and `runSteps_loading_all` plays them. -/
theorem callStartsSending : Obligations.CallStartsSending := by
  intro s calls timeout hsending hawaiting hsetup hopen hD hlen hdom
  have hrun : s.callRunning = false := State.callRunning_eq_false.mpr ⟨hsending, hawaiting, hsetup⟩
  have hidle : s.inFlight = false := State.inFlight_eq_false.mpr ⟨hsending, hawaiting⟩
  have hops := operandOk_of_enabled_inDomain hdom
  refine ⟨_, exec_sendDatagram_eq_loading timeout hrun hlen hops hopen rfl, ?_, ?_⟩
  · obtain ⟨c, cs, rfl⟩ := List.exists_cons_of_length_pos (hlen ▸ hD : 0 < calls.length)
    have hcmds := setupCmds_eq_flatten_mapIdx 0 (c :: cs)
    simp only [Nat.zero_add] at hcmds
    exact congrArg (fun cmds => { s with tz := decide (timeout = 0), ret := .ok, hostPc := .setup cmds }) hcmds
  · intro ls ws rest hq hws hls hloaded
    have hall := runSteps_loading_all (s := { s with tz := decide (timeout = 0) }) hidle hlen hops hls hloaded hws rest
    exact (congrArg (fun q => runSteps _ (loading _ _ _ q)) hq).trans hall

/-- Settles O51: a closed link fails the call at once, and `runSteps_loading_fails` is the failing LOAD. -/
theorem callFailsBeforeAnyBatch : Obligations.CallFailsBeforeAnyBatch := by
  intro s calls timeout hsending hawaiting hsetup hlen hdom
  have hrun : s.callRunning = false := State.callRunning_eq_false.mpr ⟨hsending, hawaiting, hsetup⟩
  have hidle : s.inFlight = false := State.inFlight_eq_false.mpr ⟨hsending, hawaiting⟩
  have hops := operandOk_of_enabled_inDomain hdom
  refine ⟨fun hclosed => execSendDatagram_next.mpr ⟨hrun, hlen, hops, .inl ⟨hclosed, rfl⟩⟩, ?_⟩
  intro hopen d n c l e ls ws rest t hc hl hen hls hbefore hafter hfail hq hws ht
  cases ht.symm.trans (exec_sendDatagram_eq_loading timeout hrun hlen hops hopen hq)
  exact runSteps_loading_fails (s := { s with tz := decide (timeout = 0) }) hidle hlen hops hls hc hl hen hbefore hafter hfail
    hws rest

end Sys2Proof.Machine

namespace Sys2Proof.Machine

open Sys2Proof

/-! # Who can fault (spec/60_exceptions.md R292)

Each operation that can fault has one lemma that says exactly when; every other command never faults, and so neither does a turn of
the send loop. `WrongSized` gathers the instructions whose own operands make them fault. -/

section
variable {s : State} {d : Nat} {r : Fault}

/-! ## The commands that can fault -/

/-- FRAME faults exactly on a payload of fewer than `N` bytes (log entry 19). -/
theorem execFrame_fault {f : Frame} :
    execFrame d f s = .fault r ↔ d < s.lanes.length ∧ f.payload.length < s.params.n ∧ r = .memOutside := by
  simp only [execFrame, onLane_fault, List.getElem?_eq_some_iff]
  by_cases hshort : f.payload.length < s.params.n
  · simp [hshort, eq_comm]
  · by_cases hlong : s.params.n < f.payload.length <;> simp [hshort, hlong, rxOn_eq]

/-- DEV_RX faults exactly on fewer than `4 + N` bytes: a whole frame can be decoded. -/
theorem execDevRx_fault {B : List Byte} :
    execDevRx d B s = .fault r ↔ d < s.lanes.length ∧ B.length < 4 + s.params.n ∧ r = .memOutside := by
  simp only [execDevRx, onLane_fault, List.getElem?_eq_some_iff]
  by_cases hshort : B.length < 4 + s.params.n
  · simp [hshort, eq_comm]
  · obtain ⟨f, hf, -⟩ := decodeFrame_some (B := B) (by omega)
    by_cases hlong : 4 + s.params.n < B.length <;> simp [hshort, hlong, hf, rxOn_eq]

/-- DELIVER never faults on a wire that holds a frame header. -/
theorem execDeliver_ne_fault (hwire : ∀ l ∈ s.lanes, 4 ≤ l.wire.length) : execDeliver d s ≠ .fault r := by
  intro h
  obtain ⟨l, hl, h⟩ := onLane_fault.mp h
  obtain ⟨f, hf, -⟩ := decodeFrame_some (hwire l (List.mem_of_getElem? hl))
  simp [hf, rxOn_eq] at h

/-- A pack command faults exactly on a window beyond `N`, or else on a buffer of fewer than `N` bytes (log entry 18). -/
theorem packInto_fault {k : SlotIx} {buf : List Byte} {base budget : Nat}
    {pack : OpSlot → Host.Outcome (Except HostError (List Byte × OpSlot)) Fault Refusal} (hpack : ∀ o r, pack o ≠ .fault r) :
    s.packInto d k buf base budget pack = .fault r ↔ d < s.lanes.length ∧
      ((s.params.n < base + budget ∧ r = .packBudget) ∨
       (base + budget ≤ s.params.n ∧ buf.length < s.params.n ∧ r = .memOutside)) := by
  simp only [State.packInto, onLane_fault, List.getElem?_eq_some_iff]
  by_cases hwin : s.params.n < base + budget
  · simp [hwin, Nat.not_le.mpr hwin, eq_comm]
  · by_cases hshort : buf.length < s.params.n
    · simp [hwin, hshort, Nat.not_lt.mp hwin, eq_comm]
    · simp only [hwin, hshort, if_false, false_and, and_false, or_false, iff_false]
      rintro ⟨l, -, h⟩
      split_ifs at h
      cases ho : pack (l.op k) with
      | next x => cases x <;> simp [ho] at h
      | fault r' => exact hpack _ _ ho
      | refused r' => simp [ho] at h

/-! ## Buffers and frames that are too long -/

theorem execFrame_tooLong {f : Frame} (hd : d < s.lanes.length) (h : s.params.n < f.payload.length) :
    execFrame d f s = .refused .operandDomain := by
  rw [execFrame, onLane_some _ (List.getElem?_eq_getElem hd), if_neg (by omega), if_pos h]

theorem execDevRx_tooLong {B : List Byte} (hd : d < s.lanes.length) (h : 4 + s.params.n < B.length) :
    execDevRx d B s = .refused .operandDomain := by
  rw [execDevRx, onLane_some _ (List.getElem?_eq_getElem hd), if_neg (by omega), if_pos h]

theorem packInto_tooLong {k : SlotIx} {buf : List Byte} {base budget : Nat} (hd : d < s.lanes.length)
    (hwin : base + budget ≤ s.params.n) (h : s.params.n < buf.length)
    (pack : OpSlot → Host.Outcome (Except HostError (List Byte × OpSlot)) Fault Refusal) :
    s.packInto d k buf base budget pack = .refused .operandDomain := by
  rw [State.packInto, onLane_some _ (List.getElem?_eq_getElem hd), if_neg (by omega), if_neg (by omega), if_pos h]

/-! ## The pack commands -/

theorem wrongKind_ne_fault (o : OpSlot) (r : Fault) : wrongKind o ≠ .fault r := by
  cases h : o.done <;> simp [wrongKind, h]

/-- Each pack command is `State.packInto` with a pack that never faults itself. -/
theorem exec_packCommand {k : SlotIx} {buf : List Byte} {base budget : Nat} {i : Instr}
    (hi : i ∈ [Instr.packMod d k buf base budget, .packFoci d k buf base budget, .packAtomic d k buf base budget]) (s : State) :
    ∃ pack, exec i s = s.packInto d k buf base budget pack ∧ ∀ o r, pack o ≠ .fault r := by
  simp only [List.mem_cons, List.not_mem_nil, or_false] at hi
  obtain rfl | rfl | rfl := hi
  all_goals
    rw [exec]
    refine ⟨_, rfl, fun o r => ?_⟩
    split
    · exact nofun
    · exact wrongKind_ne_fault _ r

/-! ## The commands that never fault -/

theorem execLoad_ne_fault {k : SlotIx} {op : Operation} : execLoad d k op s ≠ .fault r := by
  intro h
  obtain ⟨l, -, h⟩ := onLane_fault.mp h
  split_ifs at h
  cases ho : loadedSlot s.params op <;> simp [ho] at h

theorem execEnable_ne_fault {b : Bool} : execEnable d b s ≠ .fault r := by
  simp [execEnable, onLane_fault]

theorem execRequiredSize_ne_fault {k : SlotIx} : execRequiredSize d k s ≠ .fault r := by
  simp [execRequiredSize, onLane_fault]

theorem execAck_ne_fault {a : AckRec} : execAck d a s ≠ .fault r := by
  simp [execAck, onLane_fault]

theorem execIssue_ne_fault : execIssue s ≠ .fault r := by
  unfold execIssue
  cases packAll s.params (s.msgId + 1) s.lanes <;> simp

theorem execSend_ne_fault {io : Bool} : execSend io s ≠ .fault r := by
  unfold execSend
  cases s.linkError io <;> simp

theorem execReceive_ne_fault {io : Bool} {draws : List RxDraw} : execReceive io draws s ≠ .fault r := by
  unfold execReceive
  split_ifs
  · exact nofun
  · cases s.linkError io <;> simp

theorem execSendDatagram_ne_fault {calls : List DeviceCall} {timeout : Nat} : execSendDatagram calls timeout s ≠ .fault r := by
  unfold execSendDatagram
  split_ifs <;> simp

theorem resetDev_ne_fault : resetDev d s ≠ .fault r := by
  simp [resetDev, onLane_fault]

/-- An instruction that is a slot format. -/
theorem exec_ne_fault_of_toInstr {sl : Slot} {i : Instr} (hi : sl.toInstr d = some i) : exec i s ≠ .fault r := by
  rw [exec_of_toInstr s hi]
  exact onDevice_ne_fault

/-! ## The send loop -/

/-- A turn of the loop faults exactly when its command does. -/
theorem thenLoop_fault {o : Host.Outcome State Fault Refusal} {k : State → State} :
    thenLoop o k = .fault r ↔ o = .fault r := by
  unfold thenLoop
  cases o with
  | next u => cases h : u.ret <;> simp [h]
  | fault r' => simp
  | refused r' => simp

theorem SetupCmd.run_ne_fault {c : SetupCmd} : c.run s ≠ .fault r := by
  cases c with
  | enable d b => exact execEnable_ne_fault
  | load d k op => exact execLoad_ne_fault

/-- None of the commands the loop gives can fault. -/
theorem hostTurn_ne_fault {w : HostDraw} : hostTurn w s ≠ .fault r := by
  cases hpc : s.hostPc with
  | idle => rw [hostTurn_idle hpc]; exact nofun
  | setup todo =>
    cases todo with
    | nil => simp [hostTurn, hpc]
    | cons c todo => rw [hostTurn_setup hpc, ne_eq, thenLoop_fault]; exact SetupCmd.run_ne_fault
  | issue => rw [hostTurn_issue hpc, ne_eq, thenLoop_fault]; exact execIssue_ne_fault
  | send => rw [hostTurn_send hpc, ne_eq, thenLoop_fault]; exact execSend_ne_fault
  | receive => rw [hostTurn_receive hpc, ne_eq, thenLoop_fault]; exact execReceive_ne_fault
  | matching => rw [hostTurn_matching hpc, ne_eq, thenLoop_fault]; exact State.returns_ne_fault _ _ r

end

/-! ## Every instruction -/

/-- The instruction's own buffer is too short or its own window too large. -/
inductive WrongSized (p : Params) : Instr → Prop where
  | frame {d : Nat} {f : Frame} : f.payload.length < p.n → WrongSized p (.frame d f)
  | devRx {d : Nat} {B : List Byte} : B.length < 4 + p.n → WrongSized p (.devRx d B)
  | pack {d : Nat} {k : SlotIx} {buf : List Byte} {base budget : Nat} {i : Instr} :
      i ∈ [Instr.packMod d k buf base budget, .packFoci d k buf base budget, .packAtomic d k buf base budget] →
      p.n < base + budget ∨ buf.length < p.n → WrongSized p i

/-- A pack command that faults has a window beyond `N` or too short a buffer. -/
theorem wrongSized_of_pack_fault {s : State} {d : Nat} {k : SlotIx} {buf : List Byte} {base budget : Nat} {i : Instr} {r : Fault}
    (hi : i ∈ [Instr.packMod d k buf base budget, .packFoci d k buf base budget, .packAtomic d k buf base budget])
    (h : exec i s = .fault r) : WrongSized s.params i := by
  obtain ⟨pack, heq, hpack⟩ := exec_packCommand hi s
  obtain ⟨-, ⟨hwin, -⟩ | ⟨-, hbuf, -⟩⟩ := (packInto_fault hpack).mp (heq.symm.trans h)
  · exact .pack hi (.inl hwin)
  · exact .pack hi (.inr hbuf)

/-- While every wire holds a frame header, only an instruction with operands of the wrong size faults. -/
theorem exec_fault_wrongSized {i : Instr} {s : State} {r : Fault} (hwire : ∀ l ∈ s.lanes, 4 ≤ l.wire.length)
    (h : exec i s = .fault r) : WrongSized s.params i := by
  cases i with
  | empty d rest => exact absurd h (exec_ne_fault_of_toInstr (sl := .empty rest) rfl)
  | modFirst d hd tl => exact absurd h (exec_ne_fault_of_toInstr (sl := .modFirst hd tl) rfl)
  | modCont d hd tl => exact absurd h (exec_ne_fault_of_toInstr (sl := .modCont hd tl) rfl)
  | fociFirst d hd tl => exact absurd h (exec_ne_fault_of_toInstr (sl := .fociFirst hd tl) rfl)
  | fociCont d hd tl => exact absurd h (exec_ne_fault_of_toInstr (sl := .fociCont hd tl) rfl)
  | atomic11 d b => exact absurd h (exec_ne_fault_of_toInstr (sl := .atomic 0x11 b) rfl)
  | atomic30 d b => exact absurd h (exec_ne_fault_of_toInstr (sl := .atomic 0x30 b) rfl)
  | atomic31 d b => exact absurd h (exec_ne_fault_of_toInstr (sl := .atomic 0x31 b) rfl)
  | atomic42 d b => exact absurd h (exec_ne_fault_of_toInstr (sl := .atomic 0x42 b) rfl)
  | atomic60 d b => exact absurd h (exec_ne_fault_of_toInstr (sl := .atomic 0x60 b) rfl)
  | frame d f =>
    obtain ⟨-, hshort, -⟩ := execFrame_fault.mp h
    exact .frame hshort
  | devRx d B =>
    obtain ⟨-, hshort, -⟩ := execDevRx_fault.mp h
    exact .devRx hshort
  | deliver d => exact absurd h (execDeliver_ne_fault hwire)
  | packMod d k buf base budget => exact wrongSized_of_pack_fault (List.mem_cons_self ..) h
  | packFoci d k buf base budget => exact wrongSized_of_pack_fault (.tail _ (List.mem_cons_self ..)) h
  | packAtomic d k buf base budget => exact wrongSized_of_pack_fault (.tail _ (.tail _ (List.mem_cons_self ..))) h
  | ack d a => exact absurd h execAck_ne_fault
  | reset => exact nomatch (execReset_eq s).symm.trans h
  | load d k op => exact absurd h execLoad_ne_fault
  | enable d b => exact absurd h execEnable_ne_fault
  | requiredSize d k => exact absurd h execRequiredSize_ne_fault
  | issue => exact absurd h execIssue_ne_fault
  | send io => exact absurd h execSend_ne_fault
  | receive io draws => exact absurd h execReceive_ne_fault
  | matchAcks => exact absurd h (State.returns_ne_fault _ _ r)
  | sendDatagram calls timeout => exact absurd h execSendDatagram_ne_fault

/-! ## Every turn -/

/-- A turn that faults is a command with operands of the wrong size: a fetched record, the send loop and the resets never fault. -/
theorem runTurn_fault_wrongSized {turn : Turn} {s : State} {r : Fault} (hwire : ∀ l ∈ s.lanes, 4 ≤ l.wire.length)
    (h : runTurn turn s = .fault r) : ∃ i, turn = .cmd i ∧ WrongSized s.params i := by
  cases turn with
  | cmd i => exact ⟨i, rfl, exec_fault_wrongSized hwire h⟩
  | parse d =>
    obtain ⟨l, -, h⟩ := onLane_fault.mp h
    exact absurd h execAck_ne_fault
  | host w => exact absurd h hostTurn_ne_fault
  | linkOpen | linkClose | resetHost => cases h
  | resetDev d => exact absurd h resetDev_ne_fault

/-- Under the invariant every wire holds a whole frame (R188). -/
theorem Inv.wire_header {s : State} (h : Inv s) : ∀ l ∈ s.lanes, 4 ≤ l.wire.length := fun l hl => by
  have hlen := (h.lanes_ok l hl).wire_ok.length_eq
  omega

/-- Settles O56: `runTurn_fault_wrongSized` on the queue's next turn, the invariant giving every wire its frame. -/
theorem ownCommandsNeverFault : Obligations.OwnCommandsNeverFault := by
  intro s r hinv h
  cases hq : s.queue with
  | nil =>
    rw [step, nextTurn, hq] at h
    cases h
  | cons turn rest =>
    rw [step_cons hq] at h
    obtain ⟨i, rfl, hi⟩ := runTurn_fault_wrongSized (s := { s with queue := rest }) hinv.wire_header h
    cases hi with
    | @frame d f hshort => exact ⟨rest, d, .inl ⟨f, rfl, hshort⟩⟩
    | @devRx d B hshort => exact ⟨rest, d, .inr (.inl ⟨B, rfl, hshort⟩)⟩
    | @pack d k buf base budget i hmem hsize =>
      refine ⟨rest, d, .inr (.inr ⟨k, buf, base, budget, hsize, ?_⟩)⟩
      simpa using hmem

/-- Settles O40: `packInto_fault`, `execFrame_fault` and `execDevRx_fault` for operands too short or too large a window, and the
`tooLong` lemmas for the refusals. -/
theorem wrongSizedBuffersStop : Obligations.WrongSizedBuffersStop := by
  refine ⟨fun s d k buf base budget i hd hi => ?_, fun s d f B hd => ?_⟩
  · obtain ⟨pack, heq, hpack⟩ := exec_packCommand hi s
    rw [heq]
    exact ⟨fun hwin => (packInto_fault hpack).mpr ⟨hd, .inl ⟨hwin, rfl⟩⟩,
      fun hwin hshort => (packInto_fault hpack).mpr ⟨hd, .inr ⟨hwin, hshort, rfl⟩⟩,
      fun hwin hlong => packInto_tooLong hd hwin hlong pack⟩
  · exact ⟨fun hshort => execFrame_fault.mpr ⟨hd, hshort, rfl⟩, execFrame_tooLong hd,
      fun hshort => execDevRx_fault.mpr ⟨hd, hshort, rfl⟩, execDevRx_tooLong hd⟩

end Sys2Proof.Machine

namespace Sys2Proof.Machine

open Sys2Proof

/-! # The machine right after reset (spec/70_reset_and_hazards.md R310, R311, R313) -/

/-- A lane at power-on is a fixed point of RESET. -/
theorem resetLane_reset (p : Params) : resetLane p (Lane.reset p.n) = Lane.reset p.n := rfl

/-- A lane at power-on is not enabled, so its frame is an empty one: the header and `N` zeros (spec/41_dual_slot_packer.md R181). -/
theorem packDevice_reset (p : Params) (id : Byte) :
    packDevice p id (Lane.reset p.n) =
      .ok { Lane.reset p.n with txbuf := [id, 0x00, 0x00, 0x00] ++ List.replicate p.n 0x00 } := by
  rw [packDevice_empty (.inl rfl), batchFrame_eq]
  rfl

/-- Devices that are alike are packed alike. -/
theorem packAll_replicate {p : Params} {id : Byte} {l l' : Lane} (h : packDevice p id l = .ok l') (D : Nat) :
    packAll p id (List.replicate D l) = .ok (List.replicate D l') := by
  induction D with
  | zero => rfl
  | succ D ih => simp only [List.replicate_succ, packAll, h, ih]

/-- Settles O14: every lane at power-on is a fixed point of RESET, and the first ISSUE packs an empty frame for each. -/
theorem resetStateIsFixedByReset : Obligations.ResetStateIsFixedByReset := by
  intro p D
  refine ⟨?_, ?_, fun l hl => ?_⟩
  · have hlanes : (State.resetWith p D).lanes.map (resetLane p) = (State.resetWith p D).lanes := by
      simp only [State.resetWith, List.map_replicate, resetLane_reset]
    exact (execReset_eq _).trans
      (congrArg (fun ls => Host.Outcome.next { State.resetWith p D with lanes := ls, ret := .ok }) hlanes)
  · exact execIssue_next.mpr (.inr ⟨_, packAll_replicate (packDevice_reset p 0x01) D, rfl⟩)
  · have hid : l.rx.ack.id = 0x00 := by rw [List.eq_of_mem_replicate hl]; rfl
    rw [hid]
    decide

/-- A lane at power-on is sound. -/
theorem lane_reset_ok {p : Params} (hp : ParamsOk p) : LaneOk p (Lane.reset p.n) :=
  ⟨trivial, trivial, zeros_frame_ok hp, zeros_frame_ok hp, resetDevice_ok p Device.reset⟩

/-- The invariant after reset, for a deployment within the bounds of R6. -/
theorem resetWith_inv {p : Params} {D : Nat} (hp : ParamsOk p) (hD : 1 ≤ D) : Inv (State.resetWith p D) where
  params_ok := hp
  devices := hD.trans_eq List.length_replicate.symm
  lanes_ok _ hl := List.eq_of_mem_replicate hl ▸ lane_reset_ok hp
  session_ok := .of_no_batch nofun nofun (.inl rfl)

/-- The deployment of log entry 2 is within the bounds of R6. -/
theorem params_default_ok : ParamsOk Params.default := by
  constructor <;> decide

/-- Settles O54: `State.reset` is one of the deployments of `resetWith_inv`. -/
theorem invariantHoldsAfterReset : Obligations.InvariantHoldsAfterReset :=
  ⟨resetWith_inv params_default_ok (Nat.le_refl 1), fun _ _ => resetWith_inv⟩

/-! # What a reset leaves alone (spec/70_reset_and_hazards.md R310, R323; log entries 5, 21) -/

/-- No byte of a segment buffer has a value after a device's reset. -/
theorem resetDevice_segByte (dev : Device) (k : Kind) (seg : Segment) (a : Nat) :
    (resetDevice dev).segByte k seg a = none := by
  simp only [Device.segByte, resetDevice, Streams.get_all, Memory.read_nil]

/-- A lone device reset replaces that device's lane alone. -/
theorem resetDev_eq {s : State} {d : Nat} {l : Lane} (h : s.lanes[d]? = some l) :
    resetDev d s = .next (s.setLane d { l with rx := resetDevice l.rx }) :=
  onLane_some _ h

/-- Settles O15: RESET takes each lane to its `resetLane`, a lone host reset to its `resetHostLane`, and a lone device reset
replaces one lane's device by its `resetDevice`. -/
theorem resetsTouchTheirOwnSide : Obligations.ResetsTouchTheirOwnSide := by
  intro s rest
  refine ⟨fun t ht => ?_, fun hq => ?_, fun d l hq hl => ?_⟩
  · cases (execReset_eq s).symm.trans ht
    refine ⟨rfl, rfl, rfl, rfl, fun d l l0 hl hl0 => ?_⟩
    rw [List.getElem?_map, hl0] at hl
    cases hl
    exact ⟨rfl, rfl, resetDevice_segByte l0.rx⟩
  · refine ⟨resetHost { s with queue := rest }, step_cons hq, rfl, rfl, rfl, rfl, rfl, rfl, List.length_map _, fun d l0 hl0 => ?_⟩
    exact (List.getElem?_map ..).trans (congrArg (Option.map (resetHostLane s.params)) hl0)
  · rw [step_cons hq]
    exact resetDev_eq (s := { s with queue := rest }) hl

end Sys2Proof.Machine

namespace Sys2Proof.Machine

open Sys2Proof

/-! # Refusals (spec/70_reset_and_hazards.md R320, R321, spec/60_exceptions.md R293; log entries 11, 19, 29) -/

/-- A call is running at its ENABLEs and LOADs or while `SESSION` says so. -/
theorem State.callRunning_iff {s : State} :
    s.callRunning = true ↔ s.session = .sending ∨ s.session = .awaitingAck ∨ ∃ todo, s.hostPc = .setup todo := by
  rw [← Bool.not_eq_false, State.callRunning_eq_false]
  simp only [not_and_or, not_forall, not_not]

theorem State.inFlight_iff {s : State} : s.inFlight = true ↔ s.session = .sending ∨ s.session = .awaitingAck := by
  simp [State.inFlight]

/-! ## SEND_DATAGRAM, LOAD and RECEIVE -/

theorem execSendDatagram_running {s : State} (calls : List DeviceCall) (timeout : Nat) (h : s.callRunning = true) :
    execSendDatagram calls timeout s = .refused .callInFlight :=
  if_pos h

/-- A call without one entry a device, or with an operation of an enabled device outside its domain. -/
theorem execSendDatagram_outside {s : State} {calls : List DeviceCall} (timeout : Nat) (hidle : s.callRunning = false)
    (h : calls.length ≠ s.lanes.length ∨
      ∃ c ∈ calls, c.enabled = true ∧ (c.pri.inDomain = false ∨ c.sec.inDomain = false)) :
    execSendDatagram calls timeout s = .refused .operandDomain := by
  rw [execSendDatagram, hidle, if_neg Bool.false_ne_true]
  by_cases hlen : calls.length = s.lanes.length
  · obtain ⟨c, hc, hen, hop⟩ := h.resolve_left (not_not_intro hlen)
    have hall : calls.all (fun c => operandOk (effectiveOp c c.pri) && operandOk (effectiveOp c c.sec)) = false :=
      List.all_eq_false.mpr ⟨c, hc, by obtain hop | hop := hop <;> simp [operandOk, effectiveOp, hen, hop]⟩
    rw [if_neg (not_not_intro hlen), hall]
    rfl
  · exact if_pos hlen

theorem execLoad_inFlight {s : State} {d : Nat} (ix : SlotIx) (op : Operation) (hd : d < s.lanes.length)
    (h : s.inFlight = true) : execLoad d ix op s = .refused .loadInCall :=
  (onLane_some _ (List.getElem?_eq_getElem hd)).trans (if_pos h)

theorem execLoad_outside {s : State} {d : Nat} (ix : SlotIx) {op : Operation} (hd : d < s.lanes.length)
    (hidle : s.inFlight = false) (hop : op.inDomain = false) : execLoad d ix op s = .refused .operandDomain := by
  rw [execLoad, onLane_some _ (List.getElem?_eq_getElem hd), hidle, operandOk, hop]
  rfl

theorem execReceive_outside {s : State} (io : Bool) {draws : List RxDraw} (h : draws.length ≠ s.lanes.length) :
    execReceive io draws s = .refused .operandDomain :=
  if_pos h

/-! ## A device that does not exist -/

/-- The device an instruction names. -/
def namedDevice : Instr → Option Nat
  | .empty d _ | .modFirst d _ _ | .modCont d _ _ | .fociFirst d _ _ | .fociCont d _ _ => some d
  | .atomic11 d _ | .atomic30 d _ | .atomic31 d _ | .atomic42 d _ | .atomic60 d _ => some d
  | .frame d _ | .devRx d _ | .deliver d | .ack d _ => some d
  | .load d _ _ | .enable d _ | .requiredSize d _ => some d
  | .packMod d _ _ _ _ | .packFoci d _ _ _ _ | .packAtomic d _ _ _ _ => some d
  | .reset | .issue | .send _ | .receive _ _ | .matchAcks | .sendDatagram _ _ => none

/-- An instruction that names a device is a function of that device's lane. -/
theorem exec_eq_onLane {i : Instr} {d : Nat} (s : State) (h : namedDevice i = some d) : ∃ f, exec i s = s.onLane d f := by
  cases i with
  | reset | issue | send | receive | matchAcks | sendDatagram => cases h
  | _ => cases h; exact ⟨_, rfl⟩

theorem exec_noSuchDevice {s : State} {i : Instr} {d : Nat} (h : namedDevice i = some d) (hd : s.lanes.length ≤ d) :
    exec i s = .refused (.noSuchDevice d) := by
  obtain ⟨f, hf⟩ := exec_eq_onLane s h
  exact hf.trans (onLane_none f hd)

/-- Settles O33: each command's own refusal, and `exec_noSuchDevice` for the commands that name a device. -/
theorem refusalsAreByName : Obligations.RefusalsAreByName := by
  refine ⟨fun s calls timeout => ⟨fun h => ?_, fun hs ha hpc h => ?_⟩, fun s d ix op hd => ⟨fun h => ?_, fun hs ha hop => ?_⟩,
    fun s io draws h => execReceive_outside io h, fun s d ix op b B f a h m g x y hd i hi => exec_noSuchDevice ?_ hd⟩
  · exact execSendDatagram_running calls timeout (State.callRunning_iff.mpr h)
  · exact execSendDatagram_outside timeout (State.callRunning_eq_false.mpr ⟨hs, ha, hpc⟩) h
  · exact execLoad_inFlight ix op hd (State.inFlight_iff.mpr h)
  · exact execLoad_outside ix hd (State.inFlight_eq_false.mpr ⟨hs, ha⟩) hop
  · exact List.eq_of_mem_replicate (n := 20) (List.mem_map_of_mem (f := namedDevice) hi)

end Sys2Proof.Machine

namespace Sys2Proof.Machine

/-! # A step at a command -/

/-- Settles O9: the step runs the turn at the head of the queue (`step_cons`), and a command's turn is its execution. -/
theorem stepRunsTheNextCommand : Obligations.StepRunsTheNextCommand := by
  intro s i rest h
  calc step s = runTurn (.cmd i) { s with queue := rest } := step_cons h
    _ = exec i { s with queue := rest } := rfl

end Sys2Proof.Machine
